-- ==== Sys2Proof/Word.lean ====
section
/-! DEFINITION. The widths of the block: a data byte, a bus address and a transaction word (R6, R7, R80). -/

namespace Sys2Proof

/-- A data byte: DATA_BITS = 8 (R6); every stored value is in 0..255 (R40 (f)). -/
abbrev Byte := BitVec 8

/-- A bus address: ADDR_BITS = 16 (R6). -/
abbrev Addr := BitVec 16

/-- A transaction word: CMD in bits 19:16, ADDR in bits 15:0 (R80). -/
abbrev TxnWord := BitVec 20

end Sys2Proof
end

