-- ==== Sys2Proof/Config.lean ====
section
/-! DEFINITION. The parameters of R6: the constants the spec fixes, the parameters it leaves to a construction
(`Params`, held in State as plain data) and the two free values (ROM_FILL and DEVICE_ORDER, which have no body). -/

namespace Sys2Proof

/-- The bank-controller kind, chosen once at construction: NONE, MBC1 or MBC3 (R2, R25). -/
inductive Variant where
  | none
  | mbc1
  | mbc3
deriving DecidableEq, Repr

/-- The meaning of an MBC3 write to 0x4000..0x5FFF: the parameter MBC3_RAMEN2 (R6, R158, D18). -/
inductive RamEn2 where
  | set
  | flip
deriving DecidableEq, Repr

/-- The three devices a SYS_STEP advances (R276). -/
inductive Device where
  | bus
  | ppu
  | timer
deriving DecidableEq, Repr

/-- DEVICE_ORDER: the six permutations of (BUS, PPU, TIMER) (R6, R276, D10). -/
inductive DeviceOrder where
  | busPpuTimer
  | busTimerPpu
  | ppuBusTimer
  | ppuTimerBus
  | timerBusPpu
  | timerPpuBus
deriving DecidableEq, Repr, Inhabited

/-- The devices of an order, first to last (R276). -/
def DeviceOrder.devices : DeviceOrder → List Device
  | .busPpuTimer => [.bus, .ppu, .timer]
  | .busTimerPpu => [.bus, .timer, .ppu]
  | .ppuBusTimer => [.ppu, .bus, .timer]
  | .ppuTimerBus => [.ppu, .timer, .bus]
  | .timerBusPpu => [.timer, .bus, .ppu]
  | .timerPpuBus => [.timer, .ppu, .bus]

/-- The parameters that R6 leaves to the machine's construction and that a step reads (R331 lists them among the
inputs of Construct). No step changes them; a claim about every state holds for every value of them.
The assumption log's entries 7, 8 and 9. -/
structure Params where
  /-- DMA_LAND: entry i is the elapsed count at which byte i of a transfer lands (R184, D8). -/
  dmaLand : List Nat
  /-- VBLANK_CYCLES: the duration of VBLANK (R6, R200, D32). -/
  vblankCycles : Nat
  /-- MBC3_RAMEN2 (R158, D18). -/
  ramEn2 : RamEn2
deriving DecidableEq, Repr

namespace Config

/-- BOOT_LEN (R6). -/
abbrev bootLen : Nat := 0x0100
/-- ROM_BANK_SIZE (R6). -/
abbrev romBankSize : Nat := 0x4000
/-- RAM_BANK_SIZE (R6). -/
abbrev ramBankSize : Nat := 0x2000
/-- VRAM_LEN (R6). -/
abbrev vramLen : Nat := 0x2000
/-- WRAM_LEN (R6). -/
abbrev wramLen : Nat := 0x2000
/-- OAM_LEN (R6). -/
abbrev oamLen : Nat := 0x00A0
/-- IO_LEN (R6). -/
abbrev ioLen : Nat := 0x0080
/-- HRAM_LEN (R6). -/
abbrev hramLen : Nat := 0x0080
/-- HEADER_TYPE_OFFSET (R6). -/
abbrev headerTypeOffset : Nat := 0x0147
/-- RAM_DISABLED_VALUE (R6, R303). -/
abbrev ramDisabledValue : Byte := 0xFF#8
/-- DMA_LEN (R6). -/
abbrev dmaLen : Nat := 0xA0
/-- DMA_CYCLES (R6). -/
abbrev dmaCycles : Nat := 162
/-- OAM_READ_CYCLES (R6). -/
abbrev oamReadCycles : Nat := 80
/-- VRAM_READ_CYCLES (R6). -/
abbrev vramReadCycles : Nat := 172
/-- HBLANK_CYCLES (R6). -/
abbrev hblankCycles : Nat := 204
/-- VISIBLE_LINES: lines 0..143 (R6). -/
abbrev visibleLines : Nat := 144
/-- SCREEN_WIDTH (R6, D35). -/
abbrev screenWidth : Nat := 160
/-- TIMER_MOD is 2 ^ 10: the internal counter has 10 bits (R6, R31). -/
abbrev timerBits : Nat := 10
/-- DIV_PERIOD (R6). -/
abbrev divPeriod : Nat := 256

/-- Offsets in the IO block of the registers a rule reads or writes (R33; the addresses are decisions D6, D7, D23, D33, D34). -/
abbrev divOff : Nat := 0x04
/-- TIMA, 0xFF05 (R33). -/
abbrev timaOff : Nat := 0x05
/-- TMA, 0xFF06 (R33). -/
abbrev tmaOff : Nat := 0x06
/-- TAC, 0xFF07 (R33, R34). -/
abbrev tacOff : Nat := 0x07
/-- LCDC, 0xFF40 (R33, R35). -/
abbrev lcdcOff : Nat := 0x40
/-- SCY, 0xFF42 (R33). -/
abbrev scyOff : Nat := 0x42
/-- SCX, 0xFF43 (R33). -/
abbrev scxOff : Nat := 0x43
/-- LY, 0xFF44 (R33, R212). -/
abbrev lyOff : Nat := 0x44
/-- DMA, 0xFF46 (R33, R122). -/
abbrev dmaOff : Nat := 0x46
/-- BOOT_OFF, 0xFF50 (R33, R123). -/
abbrev bootOffOff : Nat := 0x50

/-- ROM_BANKS (R6, R142, D11). -/
def romBanks : Variant → Nat
  | .none => 2
  | .mbc1 => 128
  | .mbc3 => 128

/-- RAM_BANKS (R6, D16, D19, D21). -/
def ramBanks : Variant → Nat
  | .none => 1
  | .mbc1 => 4
  | .mbc3 => 4

/-- The default schedule `DMA_LAND(i) = i + 3` (R184). -/
def defaultLand : List Nat := (List.range dmaLen).map (· + 3)

/-- The page-by-page schedule `DMA_LAND(i) = 162` (R184). -/
def pageByPageLand : List Nat := List.replicate dmaLen dmaCycles

/-- The defaults of R6 for the parameters a step reads: byte-by-byte landing, VBLANK_CYCLES = 456 × 144, SET. -/
def defaultParams : Params :=
  { dmaLand := defaultLand, vblankCycles := 65664, ramEn2 := .set }

/-- The default DOCUMENTED_TYPES (R140, D22), an argument of `construct`. The assumption log's entry 10. -/
def defaultDocumentedTypes : List Byte :=
  [0x05#8, 0x06#8, 0x08#8, 0x09#8, 0x0B#8, 0x0C#8, 0x0D#8, 0x19#8, 0x1A#8, 0x1B#8, 0x1C#8, 0x1D#8, 0x1E#8,
    0x20#8, 0x22#8, 0xFC#8, 0xFD#8, 0xFE#8, 0xFF#8]

/-- ROM_FILL: the n-th fresh draw, for a ROM byte beyond the supplied image (R8 `draw()`, R142, D11).
A free value: it has no body. The assumption log's entry 12. -/
opaque romFill : Nat → Byte

/-- DEVICE_ORDER: the order chosen for the n-th SYS_STEP (R276, D10).
A free value: it has no body. The assumption log's entry 11. -/
opaque deviceOrder : Nat → DeviceOrder

end Config

/-- `DMA_LAND(i)` under these parameters (R184). -/
def Params.landAt (p : Params) (i : Nat) : Nat := p.dmaLand.getD i 0

/-- What the spec asks of the parameters: the schedule has one entry for each byte and meets R184 (a), (b) and (c),
and VBLANK lasts at least one cycle. -/
abbrev Params.Legal (p : Params) : Prop :=
  p.dmaLand.length = Config.dmaLen ∧
  (∀ i < Config.dmaLen, 1 ≤ p.landAt i ∧ p.landAt i ≤ Config.dmaCycles) ∧
  (∀ i < Config.dmaLen - 1, p.landAt i ≤ p.landAt (i + 1)) ∧
  p.landAt (Config.dmaLen - 1) = Config.dmaCycles ∧
  0 < p.vblankCycles

end Sys2Proof
end

