-- ==== Sys2Proof/Syntax.lean ====
section
/-! DEFINITION. Transactions as the host issues them (R80 to R82) and the instructions they decode to: one constructor
of `Instr` for each row of spec/opcode_table.json. -/

namespace Sys2Proof

/-- The five interrupt flags, by name (R32, R271). -/
inductive Irq where
  | vblank
  | lcdStat
  | timer
  | serial
  | joypad
deriving DecidableEq, Repr

/-- The bit number of a flag (R32, D28). -/
def Irq.bit : Irq → Nat
  | .vblank => 0
  | .lcdStat => 1
  | .timer => 2
  | .serial => 3
  | .joypad => 4

/-- What the host may hand over beside the word (R80, R81): nothing, an integer, a pair of integers or a list of
integers. A command accepts those of its own type (R82) and refuses the rest (R84). The assumption log's entry 13. -/
inductive Operand where
  | none
  | int (v : Int)
  | pair (a b : Int)
  | list (xs : List Int)
deriving DecidableEq, Repr

/-- A transaction: a 20-bit word and an operand (R80). -/
structure Txn where
  word : TxnWord
  operand : Operand
deriving DecidableEq, Repr

/-- CMD = word[19:16] (R80). -/
def Txn.cmd (t : Txn) : BitVec 4 := t.word.extractLsb' 16 4

/-- ADDR = word[15:0] (R80). -/
def Txn.addr (t : Txn) : Addr := t.word.extractLsb' 0 16

/-- The word `(CMD << 16) | ADDR` (R87). -/
def mkWord (cmd : BitVec 4) (a : Addr) : TxnWord := cmd ++ a

/-- The reasons of a refusal (R84, R300 code 7). -/
inductive RefuseReason where
  | reservedCmd
  | unmodelledButtons
  | nonzeroAddrField
  | badOperand
deriving DecidableEq, Repr

/-- The two pieces of state that change the decode (R85). -/
structure Mode where
  variant : Variant
  bootEnabled : Bool
deriving DecidableEq, Repr

/-- The instructions: one constructor for each row of spec/opcode_table.json. A READ row holds its bus address, a WRITE
row its bus address and DATA (an integer: R82 lets any integer through to WRITE, whose rule R101 checks it), a command
its operand. -/
inductive Instr where
  /-- `RD.BOOT`, word 0x00000 to 0x000FF (R102). -/
  | rdBoot (a : Addr)
  /-- `RD.ROM0`, word 0x00000 to 0x03FFF (R103). -/
  | rdRom0 (a : Addr)
  /-- `RD.ROMX`, word 0x04000 to 0x07FFF (R104). -/
  | rdRomx (a : Addr)
  /-- `RD.VRAM`, word 0x08000 to 0x09FFF (R105). -/
  | rdVram (a : Addr)
  /-- `RD.ERAM.NONE`, word 0x0A000 to 0x0BFFF (R147). -/
  | rdEramNone (a : Addr)
  /-- `RD.ERAM.MBC1`, word 0x0A000 to 0x0BFFF (R153). -/
  | rdEramMbc1 (a : Addr)
  /-- `RD.ERAM.MBC3`, word 0x0A000 to 0x0BFFF (R160). -/
  | rdEramMbc3 (a : Addr)
  /-- `RD.WRAM`, word 0x0C000 to 0x0DFFF (R107). -/
  | rdWram (a : Addr)
  /-- `RD.ECHO.E000`, word 0x0E000 to 0x0EFFF (R108). -/
  | rdEchoE000 (a : Addr)
  /-- `RD.ECHO.F000`, word 0x0F000 to 0x0F7FF (R108). -/
  | rdEchoF000 (a : Addr)
  /-- `RD.ECHO.F800`, word 0x0F800 to 0x0FBFF (R108). -/
  | rdEchoF800 (a : Addr)
  /-- `RD.ECHO.FC00`, word 0x0FC00 to 0x0FDFF (R108). -/
  | rdEchoFc00 (a : Addr)
  /-- `RD.OAM.FE00`, word 0x0FE00 to 0x0FE7F (R109). -/
  | rdOamFe00 (a : Addr)
  /-- `RD.OAM.FE80`, word 0x0FE80 to 0x0FE9F (R109). -/
  | rdOamFe80 (a : Addr)
  /-- `RD.GAP.FEA0`, word 0x0FEA0 to 0x0FEBF (R110). -/
  | rdGapFea0 (a : Addr)
  /-- `RD.GAP.FEC0`, word 0x0FEC0 to 0x0FEFF (R110). -/
  | rdGapFec0 (a : Addr)
  /-- `RD.IO`, word 0x0FF00 to 0x0FF7F (R111). -/
  | rdIo (a : Addr)
  /-- `RD.HRAM`, word 0x0FF80 to 0x0FFFF (R112). -/
  | rdHram (a : Addr)
  /-- `WR.BOOT`, word 0x10000 to 0x100FF (R113). -/
  | wrBoot (a : Addr) (v : Int)
  /-- `WR.ROM.NONE`, word 0x10000 to 0x17FFF (R146). -/
  | wrRomNone (a : Addr) (v : Int)
  /-- `WR.MBC1.RAMEN`, word 0x10000 to 0x11FFF (R149). -/
  | wrMbc1Ramen (a : Addr) (v : Int)
  /-- `WR.MBC1.ROMLO`, word 0x12000 to 0x13FFF (R150). -/
  | wrMbc1Romlo (a : Addr) (v : Int)
  /-- `WR.MBC1.HI`, word 0x14000 to 0x15FFF (R151). -/
  | wrMbc1Hi (a : Addr) (v : Int)
  /-- `WR.MBC1.MODE`, word 0x16000 to 0x17FFF (R152). -/
  | wrMbc1Mode (a : Addr) (v : Int)
  /-- `WR.MBC3.RAMEN`, word 0x10000 to 0x11FFF (R156). -/
  | wrMbc3Ramen (a : Addr) (v : Int)
  /-- `WR.MBC3.ROMB`, word 0x12000 to 0x13FFF (R157). -/
  | wrMbc3Romb (a : Addr) (v : Int)
  /-- `WR.MBC3.RAMEN2`, word 0x14000 to 0x15FFF (R158). -/
  | wrMbc3Ramen2 (a : Addr) (v : Int)
  /-- `WR.MBC3.RAMB`, word 0x16000 to 0x17FFF (R159). -/
  | wrMbc3Ramb (a : Addr) (v : Int)
  /-- `WR.VRAM`, word 0x18000 to 0x19FFF (R115). -/
  | wrVram (a : Addr) (v : Int)
  /-- `WR.ERAM.NONE`, word 0x1A000 to 0x1BFFF (R148). -/
  | wrEramNone (a : Addr) (v : Int)
  /-- `WR.ERAM.MBC1`, word 0x1A000 to 0x1BFFF (R154). -/
  | wrEramMbc1 (a : Addr) (v : Int)
  /-- `WR.ERAM.MBC3`, word 0x1A000 to 0x1BFFF (R161). -/
  | wrEramMbc3 (a : Addr) (v : Int)
  /-- `WR.WRAM`, word 0x1C000 to 0x1DFFF (R117). -/
  | wrWram (a : Addr) (v : Int)
  /-- `WR.ECHO.E000`, word 0x1E000 to 0x1EFFF (R118). -/
  | wrEchoE000 (a : Addr) (v : Int)
  /-- `WR.ECHO.F000`, word 0x1F000 to 0x1F7FF (R118). -/
  | wrEchoF000 (a : Addr) (v : Int)
  /-- `WR.ECHO.F800`, word 0x1F800 to 0x1FBFF (R118). -/
  | wrEchoF800 (a : Addr) (v : Int)
  /-- `WR.ECHO.FC00`, word 0x1FC00 to 0x1FDFF (R118). -/
  | wrEchoFc00 (a : Addr) (v : Int)
  /-- `WR.OAM.FE00`, word 0x1FE00 to 0x1FE7F (R119). -/
  | wrOamFe00 (a : Addr) (v : Int)
  /-- `WR.OAM.FE80`, word 0x1FE80 to 0x1FE9F (R119). -/
  | wrOamFe80 (a : Addr) (v : Int)
  /-- `WR.GAP.FEA0`, word 0x1FEA0 to 0x1FEBF (R120). -/
  | wrGapFea0 (a : Addr) (v : Int)
  /-- `WR.GAP.FEC0`, word 0x1FEC0 to 0x1FEFF (R120). -/
  | wrGapFec0 (a : Addr) (v : Int)
  /-- `WR.IO.TAC`, word 0x1FF07 (R124). -/
  | wrIoTac (v : Int)
  /-- `WR.IO.DMA`, word 0x1FF46 (R122). -/
  | wrIoDma (v : Int)
  /-- `WR.IO.BOOTOFF`, word 0x1FF50 (R123). -/
  | wrIoBootoff (v : Int)
  /-- `WR.IO`, word 0x1FF00 to 0x1FF7F (R121). -/
  | wrIo (a : Addr) (v : Int)
  /-- `WR.HRAM`, word 0x1FF80 to 0x1FFFF (R125). -/
  | wrHram (a : Addr) (v : Int)
  /-- `SYS_STEP`, word 0x20000 (R276). -/
  | sysStep (n : Nat)
  /-- `BUS_STEP`, word 0x30000 (R182). -/
  | busStep (n : Nat)
  /-- `PPU_STEP`, word 0x40000 (R201). -/
  | ppuStep (n : Nat)
  /-- `TIMER_TICK`, word 0x50000 (R241). -/
  | timerTick (n : Nat)
  /-- `SET_BOOT_OVERLAY`, word 0x60000 (R277). -/
  | setBootOverlay (f : Bool)
  /-- `IRQ_READ`, word 0x70000 (R272). -/
  | irqRead
  /-- `IRQ_CLEAR`, word 0x80000 (R273). -/
  | irqClear (m : BitVec 5)
  /-- `IRQ_RAISE`, word 0x90000 (R274). -/
  | irqRaise (k : Irq)
  /-- `TIMER_CONFIGURE`, word 0xA0000 (R247). -/
  | timerConfigure (en : Bool) (n : Nat)
  /-- `RAM_EXPORT`, word 0xB0000 (R165). -/
  | ramExport
  /-- `RAM_IMPORT`, word 0xC0000 (R166). -/
  | ramImport (bytes : List Byte)
  /-- `FRAME_READ`, word 0xD0000 (R214). -/
  | frameRead
  /-- `SET_BUTTONS`, word 0xE0000 to 0xEFFFF (R278). -/
  | setButtons (a : Addr) (x : Operand)
  /-- `RESERVED`, word 0xF0000 to 0xFFFFF (R84). -/
  | reserved (a : Addr) (x : Operand)
deriving DecidableEq, Repr

end Sys2Proof
end

