-- ==== Sys2Proof/WellFormed.lean ====
section
/-! DEFINITION. Which terms of `Instr` are instructions: the address of a bus row lies in that row's block of
spec/opcode_table.json (R85); and the state condition under which the decode selects a row (R85). -/

namespace Sys2Proof

/-- `a in [lo, hi]` (R85). -/
def inBlock (lo hi : Nat) (a : Addr) : Bool := decide (lo ≤ a.toNat) && decide (a.toNat ≤ hi)

/-- The address of a bus row lies in the row's block; the row WR.IO leaves out the three addresses of rows 19 to 21
(R85, R121). A command has no address field to check, and the two refused commands take any (R83, R84). -/
def Instr.wellFormed : Instr → Bool
  | .rdBoot a => inBlock 0x0000 0x00FF a
  | .rdRom0 a => inBlock 0x0000 0x3FFF a
  | .rdRomx a => inBlock 0x4000 0x7FFF a
  | .rdVram a => inBlock 0x8000 0x9FFF a
  | .rdEramNone a => inBlock 0xA000 0xBFFF a
  | .rdEramMbc1 a => inBlock 0xA000 0xBFFF a
  | .rdEramMbc3 a => inBlock 0xA000 0xBFFF a
  | .rdWram a => inBlock 0xC000 0xDFFF a
  | .rdEchoE000 a => inBlock 0xE000 0xEFFF a
  | .rdEchoF000 a => inBlock 0xF000 0xF7FF a
  | .rdEchoF800 a => inBlock 0xF800 0xFBFF a
  | .rdEchoFc00 a => inBlock 0xFC00 0xFDFF a
  | .rdOamFe00 a => inBlock 0xFE00 0xFE7F a
  | .rdOamFe80 a => inBlock 0xFE80 0xFE9F a
  | .rdGapFea0 a => inBlock 0xFEA0 0xFEBF a
  | .rdGapFec0 a => inBlock 0xFEC0 0xFEFF a
  | .rdIo a => inBlock 0xFF00 0xFF7F a
  | .rdHram a => inBlock 0xFF80 0xFFFF a
  | .wrBoot a _ => inBlock 0x0000 0x00FF a
  | .wrRomNone a _ => inBlock 0x0000 0x7FFF a
  | .wrMbc1Ramen a _ => inBlock 0x0000 0x1FFF a
  | .wrMbc1Romlo a _ => inBlock 0x2000 0x3FFF a
  | .wrMbc1Hi a _ => inBlock 0x4000 0x5FFF a
  | .wrMbc1Mode a _ => inBlock 0x6000 0x7FFF a
  | .wrMbc3Ramen a _ => inBlock 0x0000 0x1FFF a
  | .wrMbc3Romb a _ => inBlock 0x2000 0x3FFF a
  | .wrMbc3Ramen2 a _ => inBlock 0x4000 0x5FFF a
  | .wrMbc3Ramb a _ => inBlock 0x6000 0x7FFF a
  | .wrVram a _ => inBlock 0x8000 0x9FFF a
  | .wrEramNone a _ => inBlock 0xA000 0xBFFF a
  | .wrEramMbc1 a _ => inBlock 0xA000 0xBFFF a
  | .wrEramMbc3 a _ => inBlock 0xA000 0xBFFF a
  | .wrWram a _ => inBlock 0xC000 0xDFFF a
  | .wrEchoE000 a _ => inBlock 0xE000 0xEFFF a
  | .wrEchoF000 a _ => inBlock 0xF000 0xF7FF a
  | .wrEchoF800 a _ => inBlock 0xF800 0xFBFF a
  | .wrEchoFc00 a _ => inBlock 0xFC00 0xFDFF a
  | .wrOamFe00 a _ => inBlock 0xFE00 0xFE7F a
  | .wrOamFe80 a _ => inBlock 0xFE80 0xFE9F a
  | .wrGapFea0 a _ => inBlock 0xFEA0 0xFEBF a
  | .wrGapFec0 a _ => inBlock 0xFEC0 0xFEFF a
  | .wrIoTac _ => true
  | .wrIoDma _ => true
  | .wrIoBootoff _ => true
  | .wrIo a _ => inBlock 0xFF00 0xFF7F a && a != 0xFF07#16 && a != 0xFF46#16 && a != 0xFF50#16
  | .wrHram a _ => inBlock 0xFF80 0xFFFF a
  | .sysStep _ => true
  | .busStep _ => true
  | .ppuStep _ => true
  | .timerTick _ => true
  | .setBootOverlay _ => true
  | .irqRead => true
  | .irqClear _ => true
  | .irqRaise _ => true
  | .timerConfigure _ _ => true
  | .ramExport => true
  | .ramImport _ => true
  | .frameRead => true
  | .setButtons _ _ => true
  | .reserved _ _ => true

/-- The boot overlay takes the addresses below 0x0100 while it is enabled: row 1 before the rows of the ROM windows
(R56, R85). -/
def Mode.shadows (m : Mode) (a : Addr) : Bool := m.bootEnabled && decide (a.toNat ≤ 0x00FF)

/-- The state condition and the priority of a row (R85): under the mode `m` the row is the one the decode selects for
its address. -/
def Instr.selectedIn (m : Mode) : Instr → Bool
  | .rdBoot _ => m.bootEnabled
  | .rdRom0 a => !m.shadows a
  | .rdRomx _ => true
  | .rdVram _ => true
  | .rdEramNone _ => m.variant == .none
  | .rdEramMbc1 _ => m.variant == .mbc1
  | .rdEramMbc3 _ => m.variant == .mbc3
  | .rdWram _ => true
  | .rdEchoE000 _ => true
  | .rdEchoF000 _ => true
  | .rdEchoF800 _ => true
  | .rdEchoFc00 _ => true
  | .rdOamFe00 _ => true
  | .rdOamFe80 _ => true
  | .rdGapFea0 _ => true
  | .rdGapFec0 _ => true
  | .rdIo _ => true
  | .rdHram _ => true
  | .wrBoot _ _ => m.bootEnabled
  | .wrRomNone a _ => m.variant == .none && !m.shadows a
  | .wrMbc1Ramen a _ => m.variant == .mbc1 && !m.shadows a
  | .wrMbc1Romlo _ _ => m.variant == .mbc1
  | .wrMbc1Hi _ _ => m.variant == .mbc1
  | .wrMbc1Mode _ _ => m.variant == .mbc1
  | .wrMbc3Ramen a _ => m.variant == .mbc3 && !m.shadows a
  | .wrMbc3Romb _ _ => m.variant == .mbc3
  | .wrMbc3Ramen2 _ _ => m.variant == .mbc3
  | .wrMbc3Ramb _ _ => m.variant == .mbc3
  | .wrVram _ _ => true
  | .wrEramNone _ _ => m.variant == .none
  | .wrEramMbc1 _ _ => m.variant == .mbc1
  | .wrEramMbc3 _ _ => m.variant == .mbc3
  | .wrWram _ _ => true
  | .wrEchoE000 _ _ => true
  | .wrEchoF000 _ _ => true
  | .wrEchoF800 _ _ => true
  | .wrEchoFc00 _ _ => true
  | .wrOamFe00 _ _ => true
  | .wrOamFe80 _ _ => true
  | .wrGapFea0 _ _ => true
  | .wrGapFec0 _ _ => true
  | .wrIoTac _ => true
  | .wrIoDma _ => true
  | .wrIoBootoff _ => true
  | .wrIo _ _ => true
  | .wrHram _ _ => true
  | .sysStep _ => true
  | .busStep _ => true
  | .ppuStep _ => true
  | .timerTick _ => true
  | .setBootOverlay _ => true
  | .irqRead => true
  | .irqClear _ => true
  | .irqRaise _ => true
  | .timerConfigure _ _ => true
  | .ramExport => true
  | .ramImport _ => true
  | .frameRead => true
  | .setButtons _ _ => true
  | .reserved _ _ => true

end Sys2Proof
end

