-- ==== Sys2Proof/Decode.lean ====
section
/-! DEFINITION. Decoding a transaction, total, refusing by name (R81 to R86), and the encoder written from the same
table. -/

namespace Sys2Proof

/-! ## The bus decode map -/

/-- The READ rows, in the priority order of R85. Each row's block is the one spec/opcode_table.json gives it. -/
def decodeRead (m : Mode) (a : Addr) : Instr :=
  if m.shadows a then .rdBoot a
  else if a.toNat ≤ 0x3FFF then .rdRom0 a
  else if a.toNat ≤ 0x7FFF then .rdRomx a
  else if a.toNat ≤ 0x9FFF then .rdVram a
  else if a.toNat ≤ 0xBFFF then
    match m.variant with
    | .none => .rdEramNone a
    | .mbc1 => .rdEramMbc1 a
    | .mbc3 => .rdEramMbc3 a
  else if a.toNat ≤ 0xDFFF then .rdWram a
  else if a.toNat ≤ 0xEFFF then .rdEchoE000 a
  else if a.toNat ≤ 0xF7FF then .rdEchoF000 a
  else if a.toNat ≤ 0xFBFF then .rdEchoF800 a
  else if a.toNat ≤ 0xFDFF then .rdEchoFc00 a
  else if a.toNat ≤ 0xFE7F then .rdOamFe00 a
  else if a.toNat ≤ 0xFE9F then .rdOamFe80 a
  else if a.toNat ≤ 0xFEBF then .rdGapFea0 a
  else if a.toNat ≤ 0xFEFF then .rdGapFec0 a
  else if a.toNat ≤ 0xFF7F then .rdIo a
  else .rdHram a

/-- The WRITE rows of the ROM windows, by variant (R85 rows 2 to 10). -/
def decodeRomWrite (m : Mode) (a : Addr) (v : Int) : Instr :=
  match m.variant with
  | .none => .wrRomNone a v
  | .mbc1 =>
    if a.toNat ≤ 0x1FFF then .wrMbc1Ramen a v
    else if a.toNat ≤ 0x3FFF then .wrMbc1Romlo a v
    else if a.toNat ≤ 0x5FFF then .wrMbc1Hi a v
    else .wrMbc1Mode a v
  | .mbc3 =>
    if a.toNat ≤ 0x1FFF then .wrMbc3Ramen a v
    else if a.toNat ≤ 0x3FFF then .wrMbc3Romb a v
    else if a.toNat ≤ 0x5FFF then .wrMbc3Ramen2 a v
    else .wrMbc3Ramb a v

/-- The WRITE rows of the IO block (R85 rows 19 to 22). -/
def decodeIoWrite (a : Addr) (v : Int) : Instr :=
  if a = 0xFF07#16 then .wrIoTac v
  else if a = 0xFF46#16 then .wrIoDma v
  else if a = 0xFF50#16 then .wrIoBootoff v
  else .wrIo a v

/-- The WRITE rows, in the priority order of R85. -/
def decodeWrite (m : Mode) (a : Addr) (v : Int) : Instr :=
  if m.shadows a then .wrBoot a v
  else if a.toNat ≤ 0x7FFF then decodeRomWrite m a v
  else if a.toNat ≤ 0x9FFF then .wrVram a v
  else if a.toNat ≤ 0xBFFF then
    match m.variant with
    | .none => .wrEramNone a v
    | .mbc1 => .wrEramMbc1 a v
    | .mbc3 => .wrEramMbc3 a v
  else if a.toNat ≤ 0xDFFF then .wrWram a v
  else if a.toNat ≤ 0xEFFF then .wrEchoE000 a v
  else if a.toNat ≤ 0xF7FF then .wrEchoF000 a v
  else if a.toNat ≤ 0xFBFF then .wrEchoF800 a v
  else if a.toNat ≤ 0xFDFF then .wrEchoFc00 a v
  else if a.toNat ≤ 0xFE7F then .wrOamFe00 a v
  else if a.toNat ≤ 0xFE9F then .wrOamFe80 a v
  else if a.toNat ≤ 0xFEBF then .wrGapFea0 a v
  else if a.toNat ≤ 0xFEFF then .wrGapFec0 a v
  else if a.toNat ≤ 0xFF7F then decodeIoWrite a v
  else .wrHram a v

/-! ## Operand assembly -/

/-- COUNT, and the N of TIMER_CONFIGURE: a natural with no upper bound (R82). -/
def asNat (v : Int) : Except RefuseReason Nat :=
  if 0 ≤ v then .ok v.toNat else .error .badOperand

/-- FLAG and EN: 0 or 1 (R82). -/
def asFlag (v : Int) : Except RefuseReason Bool :=
  if v = 0 then .ok false else if v = 1 then .ok true else .error .badOperand

/-- MASK: a 5-bit unsigned value (R82). -/
def asMask (v : Int) : Except RefuseReason (BitVec 5) :=
  if 0 ≤ v ∧ v < 32 then .ok (BitVec.ofNat 5 v.toNat) else .error .badOperand

/-- K: a bit number 0..4 (R82). -/
def asIrq (v : Int) : Except RefuseReason Irq :=
  if v = 0 then .ok .vblank
  else if v = 1 then .ok .lcdStat
  else if v = 2 then .ok .timer
  else if v = 3 then .ok .serial
  else if v = 4 then .ok .joypad
  else .error .badOperand

/-- BYTES: a list of bytes (R82). -/
def asBytes : List Int → Except RefuseReason (List Byte)
  | [] => .ok []
  | v :: vs =>
    if 0 ≤ v ∧ v < 256 then
      match asBytes vs with
      | .ok bs => .ok (BitVec.ofNat 8 v.toNat :: bs)
      | .error r => .error r
    else .error .badOperand

/-- A command whose operand is one integer read by `f` and then handed to `k`; any other operand is outside its type. -/
def withInt {α : Type} (f : Int → Except RefuseReason α) (k : α → Instr) (x : Operand) : Except RefuseReason Instr :=
  match x with
  | .int v =>
    match f v with
    | .ok a => .ok (k a)
    | .error r => .error r
  | _ => .error .badOperand

/-- A command that takes no operand (R81). -/
def withNone (i : Instr) (x : Operand) : Except RefuseReason Instr :=
  match x with
  | .none => .ok i
  | _ => .error .badOperand

/-- TIMER_CONFIGURE's pair (EN, N): whether N is a legal divisor is checked by the command's own rule (R247).
The assumption log's entry 15. -/
def withConfig (x : Operand) : Except RefuseReason Instr :=
  match x with
  | .pair e n =>
    match asFlag e, asNat n with
    | .ok en, .ok n => .ok (.timerConfigure en n)
    | _, _ => .error .badOperand
  | _ => .error .badOperand

/-- RAM_IMPORT's list (R81); its length is checked by the command's own rule (R166). -/
def withBytes (x : Operand) : Except RefuseReason Instr :=
  match x with
  | .list xs =>
    match asBytes xs with
    | .ok bs => .ok (.ramImport bs)
    | .error r => .error r
  | _ => .error .badOperand

/-! ## The decoder -/

/-- The commands 0x2..0xD (R81); the codes outside that range do not come here. -/
def decodeCommand (cmd : BitVec 4) (x : Operand) : Except RefuseReason Instr :=
  if cmd = 0x2#4 then withInt asNat .sysStep x
  else if cmd = 0x3#4 then withInt asNat .busStep x
  else if cmd = 0x4#4 then withInt asNat .ppuStep x
  else if cmd = 0x5#4 then withInt asNat .timerTick x
  else if cmd = 0x6#4 then withInt asFlag .setBootOverlay x
  else if cmd = 0x7#4 then withNone .irqRead x
  else if cmd = 0x8#4 then withInt asMask .irqClear x
  else if cmd = 0x9#4 then withInt asIrq .irqRaise x
  else if cmd = 0xA#4 then withConfig x
  else if cmd = 0xB#4 then withNone .ramExport x
  else if cmd = 0xC#4 then withBytes x
  else if cmd = 0xD#4 then withNone .frameRead x
  else .error .reservedCmd

/-- The decoder (R81 to R86): total in the mode, the word and the operand. The refusals of a word come in the order in
which R304 item 1 lists them. The two commands that are always refused decode to their rows, whose meanings refuse them.
The assumption log's entries 13, 14 and 15. -/
def decode (m : Mode) (t : Txn) : Except RefuseReason Instr :=
  if t.cmd = 0xF#4 then .ok (.reserved t.addr t.operand)
  else if t.cmd = 0xE#4 then .ok (.setButtons t.addr t.operand)
  else if t.cmd = 0x0#4 then withNone (decodeRead m t.addr) t.operand
  else if t.cmd = 0x1#4 then withInt .ok (decodeWrite m t.addr) t.operand
  else if t.addr ≠ 0x0000#16 then .error .nonzeroAddrField
  else decodeCommand t.cmd t.operand

/-! ## The encoder -/

/-- The transaction of an instruction: its word `(CMD << 16) | ADDR` (R80, R87) and its operand (R81). -/
def encode : Instr → Txn
  | .rdBoot a => ⟨mkWord 0x0#4 a, .none⟩
  | .rdRom0 a => ⟨mkWord 0x0#4 a, .none⟩
  | .rdRomx a => ⟨mkWord 0x0#4 a, .none⟩
  | .rdVram a => ⟨mkWord 0x0#4 a, .none⟩
  | .rdEramNone a => ⟨mkWord 0x0#4 a, .none⟩
  | .rdEramMbc1 a => ⟨mkWord 0x0#4 a, .none⟩
  | .rdEramMbc3 a => ⟨mkWord 0x0#4 a, .none⟩
  | .rdWram a => ⟨mkWord 0x0#4 a, .none⟩
  | .rdEchoE000 a => ⟨mkWord 0x0#4 a, .none⟩
  | .rdEchoF000 a => ⟨mkWord 0x0#4 a, .none⟩
  | .rdEchoF800 a => ⟨mkWord 0x0#4 a, .none⟩
  | .rdEchoFc00 a => ⟨mkWord 0x0#4 a, .none⟩
  | .rdOamFe00 a => ⟨mkWord 0x0#4 a, .none⟩
  | .rdOamFe80 a => ⟨mkWord 0x0#4 a, .none⟩
  | .rdGapFea0 a => ⟨mkWord 0x0#4 a, .none⟩
  | .rdGapFec0 a => ⟨mkWord 0x0#4 a, .none⟩
  | .rdIo a => ⟨mkWord 0x0#4 a, .none⟩
  | .rdHram a => ⟨mkWord 0x0#4 a, .none⟩
  | .wrBoot a v => ⟨mkWord 0x1#4 a, .int v⟩
  | .wrRomNone a v => ⟨mkWord 0x1#4 a, .int v⟩
  | .wrMbc1Ramen a v => ⟨mkWord 0x1#4 a, .int v⟩
  | .wrMbc1Romlo a v => ⟨mkWord 0x1#4 a, .int v⟩
  | .wrMbc1Hi a v => ⟨mkWord 0x1#4 a, .int v⟩
  | .wrMbc1Mode a v => ⟨mkWord 0x1#4 a, .int v⟩
  | .wrMbc3Ramen a v => ⟨mkWord 0x1#4 a, .int v⟩
  | .wrMbc3Romb a v => ⟨mkWord 0x1#4 a, .int v⟩
  | .wrMbc3Ramen2 a v => ⟨mkWord 0x1#4 a, .int v⟩
  | .wrMbc3Ramb a v => ⟨mkWord 0x1#4 a, .int v⟩
  | .wrVram a v => ⟨mkWord 0x1#4 a, .int v⟩
  | .wrEramNone a v => ⟨mkWord 0x1#4 a, .int v⟩
  | .wrEramMbc1 a v => ⟨mkWord 0x1#4 a, .int v⟩
  | .wrEramMbc3 a v => ⟨mkWord 0x1#4 a, .int v⟩
  | .wrWram a v => ⟨mkWord 0x1#4 a, .int v⟩
  | .wrEchoE000 a v => ⟨mkWord 0x1#4 a, .int v⟩
  | .wrEchoF000 a v => ⟨mkWord 0x1#4 a, .int v⟩
  | .wrEchoF800 a v => ⟨mkWord 0x1#4 a, .int v⟩
  | .wrEchoFc00 a v => ⟨mkWord 0x1#4 a, .int v⟩
  | .wrOamFe00 a v => ⟨mkWord 0x1#4 a, .int v⟩
  | .wrOamFe80 a v => ⟨mkWord 0x1#4 a, .int v⟩
  | .wrGapFea0 a v => ⟨mkWord 0x1#4 a, .int v⟩
  | .wrGapFec0 a v => ⟨mkWord 0x1#4 a, .int v⟩
  | .wrIoTac v => ⟨mkWord 0x1#4 0xFF07#16, .int v⟩
  | .wrIoDma v => ⟨mkWord 0x1#4 0xFF46#16, .int v⟩
  | .wrIoBootoff v => ⟨mkWord 0x1#4 0xFF50#16, .int v⟩
  | .wrIo a v => ⟨mkWord 0x1#4 a, .int v⟩
  | .wrHram a v => ⟨mkWord 0x1#4 a, .int v⟩
  | .sysStep n => ⟨mkWord 0x2#4 0x0000#16, .int n⟩
  | .busStep n => ⟨mkWord 0x3#4 0x0000#16, .int n⟩
  | .ppuStep n => ⟨mkWord 0x4#4 0x0000#16, .int n⟩
  | .timerTick n => ⟨mkWord 0x5#4 0x0000#16, .int n⟩
  | .setBootOverlay f => ⟨mkWord 0x6#4 0x0000#16, .int (if f then 1 else 0)⟩
  | .irqRead => ⟨mkWord 0x7#4 0x0000#16, .none⟩
  | .irqClear m => ⟨mkWord 0x8#4 0x0000#16, .int m.toNat⟩
  | .irqRaise k => ⟨mkWord 0x9#4 0x0000#16, .int k.bit⟩
  | .timerConfigure en n => ⟨mkWord 0xA#4 0x0000#16, .pair (if en then 1 else 0) n⟩
  | .ramExport => ⟨mkWord 0xB#4 0x0000#16, .none⟩
  | .ramImport bytes => ⟨mkWord 0xC#4 0x0000#16, .list (bytes.map fun b => (b.toNat : Int))⟩
  | .frameRead => ⟨mkWord 0xD#4 0x0000#16, .none⟩
  | .setButtons a x => ⟨mkWord 0xE#4 a, x⟩
  | .reserved a x => ⟨mkWord 0xF#4 a, x⟩

/-! ## Words of spec/opcode_table.json -/

/-- The operand of a command whose bits are all zero (the table gives an operand no bits): nothing for a command that
takes none, 0 for an integer, (0, 0) for TIMER_CONFIGURE, the empty list for RAM_IMPORT. The assumption log's entry 23. -/
def zeroOperand (cmd : BitVec 4) : Operand :=
  if cmd = 0x0#4 ∨ cmd = 0x7#4 ∨ cmd = 0xB#4 ∨ cmd = 0xD#4 ∨ cmd = 0xE#4 ∨ cmd = 0xF#4 then .none
  else if cmd = 0xA#4 then .pair 0 0
  else if cmd = 0xC#4 then .list []
  else .int 0

/-- The transaction whose word is the number `w`, taken to `nbits` bits, and whose operand is zero. -/
def tableTxn (nbits w : Nat) : Txn :=
  let word : TxnWord := BitVec.ofNat 20 (w % 2 ^ nbits)
  ⟨word, zeroOperand (word.extractLsb' 16 4)⟩

/-- The mode right after the reset the model names: variant NONE, overlay enabled (R26, the assumption log's entry 5). -/
def resetMode : Mode := ⟨.none, true⟩

/-- The instruction the decoder reads from a word of the table. Several rows share their words and are told apart by the
state (R85), so the mode has to be one: it is the mode after reset. A number of more than 20 bits is no transaction word
(R80). The assumption log's entry 22. -/
def decodeTableWord (nbits w : Nat) : Option Instr :=
  if w % 2 ^ nbits < 2 ^ 20 then
    match decode resetMode (tableTxn nbits w) with
    | .ok i => some i
    | .error _ => none
  else none

end Sys2Proof
end

