-- ==== Sys2Proof/Machine/State.lean ====
section
/-! DEFINITION. The state record S of R23 to R37 as plain data, with the fields the model adds (the host's queue and
reply, the two counters of the free values, the parameters), and its reset values (R38). -/

namespace Sys2Proof.Machine

/-- The bytes of a region: offset and byte, offsets strictly rising, no byte equal to what an unlisted offset reads as.
The regions of R24 cover the whole address map of R53. -/
abbrev Memory := List Host.Cell

/-- What an unlisted offset reads as. INIT_MEM is the host's argument (R24, D37): a machine built with other contents
lists them (`construct`). The assumption log's entry 6. -/
abbrev Memory.blank : Byte := 0x00#8

/-- The canonical form: equal memories are equal lists. -/
abbrev Memory.wf (m : Memory) : Prop :=
  m.Pairwise (fun c d => c.1 < d.1) ∧ ∀ c ∈ m, c.2 ≠ Memory.blank

/-- A 2-bit color index (R30, R210). -/
abbrev Pixel := BitVec 2

/-- One line: SCREEN_WIDTH pixels (R30). -/
abbrev Line := Vector Pixel 160

/-- A pixel grid: 144 lines (R30). -/
abbrev Grid := Vector Line 144

/-- Every pixel 0 (R30). -/
def Grid.zero : Grid := Vector.replicate 144 (Vector.replicate 160 0#2)

/-- `grid[y][x]`; a position outside the grid reads as color 0. -/
def Grid.pixel (g : Grid) (y x : Nat) : Pixel :=
  match (g[y]?) with
  | some row => (row[x]?).getD 0#2
  | none => 0#2

/-- The memory regions of R24: the ROM and external RAM have one region for each bank. -/
inductive RegionId where
  | boot
  | rom (bank : Nat)
  | vram
  | eram (bank : Nat)
  | wram
  | oam
  | io
  | hram
deriving DecidableEq, Repr

/-- The regions whose supplied length is checked (R52, R166, R331). -/
inductive SizedRegion where
  | boot
  | rom
  | vram
  | wram
  | oam
  | io
  | hram
  | eram
deriving DecidableEq, Repr

/-- Which access met the gap (R300). -/
inductive Access where
  | read
  | write
deriving DecidableEq, Repr

/-- The fault kinds of R300 with the information each records. They are values of `State.fault` and of a reply: a
transaction that faults or is refused ends in a NEXT state (R301: "the machine does not stop on a fault"), so no step
answers `Host.Outcome.fault`. The assumption log's entry 4. -/
inductive Fault where
  /-- Code 1, raised by the gap rows (R110, R120). Safe: the spec's own fault. -/
  | invalidAddress (a : Addr) (access : Access)
  /-- Code 2, raised by `regionRead` and `regionWrite` (R51); no decoded transaction reaches it. Safe: the spec's own fault. -/
  | addressOutOfRange (region : RegionId) (off : Nat)
  /-- Code 3, raised by every WRITE row whose DATA is outside 0..255 (R101) and by `regionWrite` (R51). Safe: the spec's own fault. -/
  | valueOutOfRange (v : Int)
  /-- Code 4, raised by `construct` (R331) and by RAM_IMPORT (R166). Safe: the spec's own fault. Entry 18. -/
  | sizeMismatch (region : SizedRegion) (supplied : Nat) (required : Option Nat)
  /-- Code 5, raised by `construct` (R140). Safe: the spec's own fault. -/
  | unsupportedCart (t : Byte)
  /-- Code 6, raised by `construct` (R140). Safe: the spec's own fault. -/
  | invalidCart (t : Byte)
  /-- Code 7, raised by the decode (R83, R84), SET_BUTTONS (R278), the reserved command (R84) and TIMER_CONFIGURE (R247). Safe: the spec's own refusal. -/
  | refused (reason : RefuseReason) (word : TxnWord)
deriving DecidableEq, Repr

/-- The numeric code of a fault kind (R300). -/
def Fault.code : Fault → Nat
  | .invalidAddress _ _ => 1
  | .addressOutOfRange _ _ => 2
  | .valueOutOfRange _ => 3
  | .sizeMismatch _ _ _ => 4
  | .unsupportedCart _ => 5
  | .invalidCart _ => 6
  | .refused _ _ => 7

/-- Why a step has no meaning at all. -/
inductive Refusal where
  /-- An instruction with no meaning yet, raised by `exec` alone; no arm raises it now. Safe: nothing is claimed of it. -/
  | notModelled (mnemonic : String)
deriving DecidableEq, Repr

/-- `S.mbc1_mode`: 0 is high-ROM banking mode, 1 is RAM banking mode (R27, R152). -/
inductive BankingMode where
  | highRom
  | ram
deriving DecidableEq, Repr

/-- The four modes of the scanline processor (R29, R200). -/
inductive PpuMode where
  | oamRead
  | vramRead
  | hblank
  | vblank
deriving DecidableEq, Repr

/-- An in-flight DMA transfer (R28). -/
structure Transfer where
  page : Byte
  elapsed : Nat
deriving DecidableEq, Repr

/-- The event `RamWrite(bank, offset, value)` (R36, R164). -/
structure RamWrite where
  bank : Nat
  offset : Nat
  value : Byte
deriving DecidableEq, Repr

/-- What a transaction returns to the host (R9, R81): nothing, a byte, the pending set with the flag of highest
priority, the exported bytes, the published frame, or the fault or refusal it ended in. -/
inductive Reply where
  | done
  | byte (b : Byte)
  | irq (pending : BitVec 5) (highest : Option Irq)
  | ram (bytes : List Byte)
  | frame (grid : Grid) (seq : Nat)
  | fault (f : Fault)
deriving DecidableEq, Repr

/-- The machine: the record S of R23, and after it the fields of the model's own. -/
structure State where
  /-- The parameters of this machine (R6, R331): the model's own field, read and never written. Entries 7, 8 and 9. -/
  params : Params
  /-- `S.variant` (R25). -/
  variant : Variant
  /-- `S.boot`, 0x0100 bytes, read-only (R24). -/
  boot : Memory
  /-- `S.rom[b]`, the cartridge image: byte p of the image at key p, which is byte p mod 0x4000 of bank p / 0x4000 (R24, R142). -/
  rom : Memory
  /-- The length of the supplied image, `len(img)`: a position at or beyond it has no content (R142). -/
  romLen : Nat
  /-- `S.vram`, 0x2000 bytes (R24). -/
  vram : Memory
  /-- `S.eram[k]`: byte off of bank k at key k * 0x2000 + off (R24). -/
  eram : Memory
  /-- `S.wram`, 0x2000 bytes (R24). -/
  wram : Memory
  /-- `S.oam`, 0xA0 bytes (R24). -/
  oam : Memory
  /-- `S.io`, 0x80 bytes, the memory-mapped registers DIV, TIMA, TMA, TAC, LCDC, SCY, SCX, LY, DMA and BOOT_OFF among them (R24, R33). -/
  io : Memory
  /-- `S.hram`, 0x80 bytes (R24). -/
  hram : Memory
  /-- `S.boot_enabled` (R26). -/
  bootEnabled : Bool
  /-- `S.rom_bank`, 7 bits (R27). -/
  romBank : BitVec 7
  /-- `S.ram_bank`, 2 bits (R27). -/
  ramBank : BitVec 2
  /-- `S.mbc1_mode` (R27). -/
  mbc1Mode : BankingMode
  /-- `S.ram_enabled` (R27). -/
  ramEnabled : Bool
  /-- `S.dma`, the in-flight transfers in trigger order (R28). -/
  dma : List Transfer
  /-- `S.ppu_mode` (R29). -/
  ppuMode : PpuMode
  /-- `S.ppu_elapsed` (R29). -/
  ppuElapsed : Nat
  /-- `S.ppu_line`, 0..144 (R29). -/
  ppuLine : Nat
  /-- `S.scratch` (R30). -/
  scratch : Grid
  /-- `S.front` (R30). -/
  front : Grid
  /-- `S.front_seq` (R30). -/
  frontSeq : Nat
  /-- `S.tcount`, 10 bits (R31). -/
  tcount : BitVec 10
  /-- `S.t_enabled` (R31). -/
  tEnabled : Bool
  /-- `S.t_divisor` (R31). -/
  tDivisor : Nat
  /-- `S.irq`, one bit for each flag (R32). -/
  irq : BitVec 5
  /-- `S.events`, in the order emitted (R36). -/
  events : List RamWrite
  /-- `S.fault`, the first fault or refusal (R37). -/
  fault : Option Fault
  /-- The transactions the host has issued and the core has not yet taken, first to last: the model's own field (R5, R23). Entry 1. -/
  inbox : List Txn
  /-- What the last transaction returned to the host: the model's own field (R9, R301). Entry 3. -/
  reply : Option Reply
  /-- How many fresh draws of ROM_FILL have been made: the model's own field. Entry 12. -/
  draws : Nat
  /-- How many SYS_STEPs have chosen their DEVICE_ORDER: the model's own field. Entry 11. -/
  sysSteps : Nat
deriving DecidableEq, Repr

/-- The machine right after construction: the values of R38, with the host's arguments at the values the assumption log
names (an all-zero boot image, an all-zero 0x8000-byte cartridge image, which makes the variant NONE, and INIT_MEM all
zero: entries 5 and 6; the default parameters: entries 7, 8 and 9). -/
def State.reset : State where
  params := Config.defaultParams
  variant := .none
  boot := []
  rom := []
  romLen := 0x8000
  vram := []
  eram := []
  wram := []
  oam := []
  io := []
  hram := []
  bootEnabled := true
  romBank := 0x01#7
  ramBank := 0#2
  mbc1Mode := .highRom
  ramEnabled := false
  dma := []
  ppuMode := .oamRead
  ppuElapsed := 0
  ppuLine := 0
  scratch := Grid.zero
  front := Grid.zero
  frontSeq := 0
  tcount := 0#10
  tEnabled := false
  tDivisor := 1024
  irq := 0#5
  events := []
  fault := none
  inbox := []
  reply := none
  draws := 0
  sysSteps := 0

/-- The pieces of state that change the decode (R85). -/
def State.mode (s : State) : Mode := ⟨s.variant, s.bootEnabled⟩

/-! ## Field updates -/

/-- VRAM becomes `m`. -/
def State.withVram (s : State) (m : Memory) : State :=
  { s with vram := m }

/-- External RAM becomes `m`. -/
def State.withEram (s : State) (m : Memory) : State :=
  { s with eram := m }

/-- Working memory becomes `m`. -/
def State.withWram (s : State) (m : Memory) : State :=
  { s with wram := m }

/-- OAM becomes `m`. -/
def State.withOam (s : State) (m : Memory) : State :=
  { s with oam := m }

/-- The IO block becomes `m`. -/
def State.withIo (s : State) (m : Memory) : State :=
  { s with io := m }

/-- High-page memory becomes `m`. -/
def State.withHram (s : State) (m : Memory) : State :=
  { s with hram := m }

/-- The overlay flag becomes `b`. -/
def State.withBootEnabled (s : State) (b : Bool) : State :=
  { s with bootEnabled := b }

/-- The ROM bank register becomes `b`. -/
def State.withRomBank (s : State) (b : BitVec 7) : State :=
  { s with romBank := b }

/-- The RAM bank register becomes `b`. -/
def State.withRamBank (s : State) (b : BitVec 2) : State :=
  { s with ramBank := b }

/-- The banking mode becomes `m`. -/
def State.withMbc1Mode (s : State) (m : BankingMode) : State :=
  { s with mbc1Mode := m }

/-- The RAM enable becomes `b`. -/
def State.withRamEnabled (s : State) (b : Bool) : State :=
  { s with ramEnabled := b }

/-- The in-flight transfers become `d`. -/
def State.withDma (s : State) (d : List Transfer) : State :=
  { s with dma := d }

/-- The scanline processor is in mode `m`, `e` cycles in, on line `l`. -/
def State.withPpu (s : State) (m : PpuMode) (e l : Nat) : State :=
  { s with ppuMode := m, ppuElapsed := e, ppuLine := l }

/-- The scratch grid becomes `g`. -/
def State.withScratch (s : State) (g : Grid) : State :=
  { s with scratch := g }

/-- The front grid becomes `g`, publication `n`. -/
def State.withFront (s : State) (g : Grid) (n : Nat) : State :=
  { s with front := g, frontSeq := n }

/-- The tick counter becomes `c`. -/
def State.withTcount (s : State) (c : BitVec 10) : State :=
  { s with tcount := c }

/-- The timer has the enable `en` and the divisor `n`. -/
def State.withTimer (s : State) (en : Bool) (n : Nat) : State :=
  { s with tEnabled := en, tDivisor := n }

/-- The pending set becomes `i`. -/
def State.withIrq (s : State) (i : BitVec 5) : State :=
  { s with irq := i }

/-- The event list becomes `es`. -/
def State.withEvents (s : State) (es : List RamWrite) : State :=
  { s with events := es }

/-- The fault record becomes `f`. -/
def State.withFault (s : State) (f : Option Fault) : State :=
  { s with fault := f }

/-- The host's pending transactions become `ts`. -/
def State.withInbox (s : State) (ts : List Txn) : State :=
  { s with inbox := ts }

/-- The host gets the reply `r`. -/
def State.withReply (s : State) (r : Reply) : State :=
  { s with reply := some r }

/-- `n` draws have been made. -/
def State.withDraws (s : State) (n : Nat) : State :=
  { s with draws := n }

/-- `n` device orders have been chosen. -/
def State.withSysSteps (s : State) (n : Nat) : State :=
  { s with sysSteps := n }

end Sys2Proof.Machine
end

