-- ==== Sys2Proof/Machine/Ops.lean ====
section
/-! DEFINITION. The shared operations: sparse memory, the memory regions (R50 to R52), taking a fault (R301), the
windows of the bus (R53), the effective banks (R144, R145) and the bus read that the host and the DMA engine share
(R100). -/

namespace Sys2Proof.Machine

/-! ## Sparse memory -/

/-- The byte at an offset. -/
def Memory.read : Memory → Nat → Byte
  | [], _ => Memory.blank
  | c :: cs, k => if c.1 = k then c.2 else Memory.read cs k

/-- Every entry of an offset taken out. -/
def Memory.erase (m : Memory) (k : Nat) : Memory := m.filter (fun c => c.1 != k)

/-- An entry put at its place in a rising list. -/
def Memory.insert : Memory → Nat → Byte → Memory
  | [], k, v => [(k, v)]
  | c :: cs, k, v =>
    if k < c.1 then (k, v) :: c :: cs
    else if k = c.1 then (k, v) :: cs
    else c :: Memory.insert cs k v

/-- Store a byte. Storing what an unlisted offset reads as takes the entry out, so the canonical form is kept. -/
def Memory.write (m : Memory) (k : Nat) (v : Byte) : Memory :=
  if v = Memory.blank then m.erase k else m.insert k v

/-- The bytes of a list from offset `k` on. -/
def Memory.ofBytesFrom : Nat → List Byte → Memory
  | _, [] => []
  | k, b :: bs =>
    if b = Memory.blank then Memory.ofBytesFrom (k + 1) bs
    else (k, b) :: Memory.ofBytesFrom (k + 1) bs

/-- The memory whose bytes are a supplied region's (R24). -/
def Memory.ofBytes (bs : List Byte) : Memory := Memory.ofBytesFrom 0 bs

/-- The first `n` bytes of a memory, in order. -/
def Memory.bytes (m : Memory) (n : Nat) : List Byte := (List.range n).map m.read

/-! ## Regions -/

/-- `len(R)` (R24, R50). A bank the variant does not have has no byte. -/
def RegionId.len (v : Variant) : RegionId → Nat
  | .boot => Config.bootLen
  | .rom b => if b < Config.romBanks v then Config.romBankSize else 0
  | .vram => Config.vramLen
  | .eram k => if k < Config.ramBanks v then Config.ramBankSize else 0
  | .wram => Config.wramLen
  | .oam => Config.oamLen
  | .io => Config.ioLen
  | .hram => Config.hramLen

/-- The kind of a region: the boot overlay and the ROM banks are read-only, every other region is read/write (R50). -/
def RegionId.readOnly : RegionId → Bool
  | .boot => true
  | .rom _ => true
  | .vram => false
  | .eram _ => false
  | .wram => false
  | .oam => false
  | .io => false
  | .hram => false

/-- The stored byte `R[off]`: the model's read of one byte of storage. -/
def State.byteAt (s : State) (r : RegionId) (off : Nat) : Byte :=
  match r with
  | .boot => s.boot.read off
  | .rom b => s.rom.read (b * Config.romBankSize + off)
  | .vram => s.vram.read off
  | .eram k => s.eram.read (k * Config.ramBankSize + off)
  | .wram => s.wram.read off
  | .oam => s.oam.read off
  | .io => s.io.read off
  | .hram => s.hram.read off

/-- `R[off] <- v` for a read/write region; a read-only region does nothing (R51). -/
def State.store (s : State) (r : RegionId) (off : Nat) (v : Byte) : State :=
  match r with
  | .boot => s
  | .rom _ => s
  | .vram => s.withVram (s.vram.write off v)
  | .eram k => s.withEram (s.eram.write (k * Config.ramBankSize + off) v)
  | .wram => s.withWram (s.wram.write off v)
  | .oam => s.withOam (s.oam.write off v)
  | .io => s.withIo (s.io.write off v)
  | .hram => s.withHram (s.hram.write off v)

/-- `draw()`: a fresh unconstrained byte (R8). -/
def State.draw (s : State) : Byte × State :=
  (Config.romFill s.draws, s.withDraws (s.draws + 1))

/-- A byte of a region, the ROM's by `RomRead`: a position at or beyond the image is a fresh draw (R142). -/
def State.load (s : State) (r : RegionId) (off : Nat) : Byte × State :=
  match r with
  | .rom b => if b * Config.romBankSize + off < s.romLen then (s.byteAt (.rom b) off, s) else s.draw
  | .boot => (s.byteAt .boot off, s)
  | .vram => (s.byteAt .vram off, s)
  | .eram k => (s.byteAt (.eram k) off, s)
  | .wram => (s.byteAt .wram off, s)
  | .oam => (s.byteAt .oam off, s)
  | .io => (s.byteAt .io off, s)
  | .hram => (s.byteAt .hram off, s)

/-- A read's result: the byte and the state after it (a draw counts up), or the fault. -/
abbrev ReadResult := Except Fault (Byte × State)

/-- `RegionRead(R, off)` (R51); for a ROM bank it is `RomRead(b, off)` (R142). -/
def regionRead (r : RegionId) (off : Nat) (s : State) : ReadResult :=
  if off < r.len s.variant then .ok (s.load r off) else .error (.addressOutOfRange r off)

/-- `RegionWrite(R, off, v)` (R51): the offset is checked before the value. -/
def regionWrite (r : RegionId) (off : Nat) (v : Int) (s : State) : Except Fault State :=
  if off < r.len s.variant then
    if 0 ≤ v ∧ v ≤ 255 then .ok (s.store r off (BitVec.ofInt 8 v)) else .error (.valueOutOfRange v)
  else .error (.addressOutOfRange r off)

/-! ## Taking a fault, and ending a transaction -/

/-- Taking a fault or a refusal (R301): no state changes except `S.fault`, which keeps the first one, and the host gets
the fault as the transaction's outcome. There is no return from it: the core has no trap entry and no trap return
(R307, R308), and the next transaction runs normally. The assumption log's entry 4. -/
def takeFault (f : Fault) (s : State) : State :=
  (s.withFault (s.fault.orElse fun _ => some f)).withReply (.fault f)

/-- `refuse(reason)`: a refusal is recorded as a fault of kind REFUSED with the reason and the word (R84, R300, R301). -/
def refuse (reason : RefuseReason) (word : TxnWord) (s : State) : State :=
  takeFault (.refused reason word) s

/-- The outcome type of a step of this machine. -/
abbrev Result := Host.Outcome State Fault Refusal

/-- A READ ends: the byte goes to the host, or the fault is taken in the state before the transaction (R9, R301). -/
def finishRead (r : ReadResult) (s : State) : Result :=
  match r with
  | .ok (b, s') => .next (s'.withReply (.byte b))
  | .error f => .next (takeFault f s)

/-- A transaction without a result ends: it is done, or the fault is taken in the state before the transaction
(R9, R301: no partial effect is left behind). -/
def finishWrite (r : Except Fault State) (s : State) : Result :=
  match r with
  | .ok s' => .next (s'.withReply .done)
  | .error f => .next (takeFault f s)

/-! ## The windows of the bus -/

/-- The windows of the address map (R53). -/
inductive Window where
  | rom0
  | romx
  | vram
  | eram
  | wram
  | echo
  | oam
  | gap
  | io
  | hram
deriving DecidableEq, Repr

/-- The first address of a window (R53). -/
def Window.start : Window → Nat
  | .rom0 => 0x0000
  | .romx => 0x4000
  | .vram => 0x8000
  | .eram => 0xA000
  | .wram => 0xC000
  | .echo => 0xE000
  | .oam => 0xFE00
  | .gap => 0xFEA0
  | .io => 0xFF00
  | .hram => 0xFF80

/-- The length of a window (R53). -/
def Window.length : Window → Nat
  | .rom0 => 0x4000
  | .romx => 0x4000
  | .vram => 0x2000
  | .eram => 0x2000
  | .wram => 0x2000
  | .echo => 0x1E00
  | .oam => 0x00A0
  | .gap => 0x0060
  | .io => 0x0080
  | .hram => 0x0080

/-- `window(a)`: the one window whose range holds the address (R53, R54). -/
def window (a : Addr) : Window :=
  if a.toNat ≤ 0x3FFF then .rom0
  else if a.toNat ≤ 0x7FFF then .romx
  else if a.toNat ≤ 0x9FFF then .vram
  else if a.toNat ≤ 0xBFFF then .eram
  else if a.toNat ≤ 0xDFFF then .wram
  else if a.toNat ≤ 0xFDFF then .echo
  else if a.toNat ≤ 0xFE9F then .oam
  else if a.toNat ≤ 0xFEFF then .gap
  else if a.toNat ≤ 0xFF7F then .io
  else .hram

/-- The offset of an address within a window, `a - start` (R53). -/
def Window.offset (w : Window) (a : Addr) : Nat := a.toNat - w.start

/-! ## Bank selection -/

/-- `effective_rom_bank(S)` (R144). -/
def effectiveRomBank (s : State) : Nat :=
  match s.variant with
  | .none => 1
  | .mbc1 =>
    match s.mbc1Mode with
    | .highRom => s.romBank.toNat
    | .ram => (s.romBank &&& 0x1F#7).toNat
  | .mbc3 => s.romBank.toNat

/-- `ram_gate(S)` (R145). -/
def ramGate (s : State) : Bool :=
  match s.variant with
  | .none => true
  | .mbc1 => s.ramEnabled
  | .mbc3 => s.ramEnabled

/-- The RAM bank an MBC1 access reaches: the register in RAM banking mode, else bank 0 (R145). -/
def mbc1RamBank (s : State) : Nat :=
  match s.mbc1Mode with
  | .highRom => 0
  | .ram => s.ramBank.toNat

/-- `effective_ram_bank(S)` (R145). -/
def effectiveRamBank (s : State) : Nat :=
  match s.variant with
  | .none => 0
  | .mbc1 => mbc1RamBank s
  | .mbc3 => s.ramBank.toNat

/-- `Emit(e)`: append an event (R8, R36). -/
def emit (e : RamWrite) (s : State) : State := s.withEvents (s.events ++ [e])

/-! ## The bus reads, one for each window -/

/-- Read the boot overlay (R102). -/
def readBoot (a : Addr) (s : State) : ReadResult := regionRead .boot (Window.rom0.offset a) s

/-- Read cartridge bank 0 (R103, R143). -/
def readRom0 (a : Addr) (s : State) : ReadResult := regionRead (.rom 0) (Window.rom0.offset a) s

/-- Read the switchable ROM bank (R104, R144). -/
def readRomx (a : Addr) (s : State) : ReadResult :=
  regionRead (.rom (effectiveRomBank s)) (Window.romx.offset a) s

/-- Read video memory (R105). -/
def readVram (a : Addr) (s : State) : ReadResult := regionRead .vram (Window.vram.offset a) s

/-- Read external RAM bank `k` behind the gate: 0xFF while it is disabled (R153, R160, R303). -/
def readEramGated (gate : Bool) (k : Nat) (a : Addr) (s : State) : ReadResult :=
  if gate then regionRead (.eram k) (Window.eram.offset a) s else .ok (Config.ramDisabledValue, s)

/-- Read external RAM under NONE: one bank, no gate (R147, D21). -/
def readEramNone (a : Addr) (s : State) : ReadResult := readEramGated true 0 a s

/-- Read external RAM under MBC1 (R153). -/
def readEramMbc1 (a : Addr) (s : State) : ReadResult := readEramGated s.ramEnabled (mbc1RamBank s) a s

/-- Read external RAM under MBC3 (R160). -/
def readEramMbc3 (a : Addr) (s : State) : ReadResult := readEramGated s.ramEnabled s.ramBank.toNat a s

/-- Read working memory (R107). -/
def readWram (a : Addr) (s : State) : ReadResult := regionRead .wram (Window.wram.offset a) s

/-- Read the mirror, re-based onto working memory (R55, R108). -/
def readEcho (a : Addr) (s : State) : ReadResult := regionRead .wram (Window.echo.offset a) s

/-- Read OAM (R109). -/
def readOam (a : Addr) (s : State) : ReadResult := regionRead .oam (Window.oam.offset a) s

/-- Read the gap: INVALID_ADDRESS, every time (R110). -/
def readGap (a : Addr) : ReadResult := .error (.invalidAddress a .read)

/-- Read the memory-mapped registers: no side effect (R111). -/
def readIo (a : Addr) (s : State) : ReadResult := regionRead .io (Window.io.offset a) s

/-- Read high-page memory (R112). -/
def readHram (a : Addr) (s : State) : ReadResult := regionRead .hram (Window.hram.offset a) s

/-- External RAM is routed to the variant's controller (R106). -/
def readEram (a : Addr) (s : State) : ReadResult :=
  match s.variant with
  | .none => readEramNone a s
  | .mbc1 => readEramMbc1 a s
  | .mbc3 => readEramMbc3 a s

/-- `MemRead(a, 1)`: the bus read through the router (R100). The DMA engine reads its source with it (R183). -/
def memRead (a : Addr) (s : State) : ReadResult :=
  match window a with
  | .rom0 => if s.mode.shadows a then readBoot a s else readRom0 a s
  | .romx => readRomx a s
  | .vram => readVram a s
  | .eram => readEram a s
  | .wram => readWram a s
  | .echo => readEcho a s
  | .oam => readOam a s
  | .gap => readGap a
  | .io => readIo a s
  | .hram => readHram a s

end Sys2Proof.Machine
end

