-- ==== Sys2Proof/Machine/Operands.lean ====
section
/-! DEFINITION. The operand checks and bit fields that the meanings share: DATA (R101), the RAM-enable value (R149), the
TAC fields (R34), legal divisors (R247) and pixel colors (R210). The operand types of R82 are checked by the decode
(Decode.lean). -/

namespace Sys2Proof.Machine

/-- `if v < 0 or v > 255: raise Fault(VALUE_OUT_OF_RANGE, v)`, before anything else of a WRITE (R101, D38). -/
def checkData (v : Int) : Except Fault Byte :=
  if 0 ≤ v ∧ v ≤ 255 then .ok (BitVec.ofInt 8 v) else .error (.valueOutOfRange v)

/-- A WRITE row whose rule is `rule`: the value check comes first (R101). -/
def withData (v : Int) (rule : Byte → Except Fault State) : Except Fault State :=
  match checkData v with
  | .ok b => rule b
  | .error f => .error f

/-- The store of a checked byte into a region. -/
def storeByte (r : RegionId) (off : Nat) (b : Byte) (s : State) : Except Fault State :=
  regionWrite r off b.toNat s

/-- `(v & 0x0F) == 0x0A`: the value enables external RAM (R149, R156, R158; conflict C1). -/
def enablesRam (b : Byte) : Bool := (b &&& 0x0F#8) == 0x0A#8

/-- TAC bit 2: the enable (R34, R246). -/
def tacEnable (b : Byte) : Bool := b.getLsbD 2

/-- TAC bits 1:0: the divisor select (R34, R246, D24). -/
def tacDivisor (b : Byte) : Nat :=
  match b.getLsbD 1, b.getLsbD 0 with
  | false, false => 1024
  | false, true => 16
  | true, false => 64
  | true, true => 256

/-- The divisors {1, 2, 4, ..., 1024} (R31, R247). -/
def legalDivisors : List Nat := [1, 2, 4, 8, 16, 32, 64, 128, 256, 512, 1024]

/-- `N in {1, 2, 4, ..., 1024}` (R247). -/
def legalDivisor (n : Nat) : Bool := legalDivisors.contains n

/-- `PixelColor(lo, hi, c) = (hi[7 - c] << 1) | lo[7 - c]` (R210). -/
def pixelColor (lo hi : Byte) (c : Nat) : Pixel :=
  BitVec.ofBool (hi.getLsbD (7 - c)) ++ BitVec.ofBool (lo.getLsbD (7 - c))

end Sys2Proof.Machine
end

