-- ==== Sys2Proof/Machine/Banks.lean ====
section
/-! DEFINITION. The rows of the bank controllers (R146 to R164) and the RAM export and import commands (R165, R166).
ROM-window writes never fault on an in-range value: every value is masked (R163, R302). -/

namespace Sys2Proof.Machine

/-! ## Shared register writes -/

/-- A ROM-window write: DATA is checked, then a bank register changes (R101, R163). -/
def writeBankReg (v : Int) (s : State) (effect : Byte → State → State) : Except Fault State :=
  withData v fun b => .ok (effect b s)

/-- The RAM enable register: a low nibble of 0xA enables, any other disables (R149, R156). -/
def setRamEnable (b : Byte) (s : State) : State := s.withRamEnabled (enablesRam b)

/-- `r + 1` when the low 5 bits are zero: "bumped to the next value" (R150, R155). -/
def bumpBank (r : BitVec 7) : BitVec 7 := if r &&& 0x1F#7 = 0#7 then r + 1#7 else r

/-- The MBC1 ROM bank register after a write of its low 5 bits (R150). -/
def mbc1LowBank (old : BitVec 7) (b : Byte) : BitVec 7 := bumpBank ((old &&& 0x60#7) ||| (b.setWidth 7 &&& 0x1F#7))

/-- The MBC1 ROM bank register after a write of its upper 2 bits (R151). -/
def mbc1HighBank (old : BitVec 7) (b : Byte) : BitVec 7 := (old &&& 0x1F#7) ||| ((b.setWidth 7 &&& 0x03#7) <<< 5)

/-- The MBC3 ROM bank register: the high bit of the request is ignored and 0 becomes 1 (R157). -/
def mbc3Bank (b : Byte) : BitVec 7 := if b.setWidth 7 = 0#7 then 1#7 else b.setWidth 7

/-- `v & 0x03`, the RAM bank of a write (R151, R159). -/
def ramBankOf (b : Byte) : BitVec 2 := b.setWidth 2

/-- `v & 0x01`: 0 is high-ROM banking mode, 1 is RAM banking mode (R152, D14). -/
def bankingModeOf (b : Byte) : BankingMode := if b.getLsbD 0 then .ram else .highRom

/-- The upper ROM bits in high-ROM banking mode, the RAM bank in RAM banking mode (R151). -/
def setMbc1Hi (b : Byte) (s : State) : State :=
  match s.mbc1Mode with
  | .highRom => s.withRomBank (mbc1HighBank s.romBank b)
  | .ram => s.withRamBank (ramBankOf b)

/-- The second MBC3 RAM enable register under the parameter MBC3_RAMEN2 (R158, D18). -/
def setRamEnable2 (b : Byte) (s : State) : State :=
  match s.params.ramEn2 with
  | .set => setRamEnable b s
  | .flip => s.withRamEnabled (!s.ramEnabled)

/-- A committed external RAM write: the store, then one event (R148, R154, R161, R164). -/
def commitEram (k off : Nat) (b : Byte) (s : State) : Except Fault State :=
  match storeByte (.eram k) off b s with
  | .ok s' => .ok (emit ⟨k, off, b⟩ s')
  | .error f => .error f

/-- An external RAM write of bank `k` behind the gate: dropped, with no event, while it is disabled (R154, R161, R164). -/
def writeEramGated (gate : Bool) (k : Nat) (a : Addr) (v : Int) (s : State) : Except Fault State :=
  withData v fun b => if gate then commitEram k (Window.eram.offset a) b s else .ok s

/-! ## NONE -/

/-- `WR.ROM.NONE` (R146): ignored, whatever the address and the value. -/
def execWrRomNone (_a : Addr) (v : Int) (s : State) : Result := finishWrite (writeBankReg v s fun _ s' => s') s

/-- `WR.ERAM.NONE` (R148): one bank, no gate. -/
def execWrEramNone (a : Addr) (v : Int) (s : State) : Result := finishWrite (writeEramGated true 0 a v s) s

/-! ## MBC1 -/

/-- `WR.MBC1.RAMEN` (R149). -/
def execWrMbc1Ramen (_a : Addr) (v : Int) (s : State) : Result := finishWrite (writeBankReg v s setRamEnable) s

/-- `WR.MBC1.ROMLO` (R150). -/
def execWrMbc1Romlo (_a : Addr) (v : Int) (s : State) : Result :=
  finishWrite (writeBankReg v s fun b s' => s'.withRomBank (mbc1LowBank s'.romBank b)) s

/-- `WR.MBC1.HI` (R151). -/
def execWrMbc1Hi (_a : Addr) (v : Int) (s : State) : Result := finishWrite (writeBankReg v s setMbc1Hi) s

/-- `WR.MBC1.MODE` (R152). -/
def execWrMbc1Mode (_a : Addr) (v : Int) (s : State) : Result :=
  finishWrite (writeBankReg v s fun b s' => s'.withMbc1Mode (bankingModeOf b)) s

/-- `WR.ERAM.MBC1` (R154). -/
def execWrEramMbc1 (a : Addr) (v : Int) (s : State) : Result :=
  finishWrite (writeEramGated s.ramEnabled (mbc1RamBank s) a v s) s

/-! ## MBC3 -/

/-- `WR.MBC3.RAMEN` (R156). -/
def execWrMbc3Ramen (_a : Addr) (v : Int) (s : State) : Result := finishWrite (writeBankReg v s setRamEnable) s

/-- `WR.MBC3.ROMB` (R157). -/
def execWrMbc3Romb (_a : Addr) (v : Int) (s : State) : Result :=
  finishWrite (writeBankReg v s fun b s' => s'.withRomBank (mbc3Bank b)) s

/-- `WR.MBC3.RAMEN2` (R158). -/
def execWrMbc3Ramen2 (_a : Addr) (v : Int) (s : State) : Result := finishWrite (writeBankReg v s setRamEnable2) s

/-- `WR.MBC3.RAMB` (R159). -/
def execWrMbc3Ramb (_a : Addr) (v : Int) (s : State) : Result :=
  finishWrite (writeBankReg v s fun b s' => s'.withRamBank (ramBankOf b)) s

/-- `WR.ERAM.MBC3` (R161). -/
def execWrEramMbc3 (a : Addr) (v : Int) (s : State) : Result :=
  finishWrite (writeEramGated s.ramEnabled s.ramBank.toNat a v s) s

/-! ## Export and import -/

/-- `RAM_BANKS * 0x2000` (R165, R166). -/
def eramSize (v : Variant) : Nat := Config.ramBanks v * Config.ramBankSize

/-- The exported bytes: the banks one after the other, whatever the gate (R165). -/
def exportedRam (s : State) : List Byte := s.eram.bytes (eramSize s.variant)

/-- `RAM_EXPORT` (R165). -/
def execRamExport (s : State) : Result := .next (s.withReply (.ram (exportedRam s)))

/-- `RAM_IMPORT` (R166): the length is checked before anything is copied; no event is emitted. -/
def execRamImport (bytes : List Byte) (s : State) : Result :=
  if bytes.length = eramSize s.variant then .next ((s.withEram (Memory.ofBytes bytes)).withReply .done)
  else .next (takeFault (.sizeMismatch .eram bytes.length (some (eramSize s.variant))) s)

end Sys2Proof.Machine
end

