-- ==== Sys2Proof/Machine/Dma.lean ====
section
/-! DEFINITION. The DMA transfer engine: the trigger (R180), landing a byte (R183) and BUS_STEP (R182). -/

namespace Sys2Proof.Machine

/-- `DmaTrigger(P)`: append `{page = P, elapsed = 0}` (R180). -/
def dmaTrigger (page : Byte) (s : State) : State := s.withDma (s.dma ++ [⟨page, 0⟩])

/-- The source address `P * 0x100 + i` of byte i (R181). -/
def dmaSource (page : Byte) (i : Nat) : Addr := BitVec.ofNat 16 (page.toNat * 0x100 + i)

/-- Byte i of a transfer lands: its source is read through the router, and the byte goes straight into OAM (R183). A
source read never faults (R188); the arm for a fault leaves the state alone. -/
def landByte (page : Byte) (i : Nat) (s : State) : State :=
  match memRead (dmaSource page i) s with
  | .ok (b, s') => s'.withOam (s'.oam.write i b)
  | .error _ => s

/-- The bytes that land when a transfer's count reaches `elapsed`, in increasing order (R182, R184). -/
def landingBytes (p : Params) (elapsed : Nat) : List Nat :=
  (List.range Config.dmaLen).filter fun i => p.landAt i == elapsed

/-- One transfer's landings in a cycle that brings its count to `elapsed` (R182). -/
def landAll (page : Byte) (elapsed : Nat) (s : State) : State :=
  (landingBytes s.params elapsed).foldl (fun s i => landByte page i s) s

/-- One cycle of one transfer, its count coming from the list before the cycle (R182). -/
def dmaEntryCycle (s : State) (e : Transfer) : State := landAll e.page (e.elapsed + 1) s

/-- The transfers after one cycle: each one older by a cycle, those that reach DMA_CYCLES removed (R182, R185). -/
def dmaAge (d : List Transfer) : List Transfer :=
  (d.map fun e => { e with elapsed := e.elapsed + 1 }).filter fun e => e.elapsed != Config.dmaCycles

/-- One cycle of the engine: every transfer in trigger order, then the completed ones are removed (R182, R186). -/
def busCycle (s : State) : State := (s.dma.foldl dmaEntryCycle s).withDma (dmaAge s.dma)

/-- `BUS_STEP(n)`: one `busCycle` for each cycle (R182). -/
def busStep : Nat → State → State
  | 0, s => s
  | n + 1, s => busStep n (busCycle s)

/-- `BUS_STEP` (R182). -/
def execBusStep (n : Nat) (s : State) : Result := .next ((busStep n s).withReply .done)

end Sys2Proof.Machine
end

