-- ==== Sys2Proof/Machine/Flags.lean ====
section
/-! DEFINITION. The interrupt-pending flags, the only flag set of the core (R22, R32): raising (R270), clearing (R273)
and the priority choice (R275). -/

namespace Sys2Proof.Machine

/-- `1 << k` (R270). -/
def irqMask (k : Irq) : BitVec 5 := 1#5 <<< k.bit

/-- `RaiseIrq(k)`: `S.irq <- S.irq | (1 << k)` (R270). -/
def raiseIrq (k : Irq) (s : State) : State := s.withIrq (s.irq ||| irqMask k)

/-- `S.irq <- S.irq & ~M` (R273). -/
def clearIrq (m : BitVec 5) (s : State) : State := s.withIrq (s.irq &&& ~~~m)

/-- Flag k is pending. -/
def pendingIn (p : BitVec 5) (k : Irq) : Bool := p.getLsbD k.bit

/-- The smallest k with `pending[k] == 1`, or NONE (R272, R275). -/
def highestPending (p : BitVec 5) : Option Irq :=
  if pendingIn p .vblank then some .vblank
  else if pendingIn p .lcdStat then some .lcdStat
  else if pendingIn p .timer then some .timer
  else if pendingIn p .serial then some .serial
  else if pendingIn p .joypad then some .joypad
  else none

end Sys2Proof.Machine
end

