-- ==== Sys2Proof/Machine/Ppu.lean ====
section
/-! DEFINITION. The scanline processor: rendering (R207 to R210), the mode transitions (R202 to R206), publication (R213),
LY (R211, R212), PPU_STEP (R201) and FRAME_READ (R214). -/

namespace Sys2Proof.Machine

/-! ## Rendering -/

/-- `MapBase(lcdc)`: 0x9C00 when bit 3 is set, else 0x9800 (R208). -/
def mapBase (lcdc : Byte) : Nat := if lcdc.getLsbD 3 then 0x9C00 else 0x9800

/-- `TileAddr(idx, lcdc)`: unsigned tile numbers from 0x8000 when bit 4 is set, else signed ones (R209). -/
def tileAddr (idx lcdc : Byte) : Nat :=
  if lcdc.getLsbD 4 then 0x8000 + idx.toNat * 16 else 0x8800 + (idx.toNat + 128) % 256 * 16

/-- The color of pixel x of line L, from VRAM and the registers as they stand (R207). -/
def renderPixel (l x : Nat) (s : State) : Pixel :=
  let lcdc := s.io.read Config.lcdcOff
  let y := (l + (s.io.read Config.scyOff).toNat) % 256
  let xx := (x + (s.io.read Config.scxOff).toNat) % 256
  let cell := (y >>> 3) % 32 * 32 + (xx >>> 3) % 32
  let idx := s.vram.read (mapBase lcdc - 0x8000 + cell)
  let t := tileAddr idx lcdc - 0x8000
  pixelColor (s.vram.read (t + 2 * (y % 8))) (s.vram.read (t + 2 * (y % 8) + 1)) (xx % 8)

/-- The pixels of a line (R207). -/
def renderedLine (l : Nat) (s : State) : Line := Vector.ofFn fun x : Fin 160 => renderPixel l x.val s

/-- `RenderLine(L)`: fill row L of the scratch grid (R207). -/
def renderLine (l : Nat) (s : State) : State := s.withScratch (s.scratch.setIfInBounds l (renderedLine l s))

/-! ## Modes -/

/-- The duration of a mode (R200). -/
def modeCycles (p : Params) : PpuMode → Nat
  | .oamRead => Config.oamReadCycles
  | .vramRead => Config.vramReadCycles
  | .hblank => Config.hblankCycles
  | .vblank => p.vblankCycles

/-- `Publish()`: copy scratch to front and count the publication (R213). -/
def publish (s : State) : State := s.withFront s.scratch (s.frontSeq + 1)

/-- The transition at the end of a mode (R202 to R206). A line beyond 143 outside VBLANK is reached by no run; it ends
the frame as line 143 does (the assumption log's entry 20). -/
def transition (s : State) : State :=
  match s.ppuMode with
  | .oamRead => s.withPpu .vramRead s.ppuElapsed s.ppuLine
  | .vramRead => (renderLine s.ppuLine s).withPpu .hblank s.ppuElapsed s.ppuLine
  | .hblank =>
    if s.ppuLine < Config.visibleLines - 1 then s.withPpu .oamRead s.ppuElapsed (s.ppuLine + 1)
    else (publish (raiseIrq .vblank s)).withPpu .vblank s.ppuElapsed Config.visibleLines
  | .vblank => s.withPpu .oamRead s.ppuElapsed 0

/-- The loop of R201: while the elapsed count reaches the mode's duration, subtract it and take the transition. The first
argument bounds the number of transitions. -/
def ppuLoop : Nat → State → State
  | 0, s => s
  | k + 1, s =>
    if modeCycles s.params s.ppuMode ≤ s.ppuElapsed then
      ppuLoop k (transition (s.withPpu s.ppuMode (s.ppuElapsed - modeCycles s.params s.ppuMode) s.ppuLine))
    else s

/-- A bound that the loop never meets: a transition out of a visible mode uses up at least one cycle, and no two
transitions in a row leave VBLANK (the assumption log's entry 19). -/
def ppuFuel (elapsed : Nat) : Nat := 2 * elapsed + 2

/-- `LY(S)` (R211). -/
def visibleLine (s : State) : Nat :=
  match s.ppuMode with
  | .oamRead => s.ppuLine
  | .vramRead => s.ppuLine
  | .hblank => s.ppuLine
  | .vblank => 144 + 10 * s.ppuElapsed / s.params.vblankCycles

/-- `S.io[0x44] <- LY(S)` (R212). -/
def writeLy (s : State) : State := s.withIo (s.io.write Config.lyOff (BitVec.ofNat 8 (visibleLine s)))

/-- `PPU_STEP(n)` (R201). -/
def ppuStep (n : Nat) (s : State) : State :=
  writeLy (ppuLoop (ppuFuel (s.ppuElapsed + n)) (s.withPpu s.ppuMode (s.ppuElapsed + n) s.ppuLine))

/-- `PPU_STEP` (R201). -/
def execPpuStep (n : Nat) (s : State) : Result := .next ((ppuStep n s).withReply .done)

/-- `FRAME_READ`: the published frame and its number (R214). -/
def execFrameRead (s : State) : Result := .next (s.withReply (.frame s.front s.frontSeq))

end Sys2Proof.Machine
end

