-- ==== Sys2Proof/Machine/Timer.lean ====
section
/-! DEFINITION. The interval timer and divider: one cycle (R242), TIMER_TICK (R241), the TAC write (R246) and
TIMER_CONFIGURE (R247). -/

namespace Sys2Proof.Machine

/-- DIV counts at a cycle that brings the counter to a multiple of 256 (R242, R243). -/
def divCycle (s : State) : State :=
  if s.tcount.toNat % Config.divPeriod = 0 then
    s.withIo (s.io.write Config.divOff (s.io.read Config.divOff + 1#8))
  else s

/-- TIMA counts one: past 0xFF it is reloaded from TMA and TIMER is raised (R242, R244, R245). -/
def timaCount (s : State) : State :=
  if s.io.read Config.timaOff = 0xFF#8 then
    raiseIrq .timer (s.withIo (s.io.write Config.timaOff (s.io.read Config.tmaOff)))
  else s.withIo (s.io.write Config.timaOff (s.io.read Config.timaOff + 1#8))

/-- TIMA counts at a cycle that brings the counter to a multiple of N while the timer is enabled (R242, R244). -/
def timaCycle (s : State) : State :=
  if s.tEnabled = true ∧ s.tcount.toNat % s.tDivisor = 0 then timaCount s else s

/-- `TimerCycle()`: the counter is incremented first and tested after (R242, D25). -/
def timerCycle (s : State) : State := timaCycle (divCycle (s.withTcount (s.tcount + 1#10)))

/-- `TIMER_TICK(n)`: one `timerCycle` for each cycle (R241). -/
def timerTick : Nat → State → State
  | 0, s => s
  | n + 1, s => timerTick n (timerCycle s)

/-- `TimerControl(v)` (R246). -/
def timerControl (b : Byte) (s : State) : State := s.withTimer (tacEnable b) (tacDivisor b)

/-- `TIMER_TICK` (R241). -/
def execTimerTick (n : Nat) (s : State) : Result := .next ((timerTick n s).withReply .done)

/-- `TIMER_CONFIGURE` (R247): refused with BAD_OPERAND when N is not a power of two from 1 to 1024. -/
def execTimerConfigure (en : Bool) (n : Nat) (s : State) : Result :=
  if legalDivisor n then .next ((s.withTimer en n).withReply .done)
  else .next (refuse .badOperand (encode (.timerConfigure en n)).word s)

end Sys2Proof.Machine
end

