-- ==== Sys2Proof/Machine/HostCommands.lean ====
section
/-! DEFINITION. The cycle fan-out (R276), the overlay flag (R277) and the two commands that are always refused (R278,
R84). -/

namespace Sys2Proof.Machine

/-- One device's step of a SYS_STEP (R276). -/
def deviceStep (n : Nat) (s : State) (d : Device) : State :=
  match d with
  | .bus => busStep n s
  | .ppu => ppuStep n s
  | .timer => timerTick n s

/-- The three device steps in a given order, each receiving the whole delta (R276). -/
def sysStepIn (o : DeviceOrder) (n : Nat) (s : State) : State := o.devices.foldl (deviceStep n) s

/-- `SYS_STEP` (R276): the order is chosen freshly, a free value (D10; the assumption log's entry 11). -/
def execSysStep (n : Nat) (s : State) : Result :=
  .next ((sysStepIn (Config.deviceOrder s.sysSteps) n (s.withSysSteps (s.sysSteps + 1))).withReply .done)

/-- `SET_BOOT_OVERLAY` (R277): either value, at any time. -/
def execSetBootOverlay (f : Bool) (s : State) : Result := .next ((s.withBootEnabled f).withReply .done)

/-- `SET_BUTTONS` (R278): refused with UNMODELLED_BUTTONS, and the refusal is recorded (R301). -/
def execSetButtons (a : Addr) (x : Operand) (s : State) : Result :=
  .next (refuse .unmodelledButtons (encode (.setButtons a x)).word s)

/-- The reserved command code 0xF (R84): refused with RESERVED_CMD, and the refusal is recorded (R301). -/
def execReserved (a : Addr) (x : Operand) (s : State) : Result :=
  .next (refuse .reservedCmd (encode (.reserved a x)).word s)

end Sys2Proof.Machine
end

