-- ==== Sys2Proof/Machine/Interrupts.lean ====
section
/-! DEFINITION. The commands of the interrupt line (R272 to R274). The core delivers no interrupt: it reports the pending
set and a priority choice, and the interpreter polls them (R275, R306). -/

namespace Sys2Proof.Machine

/-- `IRQ_READ` (R272): reading clears nothing. -/
def execIrqRead (s : State) : Result := .next (s.withReply (.irq s.irq (highestPending s.irq)))

/-- `IRQ_CLEAR` (R273). -/
def execIrqClear (m : BitVec 5) (s : State) : Result := .next ((clearIrq m s).withReply .done)

/-- `IRQ_RAISE` (R274). -/
def execIrqRaise (k : Irq) (s : State) : Result := .next ((raiseIrq k s).withReply .done)

end Sys2Proof.Machine
end

