-- ==== Sys2Proof/Machine/Reads.lean ====
section
/-! DEFINITION. The READ rows (R102 to R112, and the external RAM rows R147, R153 and R160): each is its window's bus
read, whose byte goes to the host. A row is performed as its rule says whatever the mode; the decode alone checks the
row's state condition (the assumption log's entry 16). -/

namespace Sys2Proof.Machine

/-- `RD.BOOT` (R102). -/
def execRdBoot (a : Addr) (s : State) : Result := finishRead (readBoot a s) s

/-- `RD.ROM0` (R103). -/
def execRdRom0 (a : Addr) (s : State) : Result := finishRead (readRom0 a s) s

/-- `RD.ROMX` (R104). -/
def execRdRomx (a : Addr) (s : State) : Result := finishRead (readRomx a s) s

/-- `RD.VRAM` (R105). -/
def execRdVram (a : Addr) (s : State) : Result := finishRead (readVram a s) s

/-- `RD.ERAM.NONE` (R147). -/
def execRdEramNone (a : Addr) (s : State) : Result := finishRead (readEramNone a s) s

/-- `RD.ERAM.MBC1` (R153). -/
def execRdEramMbc1 (a : Addr) (s : State) : Result := finishRead (readEramMbc1 a s) s

/-- `RD.ERAM.MBC3` (R160). -/
def execRdEramMbc3 (a : Addr) (s : State) : Result := finishRead (readEramMbc3 a s) s

/-- `RD.WRAM` (R107). -/
def execRdWram (a : Addr) (s : State) : Result := finishRead (readWram a s) s

/-- `RD.ECHO.E000` (R108). -/
def execRdEchoE000 (a : Addr) (s : State) : Result := finishRead (readEcho a s) s

/-- `RD.ECHO.F000` (R108). -/
def execRdEchoF000 (a : Addr) (s : State) : Result := finishRead (readEcho a s) s

/-- `RD.ECHO.F800` (R108). -/
def execRdEchoF800 (a : Addr) (s : State) : Result := finishRead (readEcho a s) s

/-- `RD.ECHO.FC00` (R108). -/
def execRdEchoFc00 (a : Addr) (s : State) : Result := finishRead (readEcho a s) s

/-- `RD.OAM.FE00` (R109). -/
def execRdOamFe00 (a : Addr) (s : State) : Result := finishRead (readOam a s) s

/-- `RD.OAM.FE80` (R109). -/
def execRdOamFe80 (a : Addr) (s : State) : Result := finishRead (readOam a s) s

/-- `RD.GAP.FEA0` (R110). -/
def execRdGapFea0 (a : Addr) (s : State) : Result := finishRead (readGap a) s

/-- `RD.GAP.FEC0` (R110). -/
def execRdGapFec0 (a : Addr) (s : State) : Result := finishRead (readGap a) s

/-- `RD.IO` (R111). -/
def execRdIo (a : Addr) (s : State) : Result := finishRead (readIo a s) s

/-- `RD.HRAM` (R112). -/
def execRdHram (a : Addr) (s : State) : Result := finishRead (readHram a s) s

end Sys2Proof.Machine
end

