-- ==== Sys2Proof/Machine/Writes.lean ====
section
/-! DEFINITION. The WRITE rows of the router (R113, R115 to R125): DATA is checked first (R101), then the row's rule
runs. A row is performed as its rule says whatever the mode; the decode alone checks the row's state condition (the
assumption log's entry 16). -/

namespace Sys2Proof.Machine

/-- A write that stores into region `r` at the offset of `a` in its window (R115, R117 to R119, R121, R125). -/
def writeWindow (w : Window) (r : RegionId) (a : Addr) (v : Int) (s : State) : Except Fault State :=
  withData v fun b => storeByte r (w.offset a) b s

/-- A write into the gap (R120). -/
def writeGap (a : Addr) (v : Int) : Except Fault State :=
  withData v fun _ => .error (.invalidAddress a .write)

/-- A write into the mirror is a write of working memory (R55, R118). -/
def writeEcho (a : Addr) (v : Int) (s : State) : Except Fault State := writeWindow .echo .wram a v s

/-- A write of OAM (R119). -/
def writeOam (a : Addr) (v : Int) (s : State) : Except Fault State := writeWindow .oam .oam a v s

/-- A write of a register with a side effect: the byte is stored, then the effect follows (R122 to R124). -/
def writeIoThen (off : Nat) (v : Int) (s : State) (effect : Byte → State → State) : Except Fault State :=
  withData v fun b =>
    match storeByte .io off b s with
    | .ok s' => .ok (effect b s')
    | .error f => .error f

/-- `WR.BOOT` (R113): a write of the read-only overlay; it has no effect and is not forwarded to the controller (D4). -/
def execWrBoot (a : Addr) (v : Int) (s : State) : Result := finishWrite (writeWindow .rom0 .boot a v s) s

/-- `WR.VRAM` (R115). -/
def execWrVram (a : Addr) (v : Int) (s : State) : Result := finishWrite (writeWindow .vram .vram a v s) s

/-- `WR.WRAM` (R117). -/
def execWrWram (a : Addr) (v : Int) (s : State) : Result := finishWrite (writeWindow .wram .wram a v s) s

/-- `WR.ECHO.E000` (R118). -/
def execWrEchoE000 (a : Addr) (v : Int) (s : State) : Result := finishWrite (writeEcho a v s) s

/-- `WR.ECHO.F000` (R118). -/
def execWrEchoF000 (a : Addr) (v : Int) (s : State) : Result := finishWrite (writeEcho a v s) s

/-- `WR.ECHO.F800` (R118). -/
def execWrEchoF800 (a : Addr) (v : Int) (s : State) : Result := finishWrite (writeEcho a v s) s

/-- `WR.ECHO.FC00` (R118). -/
def execWrEchoFc00 (a : Addr) (v : Int) (s : State) : Result := finishWrite (writeEcho a v s) s

/-- `WR.OAM.FE00` (R119). -/
def execWrOamFe00 (a : Addr) (v : Int) (s : State) : Result := finishWrite (writeOam a v s) s

/-- `WR.OAM.FE80` (R119). -/
def execWrOamFe80 (a : Addr) (v : Int) (s : State) : Result := finishWrite (writeOam a v s) s

/-- `WR.GAP.FEA0` (R120). -/
def execWrGapFea0 (a : Addr) (v : Int) (s : State) : Result := finishWrite (writeGap a v) s

/-- `WR.GAP.FEC0` (R120). -/
def execWrGapFec0 (a : Addr) (v : Int) (s : State) : Result := finishWrite (writeGap a v) s

/-- `WR.IO.TAC` (R124): the byte is stored and the timer configured from it (R246). -/
def execWrIoTac (v : Int) (s : State) : Result := finishWrite (writeIoThen Config.tacOff v s timerControl) s

/-- `WR.IO.DMA` (R122): the byte is stored and a transfer starts from that page (R180). -/
def execWrIoDma (v : Int) (s : State) : Result := finishWrite (writeIoThen Config.dmaOff v s dmaTrigger) s

/-- `WR.IO.BOOTOFF` (R123): the byte is stored and the overlay disabled, whatever the byte. -/
def execWrIoBootoff (v : Int) (s : State) : Result :=
  finishWrite (writeIoThen Config.bootOffOff v s fun _ s' => s'.withBootEnabled false) s

/-- `WR.IO` (R121): a plain store. -/
def execWrIo (a : Addr) (v : Int) (s : State) : Result := finishWrite (writeWindow .io .io a v s) s

/-- `WR.HRAM` (R125). -/
def execWrHram (a : Addr) (v : Int) (s : State) : Result := finishWrite (writeWindow .hram .hram a v s) s

end Sys2Proof.Machine
end

