-- ==== Sys2Proof/Machine/Dispatch.lean ====
section
/-! DEFINITION. The meaning of each instruction, one arm for each constructor of Instr. -/

namespace Sys2Proof.Machine

def exec (i : Instr) (s : State) : Host.Outcome State Fault Refusal :=
  match i with
  | .rdBoot a => Sys2Proof.Machine.execRdBoot a s
  | .rdRom0 a => Sys2Proof.Machine.execRdRom0 a s
  | .rdRomx a => Sys2Proof.Machine.execRdRomx a s
  | .rdVram a => Sys2Proof.Machine.execRdVram a s
  | .rdEramNone a => Sys2Proof.Machine.execRdEramNone a s
  | .rdEramMbc1 a => Sys2Proof.Machine.execRdEramMbc1 a s
  | .rdEramMbc3 a => Sys2Proof.Machine.execRdEramMbc3 a s
  | .rdWram a => Sys2Proof.Machine.execRdWram a s
  | .rdEchoE000 a => Sys2Proof.Machine.execRdEchoE000 a s
  | .rdEchoF000 a => Sys2Proof.Machine.execRdEchoF000 a s
  | .rdEchoF800 a => Sys2Proof.Machine.execRdEchoF800 a s
  | .rdEchoFc00 a => Sys2Proof.Machine.execRdEchoFc00 a s
  | .rdOamFe00 a => Sys2Proof.Machine.execRdOamFe00 a s
  | .rdOamFe80 a => Sys2Proof.Machine.execRdOamFe80 a s
  | .rdGapFea0 a => Sys2Proof.Machine.execRdGapFea0 a s
  | .rdGapFec0 a => Sys2Proof.Machine.execRdGapFec0 a s
  | .rdIo a => Sys2Proof.Machine.execRdIo a s
  | .rdHram a => Sys2Proof.Machine.execRdHram a s
  | .wrBoot a v => Sys2Proof.Machine.execWrBoot a v s
  | .wrRomNone a v => Sys2Proof.Machine.execWrRomNone a v s
  | .wrMbc1Ramen a v => Sys2Proof.Machine.execWrMbc1Ramen a v s
  | .wrMbc1Romlo a v => Sys2Proof.Machine.execWrMbc1Romlo a v s
  | .wrMbc1Hi a v => Sys2Proof.Machine.execWrMbc1Hi a v s
  | .wrMbc1Mode a v => Sys2Proof.Machine.execWrMbc1Mode a v s
  | .wrMbc3Ramen a v => Sys2Proof.Machine.execWrMbc3Ramen a v s
  | .wrMbc3Romb a v => Sys2Proof.Machine.execWrMbc3Romb a v s
  | .wrMbc3Ramen2 a v => Sys2Proof.Machine.execWrMbc3Ramen2 a v s
  | .wrMbc3Ramb a v => Sys2Proof.Machine.execWrMbc3Ramb a v s
  | .wrVram a v => Sys2Proof.Machine.execWrVram a v s
  | .wrEramNone a v => Sys2Proof.Machine.execWrEramNone a v s
  | .wrEramMbc1 a v => Sys2Proof.Machine.execWrEramMbc1 a v s
  | .wrEramMbc3 a v => Sys2Proof.Machine.execWrEramMbc3 a v s
  | .wrWram a v => Sys2Proof.Machine.execWrWram a v s
  | .wrEchoE000 a v => Sys2Proof.Machine.execWrEchoE000 a v s
  | .wrEchoF000 a v => Sys2Proof.Machine.execWrEchoF000 a v s
  | .wrEchoF800 a v => Sys2Proof.Machine.execWrEchoF800 a v s
  | .wrEchoFc00 a v => Sys2Proof.Machine.execWrEchoFc00 a v s
  | .wrOamFe00 a v => Sys2Proof.Machine.execWrOamFe00 a v s
  | .wrOamFe80 a v => Sys2Proof.Machine.execWrOamFe80 a v s
  | .wrGapFea0 a v => Sys2Proof.Machine.execWrGapFea0 a v s
  | .wrGapFec0 a v => Sys2Proof.Machine.execWrGapFec0 a v s
  | .wrIoTac v => Sys2Proof.Machine.execWrIoTac v s
  | .wrIoDma v => Sys2Proof.Machine.execWrIoDma v s
  | .wrIoBootoff v => Sys2Proof.Machine.execWrIoBootoff v s
  | .wrIo a v => Sys2Proof.Machine.execWrIo a v s
  | .wrHram a v => Sys2Proof.Machine.execWrHram a v s
  | .sysStep n => Sys2Proof.Machine.execSysStep n s
  | .busStep n => Sys2Proof.Machine.execBusStep n s
  | .ppuStep n => Sys2Proof.Machine.execPpuStep n s
  | .timerTick n => Sys2Proof.Machine.execTimerTick n s
  | .setBootOverlay f => Sys2Proof.Machine.execSetBootOverlay f s
  | .irqRead => Sys2Proof.Machine.execIrqRead s
  | .irqClear m => Sys2Proof.Machine.execIrqClear m s
  | .irqRaise k => Sys2Proof.Machine.execIrqRaise k s
  | .timerConfigure en n => Sys2Proof.Machine.execTimerConfigure en n s
  | .ramExport => Sys2Proof.Machine.execRamExport s
  | .ramImport bytes => Sys2Proof.Machine.execRamImport bytes s
  | .frameRead => Sys2Proof.Machine.execFrameRead s
  | .setButtons a x => Sys2Proof.Machine.execSetButtons a x s
  | .reserved a x => Sys2Proof.Machine.execReserved a x s

end Sys2Proof.Machine
end

