-- ==== Sys2Proof/Machine/Step.lean ====
section
/-! DEFINITION. One step: the core takes the next transaction the host has issued, decodes it and performs it (R5, R21,
R63). -/

namespace Sys2Proof.Machine

/-- The next transaction leaves the queue and is performed as one atomic step (R5, R60, R63): its row's meaning runs, or
the refusal of its word is taken (R84, R301). With no transaction pending nothing changes: "between two transactions, no
device changes any state" (R64). The assumption log's entries 1 and 2. -/
def step (s : State) : Host.Outcome State Fault Refusal :=
  match s.inbox with
  | [] => .next s
  | t :: rest =>
    match decode s.mode t with
    | .ok i => exec i (s.withInbox rest)
    | .error r => .next (refuse r t.word (s.withInbox rest))

/-- The transaction of a table word, its operand zero, at the head of the queue: the place the next step takes its
transaction from. The assumption log's entries 2 and 23. -/
def State.withFetchWord (s : State) (nbits w : Nat) : State := s.withInbox (tableTxn nbits w :: s.inbox)

end Sys2Proof.Machine
end

