-- ==== Sys2Proof/Machine/Construct.lean ====
section
/-! DEFINITION. Construction, the only reset of the core (R330): the checks of R331 in their order, the header
classification (R140), the image sizes (R141) and the values of R38. -/

namespace Sys2Proof.Machine

/-- INIT_MEM: the initial region contents the host supplies (R24, R331). -/
structure InitMem where
  vram : List Byte
  wram : List Byte
  oam : List Byte
  io : List Byte
  hram : List Byte
  eram : List Byte
deriving DecidableEq, Repr

/-- A supplied region must have its required length (R52, R331). -/
def checkLen (r : SizedRegion) (supplied required : Nat) : Except Fault Unit :=
  if supplied = required then .ok () else .error (.sizeMismatch r supplied (some required))

/-- The image must reach the header byte (R140, R331 check 2). -/
def checkHeader (len : Nat) : Except Fault Unit :=
  if 0x0148 ≤ len then .ok () else .error (.sizeMismatch .rom len (some 0x0148))

/-- The variant that the header byte selects (R140). -/
def classifyCart (documented : List Byte) (t : Byte) : Except Fault Variant :=
  if t = 0x00#8 then .ok .none
  else if 0x01 ≤ t.toNat ∧ t.toNat ≤ 0x03 then .ok .mbc1
  else if 0x0F ≤ t.toNat ∧ t.toNat ≤ 0x13 then .ok .mbc3
  else if t ∈ documented then .error (.unsupportedCart t)
  else .error (.invalidCart t)

/-- The image length suits the variant (R141): exactly 0x8000 for NONE, a multiple of 0x4000 holding 2 to 128 banks for
MBC1 and MBC3. -/
def imageFits (v : Variant) (len : Nat) : Bool :=
  match v with
  | .none => len == 0x8000
  | .mbc1 => len % 0x4000 == 0 && decide (2 * 0x4000 ≤ len) && decide (len ≤ 128 * 0x4000)
  | .mbc3 => len % 0x4000 == 0 && decide (2 * 0x4000 ≤ len) && decide (len ≤ 128 * 0x4000)

/-- The required length a SIZE_MISMATCH of the image records (R300): a banked image has no one required length (the
assumption log's entry 18). -/
def requiredImage : Variant → Option Nat
  | .none => some 0x8000
  | .mbc1 => none
  | .mbc3 => none

/-- R331 check 4. -/
def checkImage (v : Variant) (len : Nat) : Except Fault Unit :=
  if imageFits v len then .ok () else .error (.sizeMismatch .rom len (requiredImage v))

/-- The state record with the values of R38 (R331 step 7). -/
def initialState (p : Params) (v : Variant) (boot img : List Byte) (init : InitMem) : State :=
  { State.reset with
    params := p
    variant := v
    boot := Memory.ofBytes boot
    rom := Memory.ofBytes img
    romLen := img.length
    vram := Memory.ofBytes init.vram
    eram := Memory.ofBytes init.eram
    wram := Memory.ofBytes init.wram
    oam := Memory.ofBytes init.oam
    io := Memory.ofBytes init.io
    hram := Memory.ofBytes init.hram }

/-- The lengths of the initial regions (R331 checks 5 and 6). -/
def checkRegions (v : Variant) (init : InitMem) : Except Fault Unit := do
  checkLen .vram init.vram.length Config.vramLen
  checkLen .wram init.wram.length Config.wramLen
  checkLen .oam init.oam.length Config.oamLen
  checkLen .io init.io.length Config.ioLen
  checkLen .hram init.hram.length Config.hramLen
  checkLen .eram init.eram.length (eramSize v)

/-- `Construct(boot, img, init)` under the parameters `p` and DOCUMENTED_TYPES (R331): the first check that fails is the
one reported, and a failure produces no machine. -/
def construct (p : Params) (documented boot img : List Byte) (init : InitMem) : Except Fault State := do
  checkLen .boot boot.length Config.bootLen
  checkHeader img.length
  let v ← classifyCart documented (img.getD Config.headerTypeOffset 0x00#8)
  checkImage v img.length
  checkRegions v init
  return initialState p v boot img init

end Sys2Proof.Machine
end

