-- ==== Sys2Proof/Safety.lean ====
section
/-! DEFINITION. What claims are stated in: the invariant of the machine (R40 and the sizes of R24 and R141), a run that
never faulted (R37), what a store leaves unchanged, and which operands fit a command (R82). -/

namespace Sys2Proof.Machine

/-- A region's bytes: in canonical form, and every offset below the region's length (R50, R51). -/
abbrev Memory.fits (m : Memory) (len : Nat) : Prop := m.wf ∧ ∀ c ∈ m, c.1 < len

/-- The invariant that every transaction keeps: the regions have their lengths (R24, R50), the image suits the variant
(R141), and R40 (a) to (e); (c) and (f) hold by the types of `tcount` and of the bytes. -/
structure State.Inv (s : State) : Prop where
  params : s.params.Legal
  image : imageFits s.variant s.romLen = true
  boot : s.boot.fits Config.bootLen
  rom : s.rom.fits s.romLen
  vram : s.vram.fits Config.vramLen
  eram : s.eram.fits (eramSize s.variant)
  wram : s.wram.fits Config.wramLen
  oam : s.oam.fits Config.oamLen
  io : s.io.fits Config.ioLen
  hram : s.hram.fits Config.hramLen
  /-- R40 (a). -/
  mbc1Bank : s.variant = .mbc1 → s.romBank &&& 0x1F#7 ≠ 0#7
  /-- R40 (b): 7 bits, so at most 127. -/
  mbc3Bank : s.variant = .mbc3 → s.romBank ≠ 0#7
  /-- R40 (d). -/
  dma : ∀ e ∈ s.dma, e.elapsed < Config.dmaCycles
  /-- R40 (e), every mode: the elapsed count is below the mode's duration. -/
  ppuElapsed : s.ppuElapsed < modeCycles s.params s.ppuMode
  /-- R40 (e), outside VBLANK. -/
  ppuVisible : s.ppuMode ≠ .vblank → s.ppuLine ≤ 143
  /-- R40 (e), in VBLANK. -/
  ppuVblank : s.ppuMode = .vblank → s.ppuLine = 144
  /-- R31: the divisor is one of 1, 2, 4, ..., 1024. -/
  divisor : legalDivisor s.tDivisor = true

/-- No transaction has faulted or been refused since construction: `S.fault` is "a log of the first fault, for proofs that
a run never faulted" (R301). -/
def State.NeverFaulted (s : State) : Prop := s.fault = none

/-- Everything but the stored bytes and the reply is the same: put those of `s` back into `t` and it is `s`. -/
def SameRegisters (s t : State) : Prop :=
  { t with
    boot := s.boot, rom := s.rom, vram := s.vram, eram := s.eram, wram := s.wram, oam := s.oam, io := s.io
    hram := s.hram, reply := s.reply } = s

/-- Every stored byte of every region is the same, but for byte `off` of region `r`. -/
def SameBytesBut (r : RegionId) (off : Nat) (s t : State) : Prop :=
  ∀ r' off', off' < r'.len s.variant → (r', off') ≠ (r, off) → t.byteAt r' off' = s.byteAt r' off'

/-- The step from `s` to `t` stores byte `b` at `off` of region `r` and changes nothing else. -/
def StoresByte (r : RegionId) (off : Nat) (b : Byte) (s t : State) : Prop :=
  t.byteAt r off = b ∧ SameBytesBut r off s t ∧ SameRegisters s t

/-- `lo <= a <= hi` (R85). -/
def InRange (lo hi : Nat) (a : Addr) : Prop := lo ≤ a.toNat ∧ a.toNat ≤ hi

/-- An integer that a WRITE accepts: 0..255 (R82, R101). -/
def ByteValue (v : Int) : Prop := 0 ≤ v ∧ v ≤ 255

/-- A legal divisor: a power of two from 1 to 1024 (R82, R247). -/
def PowerOfTwoTo1024 (n : Nat) : Prop := ∃ k, k ≤ 10 ∧ n = 2 ^ k

/-- The operand has the type R81 and R82 give the command. DATA may be any integer, and N any natural: WRITE and
TIMER_CONFIGURE check those values by their own rules (R101, R247). -/
def OperandFits (cmd : Nat) (x : Operand) : Prop :=
  match cmd with
  | 0x0 => x = .none
  | 0x1 => ∃ v, x = .int v
  | 0x2 => ∃ v, x = .int v ∧ 0 ≤ v
  | 0x3 => ∃ v, x = .int v ∧ 0 ≤ v
  | 0x4 => ∃ v, x = .int v ∧ 0 ≤ v
  | 0x5 => ∃ v, x = .int v ∧ 0 ≤ v
  | 0x6 => x = .int 0 ∨ x = .int 1
  | 0x7 => x = .none
  | 0x8 => ∃ v, x = .int v ∧ 0 ≤ v ∧ v < 32
  | 0x9 => ∃ v, x = .int v ∧ 0 ≤ v ∧ v ≤ 4
  | 0xA => ∃ e n, x = .pair e n ∧ (e = 0 ∨ e = 1) ∧ 0 ≤ n
  | 0xB => x = .none
  | 0xC => ∃ xs, x = .list xs ∧ ∀ v ∈ xs, 0 ≤ v ∧ v < 256
  | 0xD => x = .none
  | _ => True

end Sys2Proof.Machine
end

