-- ==== Sys2Proof/Certificates/Slice0/Obligations.lean ====
section
/-! DEFINITION. The statements for the provers: `Obligations.<Name> : Prop`, each with the rule or the section of spec/ it
comes from. A statement about a free value (ROM_FILL, DEVICE_ORDER) or a parameter (DMA_LAND, VBLANK_CYCLES, MBC3_RAMEN2)
holds for every value of it. -/

open Sys2Proof
open Sys2Proof.Machine

/-! ## Decoding and stepping -/

/-- R80, R81, R85: decoding the transaction of a well-formed instruction, in a mode that selects its row, gives it back. -/
def Obligations.DecodeOfEncodeIsTheInstruction : Prop :=
  ∀ (m : Mode) (i : Instr), i.wellFormed = true → i.selectedIn m = true → decode m (encode i) = .ok i

/-- R81, R85: what decodes is a well-formed instruction whose row the mode selects, and its transaction is the one decoded:
no bit of the word and no part of the operand is dropped. -/
def Obligations.DecodedInstructionHasItsTransaction : Prop :=
  ∀ (m : Mode) (t : Txn) (i : Instr), decode m t = .ok i →
    i.wellFormed = true ∧ i.selectedIn m = true ∧ encode i = t

/-- R86: every READ address and every WRITE address with any DATA selects exactly one row, in every mode. -/
def Obligations.BusAddressSelectsExactlyOneRow : Prop :=
  ∀ (m : Mode) (a : Addr),
    (∃ i, (i.wellFormed = true ∧ i.selectedIn m = true ∧ encode i = ⟨mkWord 0x0#4 a, .none⟩) ∧
      ∀ j, j.wellFormed = true → j.selectedIn m = true → encode j = ⟨mkWord 0x0#4 a, .none⟩ → j = i) ∧
    ∀ v : Int, ∃ i, (i.wellFormed = true ∧ i.selectedIn m = true ∧ encode i = ⟨mkWord 0x1#4 a, .int v⟩) ∧
      ∀ j, j.wellFormed = true → j.selectedIn m = true → encode j = ⟨mkWord 0x1#4 a, .int v⟩ → j = i

/-- R85, R87: words of spec/opcode_table.json written out, with the instruction each stands for. -/
def Obligations.WordsDecodeToTheirRows : Prop :=
  decode ⟨.none, true⟩ ⟨0x00000#20, .none⟩ = .ok (.rdBoot 0x0000#16) ∧
  decode ⟨.none, false⟩ ⟨0x00000#20, .none⟩ = .ok (.rdRom0 0x0000#16) ∧
  decode ⟨.mbc1, true⟩ ⟨0x12000#20, .int 0x05⟩ = .ok (.wrMbc1Romlo 0x2000#16 0x05) ∧
  decode ⟨.mbc3, true⟩ ⟨0x1A000#20, .int 0x77⟩ = .ok (.wrEramMbc3 0xA000#16 0x77) ∧
  decode ⟨.none, true⟩ ⟨0x1FF46#20, .int 0xC0⟩ = .ok (.wrIoDma 0xC0) ∧
  decode ⟨.none, true⟩ ⟨0x0FEFF#20, .none⟩ = .ok (.rdGapFec0 0xFEFF#16) ∧
  decode ⟨.none, true⟩ ⟨0x20000#20, .int 4⟩ = .ok (.sysStep 4) ∧
  decode ⟨.none, true⟩ ⟨0x80000#20, .int 0x04⟩ = .ok (.irqClear 0x04#5) ∧
  decode ⟨.none, true⟩ ⟨0x20001#20, .int 4⟩ = .error .nonzeroAddrField ∧
  decode ⟨.none, true⟩ ⟨0xF0000#20, .none⟩ = .ok (.reserved 0x0000#16 .none)

/-- R5, R85: the next transaction of the queue, when it decodes, is performed by its instruction's meaning, with the
transaction taken off the queue; with no transaction pending a step changes nothing (R64). The queue is the model's
(log entries 1 and 2). -/
def Obligations.StepPerformsTheNextTransaction : Prop :=
  (∀ (s : State) (t : Txn) (rest : List Txn) (i : Instr), s.inbox = t :: rest → decode s.mode t = .ok i →
    step s = exec i (s.withInbox rest)) ∧
  ∀ s : State, s.inbox = [] → step s = .next s

/-- R89, R301: no transaction stops the machine; whatever the queue holds, a step answers a next state. That faults and
refusals are next states is read from R301 (log entry 4). -/
def Obligations.EveryStepAnswersNext : Prop :=
  ∀ s : State, ∃ t, step s = .next t

/-- R84 (with R82, R83 and R304 item 1): which transactions the word or the operand refuses, with which reason, each
recorded as a fault of kind REFUSED with the word. That an operand of the wrong shape is BAD_OPERAND is log entry 13
(DEDUCED), and which reason is recorded where several apply is log entry 14 (DEDUCED). -/
def Obligations.RefusedTransactionsRecordTheirReason : Prop :=
  ∀ (s : State) (t : Txn) (rest : List Txn), s.inbox = t :: rest →
    (t.cmd = 0xF#4 → step s = .next (takeFault (.refused .reservedCmd t.word) (s.withInbox rest))) ∧
    (t.cmd = 0xE#4 → step s = .next (takeFault (.refused .unmodelledButtons t.word) (s.withInbox rest))) ∧
    (2 ≤ t.cmd.toNat → t.cmd.toNat ≤ 0xD → t.addr ≠ 0x0000#16 →
      step s = .next (takeFault (.refused .nonzeroAddrField t.word) (s.withInbox rest))) ∧
    ((t.cmd.toNat < 2 ∨ (t.cmd.toNat ≤ 0xD ∧ t.addr = 0x0000#16)) → ¬ OperandFits t.cmd.toNat t.operand →
      step s = .next (takeFault (.refused .badOperand t.word) (s.withInbox rest)))

/-- R83, R84, R86: nothing else is refused. A step that ends in a refusal took a transaction of one of the kinds of R84. -/
def Obligations.NothingElseIsRefused : Prop :=
  ∀ (s t : State) (x : Txn) (rest : List Txn) (r : RefuseReason) (w : TxnWord), s.inbox = x :: rest →
    step s = .next t → t.reply = some (.fault (.refused r w)) →
    w = x.word ∧
    (r = .reservedCmd ∧ x.cmd = 0xF#4 ∨
     r = .unmodelledButtons ∧ x.cmd = 0xE#4 ∨
     r = .nonzeroAddrField ∧ 2 ≤ x.cmd.toNat ∧ x.cmd.toNat ≤ 0xD ∧ x.addr ≠ 0x0000#16 ∨
     r = .badOperand ∧ ¬ OperandFits x.cmd.toNat x.operand ∨
     r = .badOperand ∧ x.cmd = 0xA#4 ∧ ∃ e n : Nat, x.operand = .pair e n ∧ ¬ PowerOfTwoTo1024 n)

/-! ## Faults -/

/-- R301: a transaction that faults or is refused changes no state except `S.fault`, which keeps the first fault, and its
outcome is the fault. -/
def Obligations.FaultChangesOnlyTheFaultRecord : Prop :=
  ∀ (s t : State) (x : Txn) (rest : List Txn) (f : Fault), s.inbox = x :: rest → step s = .next t →
    t.reply = some (.fault f) →
    t = ((s.withInbox rest).withFault (if s.fault = none then some f else s.fault)).withReply (.fault f)

/-- R37: the record holds the first fault: no transaction clears or replaces one, and none is recorded but the outcome of
the transaction that first faults. -/
def Obligations.FirstFaultIsKept : Prop :=
  ∀ s t : State, step s = .next t →
    (∀ f, s.fault = some f → t.fault = some f) ∧
    (∀ f, s.fault = none → t.fault = some f → t.reply = some (.fault f))

/-- R101, R304: a WRITE of a value outside 0..255 faults with VALUE_OUT_OF_RANGE, whatever its address and the mode: the
value check comes before the address decode. -/
def Obligations.WriteValueOutsideByteFaults : Prop :=
  ∀ (s : State) (a : Addr) (v : Int), ¬ ByteValue v →
    exec (decodeWrite s.mode a v) s = .next (takeFault (.valueOutOfRange v) s)

/-- R110, R120: every read and every in-range write of the gap faults with INVALID_ADDRESS and the access, on every call. -/
def Obligations.GapAccessFaults : Prop :=
  ∀ (s : State) (a : Addr) (v : Int), ByteValue v →
    exec (.rdGapFea0 a) s = .next (takeFault (.invalidAddress a .read) s) ∧
    exec (.rdGapFec0 a) s = .next (takeFault (.invalidAddress a .read) s) ∧
    exec (.wrGapFea0 a v) s = .next (takeFault (.invalidAddress a .write) s) ∧
    exec (.wrGapFec0 a v) s = .next (takeFault (.invalidAddress a .write) s) ∧
    (InRange 0xFEA0 0xFEFF a →
      decodeRead s.mode a = (if a.toNat ≤ 0xFEBF then .rdGapFea0 a else .rdGapFec0 a) ∧
      decodeWrite s.mode a v = (if a.toNat ≤ 0xFEBF then .wrGapFea0 a v else .wrGapFec0 a v))

/-! ## Bus reads -/

/-- R102, R105, R107, R109, R111, R112: a read of the boot overlay, VRAM, working memory, OAM, the IO block and high-page
memory decodes to its row and returns the stored byte, changing nothing. -/
def Obligations.PlainReadsReturnTheStoredByte : Prop :=
  ∀ (s : State) (a : Addr),
    (s.bootEnabled = true → InRange 0x0000 0x00FF a → decodeRead s.mode a = .rdBoot a ∧
      exec (.rdBoot a) s = .next (s.withReply (.byte (s.boot.read a.toNat)))) ∧
    (InRange 0x8000 0x9FFF a → decodeRead s.mode a = .rdVram a ∧
      exec (.rdVram a) s = .next (s.withReply (.byte (s.vram.read (a.toNat - 0x8000))))) ∧
    (InRange 0xC000 0xDFFF a → decodeRead s.mode a = .rdWram a ∧
      exec (.rdWram a) s = .next (s.withReply (.byte (s.wram.read (a.toNat - 0xC000))))) ∧
    (InRange 0xFE00 0xFE7F a → decodeRead s.mode a = .rdOamFe00 a ∧
      exec (.rdOamFe00 a) s = .next (s.withReply (.byte (s.oam.read (a.toNat - 0xFE00))))) ∧
    (InRange 0xFE80 0xFE9F a → decodeRead s.mode a = .rdOamFe80 a ∧
      exec (.rdOamFe80 a) s = .next (s.withReply (.byte (s.oam.read (a.toNat - 0xFE00))))) ∧
    (InRange 0xFF00 0xFF7F a → decodeRead s.mode a = .rdIo a ∧
      exec (.rdIo a) s = .next (s.withReply (.byte (s.io.read (a.toNat - 0xFF00))))) ∧
    (InRange 0xFF80 0xFFFF a → decodeRead s.mode a = .rdHram a ∧
      exec (.rdHram a) s = .next (s.withReply (.byte (s.hram.read (a.toNat - 0xFF80)))))

/-- R108, R55: a read of the mirror, in each of its four blocks, returns the byte of working memory at `a - 0xE000`, an
offset below 0x1E00. -/
def Obligations.MirrorReadsWorkingMemory : Prop :=
  ∀ (s : State) (a : Addr), InRange 0xE000 0xFDFF a →
    a.toNat - 0xE000 < 0x1E00 ∧
    decodeRead s.mode a =
      (if a.toNat ≤ 0xEFFF then .rdEchoE000 a else if a.toNat ≤ 0xF7FF then .rdEchoF000 a
        else if a.toNat ≤ 0xFBFF then .rdEchoF800 a else .rdEchoFc00 a) ∧
    exec (.rdEchoE000 a) s = .next (s.withReply (.byte (s.wram.read (a.toNat - 0xE000)))) ∧
    exec (.rdEchoF000 a) s = .next (s.withReply (.byte (s.wram.read (a.toNat - 0xE000)))) ∧
    exec (.rdEchoF800 a) s = .next (s.withReply (.byte (s.wram.read (a.toNat - 0xE000)))) ∧
    exec (.rdEchoFc00 a) s = .next (s.withReply (.byte (s.wram.read (a.toNat - 0xE000))))

/-- R103, R104, R142, R143, R144: ROM0 reads bank 0, where the overlay does not shadow it, and ROMX the bank the controller
selects; a position of the image returns its byte, and one at or beyond the image a fresh draw, the next value of ROM_FILL
(a free value whose counter is the model's own: log entry 12, DESIGN CHOICE). -/
def Obligations.RomReadsReturnTheSelectedBank : Prop :=
  (∀ (s : State) (a : Addr), InRange 0x0000 0x3FFF a → (s.bootEnabled = false ∨ 0x0100 ≤ a.toNat) →
    decodeRead s.mode a = .rdRom0 a ∧
    (a.toNat < s.romLen → exec (.rdRom0 a) s = .next (s.withReply (.byte (s.rom.read a.toNat)))) ∧
    (s.romLen ≤ a.toNat →
      exec (.rdRom0 a) s = .next ((s.withDraws (s.draws + 1)).withReply (.byte (Config.romFill s.draws))))) ∧
  ∀ (s : State) (a : Addr) (b p : Nat), InRange 0x4000 0x7FFF a →
    b = (match s.variant, s.mbc1Mode with
      | .none, _ => 1
      | .mbc1, .highRom => s.romBank.toNat
      | .mbc1, .ram => s.romBank.toNat % 32
      | .mbc3, _ => s.romBank.toNat) →
    p = b * 0x4000 + (a.toNat - 0x4000) →
    decodeRead s.mode a = .rdRomx a ∧
    (p < s.romLen → exec (.rdRomx a) s = .next (s.withReply (.byte (s.rom.read p)))) ∧
    (s.romLen ≤ p →
      exec (.rdRomx a) s = .next ((s.withDraws (s.draws + 1)).withReply (.byte (Config.romFill s.draws))))

/-- R147, R153, R160, R303: external RAM reads bank 0 ungated under NONE; under MBC1 and MBC3 it reads 0xFF while disabled,
else the bank in effect (under MBC1 bank 0 in high-ROM banking mode). -/
def Obligations.ExternalRamReadsAreGated : Prop :=
  ∀ (s : State) (a : Addr), InRange 0xA000 0xBFFF a →
    (s.variant = .none → decodeRead s.mode a = .rdEramNone a ∧
      exec (.rdEramNone a) s = .next (s.withReply (.byte (s.byteAt (.eram 0) (a.toNat - 0xA000))))) ∧
    (s.variant = .mbc1 → decodeRead s.mode a = .rdEramMbc1 a ∧
      exec (.rdEramMbc1 a) s = .next (s.withReply (.byte (
        if s.ramEnabled = false then 0xFF#8
        else if s.mbc1Mode = .ram then s.byteAt (.eram s.ramBank.toNat) (a.toNat - 0xA000)
        else s.byteAt (.eram 0) (a.toNat - 0xA000))))) ∧
    (s.variant = .mbc3 → decodeRead s.mode a = .rdEramMbc3 a ∧
      exec (.rdEramMbc3 a) s = .next (s.withReply (.byte (
        if s.ramEnabled = false then 0xFF#8 else s.byteAt (.eram s.ramBank.toNat) (a.toNat - 0xA000)))))

/-- R60, R100: a bus read outside the gap completes with a byte and has no side effect on any state, in any window and any
mode: only the count of draws (the model's) and the reply change. -/
def Obligations.BusReadsHaveNoSideEffect : Prop :=
  ∀ (s : State) (a : Addr), ¬ InRange 0xFEA0 0xFEFF a →
    ∃ (b : Byte) (n : Nat), exec (decodeRead s.mode a) s = .next ((s.withDraws n).withReply (.byte b)) ∧
      (n = s.draws ∨ n = s.draws + 1 ∧ a.toNat < 0x8000 ∧ b = Config.romFill s.draws)

/-- R100, R183: the bus read that the DMA engine makes is the read of the decoded row: same byte, same state, same fault. -/
def Obligations.EngineReadAgreesWithTheDecodedRow : Prop :=
  ∀ (s : State) (a : Addr),
    exec (decodeRead s.mode a) s =
      (match memRead a s with
       | .ok (b, s') => .next (s'.withReply (.byte b))
       | .error f => .next (takeFault f s))

/-- R53, R54: every address lies in its window and in no other, and the window lengths add up to 0x10000. -/
def Obligations.WindowsPartitionTheAddressSpace : Prop :=
  (∀ (a : Addr) (w : Window), w = window a ↔ w.start ≤ a.toNat ∧ a.toNat < w.start + w.length) ∧
  ([Window.rom0, .romx, .vram, .eram, .wram, .echo, .oam, .gap, .io, .hram].map Window.length).sum = 0x10000

/-! ## Bus writes -/

/-- R115, R117, R119, R121, R125: a write of VRAM, working memory, OAM, a plain IO byte (all but 0xFF07, 0xFF46 and 0xFF50)
or high-page memory decodes to its row and stores its byte there, and changes no other byte and no register. -/
def Obligations.PlainWritesStoreOneByte : Prop :=
  ∀ (s : State) (a : Addr) (v : Int), ByteValue v →
    (InRange 0x8000 0x9FFF a → decodeWrite s.mode a v = .wrVram a v ∧
      ∃ t, exec (.wrVram a v) s = .next t ∧ t.reply = some .done ∧
        StoresByte .vram (a.toNat - 0x8000) (BitVec.ofInt 8 v) s t) ∧
    (InRange 0xC000 0xDFFF a → decodeWrite s.mode a v = .wrWram a v ∧
      ∃ t, exec (.wrWram a v) s = .next t ∧ t.reply = some .done ∧
        StoresByte .wram (a.toNat - 0xC000) (BitVec.ofInt 8 v) s t) ∧
    (InRange 0xFE00 0xFE7F a → decodeWrite s.mode a v = .wrOamFe00 a v ∧
      ∃ t, exec (.wrOamFe00 a v) s = .next t ∧ t.reply = some .done ∧
        StoresByte .oam (a.toNat - 0xFE00) (BitVec.ofInt 8 v) s t) ∧
    (InRange 0xFE80 0xFE9F a → decodeWrite s.mode a v = .wrOamFe80 a v ∧
      ∃ t, exec (.wrOamFe80 a v) s = .next t ∧ t.reply = some .done ∧
        StoresByte .oam (a.toNat - 0xFE00) (BitVec.ofInt 8 v) s t) ∧
    (InRange 0xFF00 0xFF7F a → a ≠ 0xFF07#16 → a ≠ 0xFF46#16 → a ≠ 0xFF50#16 → decodeWrite s.mode a v = .wrIo a v ∧
      ∃ t, exec (.wrIo a v) s = .next t ∧ t.reply = some .done ∧
        StoresByte .io (a.toNat - 0xFF00) (BitVec.ofInt 8 v) s t) ∧
    (InRange 0xFF80 0xFFFF a → decodeWrite s.mode a v = .wrHram a v ∧
      ∃ t, exec (.wrHram a v) s = .next t ∧ t.reply = some .done ∧
        StoresByte .hram (a.toNat - 0xFF80) (BitVec.ofInt 8 v) s t)

/-- R118, R55: a write of the mirror, in each of its four blocks, stores its byte in working memory at `a - 0xE000`, and
changes no other byte and no register. -/
def Obligations.MirrorWritesWorkingMemory : Prop :=
  ∀ (s : State) (a : Addr) (v : Int), ByteValue v → InRange 0xE000 0xFDFF a →
    decodeWrite s.mode a v =
      (if a.toNat ≤ 0xEFFF then .wrEchoE000 a v else if a.toNat ≤ 0xF7FF then .wrEchoF000 a v
        else if a.toNat ≤ 0xFBFF then .wrEchoF800 a v else .wrEchoFc00 a v) ∧
    ∃ t, exec (.wrEchoE000 a v) s = .next t ∧ exec (.wrEchoF000 a v) s = .next t ∧
      exec (.wrEchoF800 a v) s = .next t ∧ exec (.wrEchoFc00 a v) s = .next t ∧ t.reply = some .done ∧
      StoresByte .wram (a.toNat - 0xE000) (BitVec.ofInt 8 v) s t

/-- R113, R146: a write into the enabled boot overlay, and under NONE a write into a ROM window, complete and change
nothing but the reply. -/
def Obligations.OverlayAndFixedRomWritesAreIgnored : Prop :=
  ∀ (s : State) (a : Addr) (v : Int), ByteValue v →
    (s.bootEnabled = true → InRange 0x0000 0x00FF a → decodeWrite s.mode a v = .wrBoot a v ∧
      exec (.wrBoot a v) s = .next (s.withReply .done)) ∧
    (s.variant = .none → InRange 0x0000 0x7FFF a → (s.bootEnabled = false ∨ 0x0100 ≤ a.toNat) →
      decodeWrite s.mode a v = .wrRomNone a v ∧ exec (.wrRomNone a v) s = .next (s.withReply .done))

/-- R149, R156, R158: under MBC1 and MBC3 a write to 0x0000..0x1FFF that the overlay does not take enables external RAM when
its low nibble is 0xA and disables it otherwise; so does an MBC3 write to 0x4000..0x5FFF under the setting SET of the
parameter MBC3_RAMEN2, while under FLIP it flips the enable; nothing else changes. -/
def Obligations.RamEnableWrites : Prop :=
  ∀ (s : State) (a : Addr) (v : Int), ByteValue v →
    (InRange 0x0000 0x1FFF a → (s.bootEnabled = false ∨ 0x0100 ≤ a.toNat) →
      (s.variant = .mbc1 → decodeWrite s.mode a v = .wrMbc1Ramen a v ∧
        exec (.wrMbc1Ramen a v) s = .next ((s.withRamEnabled (decide (v % 16 = 10))).withReply .done)) ∧
      (s.variant = .mbc3 → decodeWrite s.mode a v = .wrMbc3Ramen a v ∧
        exec (.wrMbc3Ramen a v) s = .next ((s.withRamEnabled (decide (v % 16 = 10))).withReply .done))) ∧
    (InRange 0x4000 0x5FFF a → s.variant = .mbc3 →
      decodeWrite s.mode a v = .wrMbc3Ramen2 a v ∧
      exec (.wrMbc3Ramen2 a v) s = .next ((s.withRamEnabled (
        match s.params.ramEn2 with
        | .set => decide (v % 16 = 10)
        | .flip => !s.ramEnabled)).withReply .done))

/-- R150, R151, R152: the MBC1 bank registers, under MBC1. A write to 0x2000..0x3FFF keeps the upper bits of the ROM bank register and
gives it the low 5 bits of the value, a zero field becoming 1. A write to 0x4000..0x5FFF gives bits 1:0 of the value to the
upper bits of that register in high-ROM banking mode and to the RAM bank register in RAM banking mode. A write to
0x6000..0x7FFF sets the mode from bit 0, 0 for high-ROM and 1 for RAM banking. Nothing else changes. -/
def Obligations.Mbc1BankWrites : Prop :=
  ∀ (s : State) (a : Addr) (v : Int), s.variant = .mbc1 → ByteValue v →
    (InRange 0x2000 0x3FFF a →
      decodeWrite s.mode a v = .wrMbc1Romlo a v ∧
      ∃ t, exec (.wrMbc1Romlo a v) s = .next t ∧ t = (s.withRomBank t.romBank).withReply .done ∧
        t.romBank.toNat = s.romBank.toNat / 32 * 32 + (if v % 32 = 0 then 1 else (v % 32).toNat)) ∧
    (InRange 0x4000 0x5FFF a →
      decodeWrite s.mode a v = .wrMbc1Hi a v ∧
      ∃ t, exec (.wrMbc1Hi a v) s = .next t ∧
        (s.mbc1Mode = .highRom → t = (s.withRomBank t.romBank).withReply .done ∧
          t.romBank.toNat = (v % 4).toNat * 32 + s.romBank.toNat % 32) ∧
        (s.mbc1Mode = .ram → t = (s.withRamBank t.ramBank).withReply .done ∧ t.ramBank.toNat = (v % 4).toNat)) ∧
    (InRange 0x6000 0x7FFF a →
      decodeWrite s.mode a v = .wrMbc1Mode a v ∧
      exec (.wrMbc1Mode a v) s =
        .next ((s.withMbc1Mode (if v % 2 = 1 then .ram else .highRom)).withReply .done))

/-- R157, R159: under MBC3 the ROM bank register takes the low 7 bits of the value, 0 becoming 1, whatever the address in the
window; the RAM bank register takes its low 2 bits; nothing else changes. -/
def Obligations.Mbc3BankWrites : Prop :=
  ∀ (s : State) (a : Addr) (v : Int), s.variant = .mbc3 → ByteValue v →
    (InRange 0x2000 0x3FFF a →
      decodeWrite s.mode a v = .wrMbc3Romb a v ∧
      ∃ t, exec (.wrMbc3Romb a v) s = .next t ∧ t = (s.withRomBank t.romBank).withReply .done ∧
        t.romBank.toNat = (if v % 128 = 0 then 1 else (v % 128).toNat)) ∧
    (InRange 0x6000 0x7FFF a →
      decodeWrite s.mode a v = .wrMbc3Ramb a v ∧
      ∃ t, exec (.wrMbc3Ramb a v) s = .next t ∧ t = (s.withRamBank t.ramBank).withReply .done ∧
        t.ramBank.toNat = (v % 4).toNat)

/-- R148, R154, R161, R164: a committed external RAM write stores one byte in the bank in effect and appends one event for
it; a write while the RAM is disabled is dropped and changes nothing. -/
def Obligations.ExternalRamWritesStoreAndEmit : Prop :=
  ∀ (s : State) (a : Addr) (v : Int), ByteValue v → InRange 0xA000 0xBFFF a →
    (s.variant = .none → decodeWrite s.mode a v = .wrEramNone a v ∧
      ∃ t, exec (.wrEramNone a v) s = .next t ∧ t.reply = some .done ∧
        t.events = s.events ++ [⟨0, a.toNat - 0xA000, BitVec.ofInt 8 v⟩] ∧
        StoresByte (.eram 0) (a.toNat - 0xA000) (BitVec.ofInt 8 v) s (t.withEvents s.events)) ∧
    (s.variant = .mbc1 → decodeWrite s.mode a v = .wrEramMbc1 a v ∧
      (s.ramEnabled = false → exec (.wrEramMbc1 a v) s = .next (s.withReply .done)) ∧
      (s.ramEnabled = true → ∀ k, k = (if s.mbc1Mode = .ram then s.ramBank.toNat else 0) →
        ∃ t, exec (.wrEramMbc1 a v) s = .next t ∧ t.reply = some .done ∧
          t.events = s.events ++ [⟨k, a.toNat - 0xA000, BitVec.ofInt 8 v⟩] ∧
          StoresByte (.eram k) (a.toNat - 0xA000) (BitVec.ofInt 8 v) s (t.withEvents s.events))) ∧
    (s.variant = .mbc3 → decodeWrite s.mode a v = .wrEramMbc3 a v ∧
      (s.ramEnabled = false → exec (.wrEramMbc3 a v) s = .next (s.withReply .done)) ∧
      (s.ramEnabled = true →
        ∃ t, exec (.wrEramMbc3 a v) s = .next t ∧ t.reply = some .done ∧
          t.events = s.events ++ [⟨s.ramBank.toNat, a.toNat - 0xA000, BitVec.ofInt 8 v⟩] ∧
          StoresByte (.eram s.ramBank.toNat) (a.toNat - 0xA000) (BitVec.ofInt 8 v) s (t.withEvents s.events)))

/-- R122, R123, R124, R180, R246: the three IO writes with a side effect. Each stores its byte in the IO block. TAC sets the
enable from bit 2 and the divisor from bits 1:0, leaving the tick counter, DIV and TIMA alone. DMA appends a transfer of
that page with no cycle elapsed, copying no byte. BOOT_OFF disables the overlay, whatever the value. Nothing else changes. -/
def Obligations.IoWritesWithSideEffects : Prop :=
  ∀ (s : State) (v : Int), ByteValue v →
    (decodeWrite s.mode 0xFF07#16 v = .wrIoTac v ∧
      ∃ t, exec (.wrIoTac v) s = .next t ∧ t.reply = some .done ∧
        t.tEnabled = decide (v / 4 % 2 = 1) ∧
        t.tDivisor = (if v % 4 = 0 then 1024 else if v % 4 = 1 then 16 else if v % 4 = 2 then 64 else 256) ∧
        StoresByte .io 0x07 (BitVec.ofInt 8 v) s (t.withTimer s.tEnabled s.tDivisor)) ∧
    (decodeWrite s.mode 0xFF46#16 v = .wrIoDma v ∧
      ∃ t, exec (.wrIoDma v) s = .next t ∧ t.reply = some .done ∧
        t.dma = s.dma ++ [⟨BitVec.ofInt 8 v, 0⟩] ∧
        StoresByte .io 0x46 (BitVec.ofInt 8 v) s (t.withDma s.dma)) ∧
    (decodeWrite s.mode 0xFF50#16 v = .wrIoBootoff v ∧
      ∃ t, exec (.wrIoBootoff v) s = .next t ∧ t.reply = some .done ∧ t.bootEnabled = false ∧
        StoresByte .io 0x50 (BitVec.ofInt 8 v) s (t.withBootEnabled s.bootEnabled))

/-! ## Interrupt line and host commands -/

/-- R272, R275: IRQ_READ returns the pending set and the lowest-numbered pending flag, or none, and clears nothing. -/
def Obligations.IrqReadReportsTheLowestPendingFlag : Prop :=
  ∀ s : State, ∃ h : Option Irq, exec .irqRead s = .next (s.withReply (.irq s.irq h)) ∧
    (h = none ↔ s.irq = 0#5) ∧
    ∀ k, h = some k ↔ (s.irq.getLsbD k.bit = true ∧ ∀ j : Irq, s.irq.getLsbD j.bit = true → k.bit ≤ j.bit)

/-- R270, R273, R274: IRQ_CLEAR clears exactly the flags of its mask and IRQ_RAISE sets exactly its flag; a flag already
there stays as it is, and nothing else changes. -/
def Obligations.IrqClearAndRaiseAffectTheirBits : Prop :=
  (∀ (s : State) (m : BitVec 5), ∃ t, exec (.irqClear m) s = .next t ∧ t = (s.withIrq t.irq).withReply .done ∧
    ∀ b, b < 5 → t.irq.getLsbD b = (s.irq.getLsbD b && !m.getLsbD b)) ∧
  (∀ (s : State) (k : Irq), ∃ t, exec (.irqRaise k) s = .next t ∧ t = (s.withIrq t.irq).withReply .done ∧
    ∀ b, b < 5 → t.irq.getLsbD b = (s.irq.getLsbD b || decide (b = k.bit)))

/-- R277, R214, R247, R278, R84, R304: SET_BOOT_OVERLAY sets the flag to its value; FRAME_READ returns the published grid and its
number; TIMER_CONFIGURE sets the enable and the divisor when the divisor is a power of two from 1 to 1024 and is refused
with BAD_OPERAND otherwise; SET_BUTTONS is refused with UNMODELLED_BUTTONS and the reserved command with RESERVED_CMD, each
for every ADDR field and operand, which is the order of log entry 14 (DEDUCED). Nothing else changes. -/
def Obligations.HostCommandEffects : Prop :=
  ∀ s : State,
    (∀ f, exec (.setBootOverlay f) s = .next ((s.withBootEnabled f).withReply .done)) ∧
    (exec .frameRead s = .next (s.withReply (.frame s.front s.frontSeq))) ∧
    (∀ en n, PowerOfTwoTo1024 n → exec (.timerConfigure en n) s = .next ((s.withTimer en n).withReply .done)) ∧
    (∀ en n, ¬ PowerOfTwoTo1024 n →
      exec (.timerConfigure en n) s = .next (takeFault (.refused .badOperand 0xA0000#20) s)) ∧
    (∀ a x, exec (.setButtons a x) s = .next (takeFault (.refused .unmodelledButtons (mkWord 0xE#4 a)) s)) ∧
    (∀ a x, exec (.reserved a x) s = .next (takeFault (.refused .reservedCmd (mkWord 0xF#4 a)) s))

/-- R165: RAM_EXPORT returns RAM_BANKS * 0x2000 bytes, byte `k * 0x2000 + off` of which is byte `off` of bank k, whatever
the gate, and changes nothing. -/
def Obligations.RamExportIsTheBanksInOrder : Prop :=
  ∀ s : State, ∃ bytes : List Byte, exec .ramExport s = .next (s.withReply (.ram bytes)) ∧
    bytes.length = Config.ramBanks s.variant * 0x2000 ∧
    ∀ k off, k < Config.ramBanks s.variant → off < 0x2000 → bytes[k * 0x2000 + off]? = some (s.byteAt (.eram k) off)

/-- R166, R300: RAM_IMPORT of a list of the wrong length faults with SIZE_MISMATCH, which records external RAM, the list's
length and the required one (that it records all three is log entry 18, DEDUCED); one of the right length replaces every
bank's bytes, emits no event and changes nothing else. -/
def Obligations.RamImportReplacesEveryBank : Prop :=
  ∀ (s : State) (bytes : List Byte),
    (bytes.length ≠ Config.ramBanks s.variant * 0x2000 →
      exec (.ramImport bytes) s =
        .next (takeFault (.sizeMismatch .eram bytes.length (some (Config.ramBanks s.variant * 0x2000))) s)) ∧
    (bytes.length = Config.ramBanks s.variant * 0x2000 →
      ∃ t, exec (.ramImport bytes) s = .next t ∧ t = (s.withEram t.eram).withReply .done ∧
        ∀ k off, k < Config.ramBanks s.variant → off < 0x2000 →
          bytes[k * 0x2000 + off]? = some (t.byteAt (.eram k) off))

/-- R166, R165: exporting external RAM from one machine and importing it into another of the same variant gives the other
the same external RAM. -/
def Obligations.RamExportImportRoundTrip : Prop :=
  ∀ s u t : State, s.Inv → u.variant = s.variant →
    ∀ bytes, exec .ramExport s = .next (s.withReply (.ram bytes)) →
      exec (.ramImport bytes) u = .next t → t.eram = s.eram

/-! ## DMA -/

/-- R182, R185, R336: BUS_STEP(n) completes; it changes OAM, the transfer list and the count of draws (the model's) alone;
every in-flight transfer is n cycles older, and those that reach 162 cycles are gone; and an OAM byte that no transfer's
schedule lands within the n cycles keeps its value. -/
def Obligations.BusStepAdvancesTransfersAndWritesOnlyOam : Prop :=
  ∀ (n : Nat) (s : State), (∀ e ∈ s.dma, e.elapsed < 162) →
    ∃ t, exec (.busStep n) s = .next t ∧
      t = (((s.withOam t.oam).withDma t.dma).withDraws t.draws).withReply .done ∧
      t.dma = ((s.dma.map fun e => (⟨e.page, e.elapsed + n⟩ : Transfer)).filter fun e => decide (e.elapsed < 162)) ∧
      ∀ i, (∀ e ∈ s.dma, ¬ (e.elapsed < s.params.landAt i ∧ s.params.landAt i ≤ e.elapsed + n)) →
        t.oam.read i = s.oam.read i

/-- R182, R248: one BUS_STEP(a + b) is BUS_STEP(a) followed by BUS_STEP(b), and timer ticks can be split in the same way. -/
def Obligations.BusAndTimerStepsSplit : Prop :=
  (∀ (a b : Nat) (s t u : State), exec (.busStep a) s = .next t → exec (.busStep b) t = .next u →
    exec (.busStep (a + b)) s = .next u) ∧
  ∀ (a b : Nat) (s t u : State), exec (.timerTick a) s = .next t → exec (.timerTick b) t = .next u →
    exec (.timerTick (a + b)) s = .next u

/-- R181, R188: a DMA source address is `P * 0x100 + i` with no wrap, it never lies in the gap, and the source read never
faults: every window it reaches returns a byte, changing nothing but the count of draws (the model's). -/
def Obligations.DmaSourceReadsNeverFault : Prop :=
  ∀ (s : State) (page : Byte) (i : Nat), i < 0xA0 →
    (dmaSource page i).toNat = page.toNat * 0x100 + i ∧
    ¬ InRange 0xFEA0 0xFEFF (dmaSource page i) ∧
    ∃ b n, memRead (dmaSource page i) s = .ok (b, s.withDraws n)

/-- R181 to R186, R188, R142: under every schedule that R184 (a) to (c) allow, n cycles after a transfer has been triggered
and whatever older transfers are in flight: the transfer is in flight after 161 cycles, and none is after 162. A byte i whose
DMA_LAND(i) has been reached holds its source byte: the byte the bus read gives, at a count of draws between the first and
the last (the counter is the model's, log entry 12), over any older transfer that landed the same byte; so it is the source
byte itself where the read draws nothing. With no older transfer the bytes are the successive bus reads, in address order,
each from the count of draws that the read before it left. A transfer from OAM itself (page 0xFE) leaves every OAM byte as
the older transfers alone would. With no older transfer a byte not yet reached holds its earlier value. -/
def Obligations.TransferLandsByScheduleAndCompletesAt162 : Prop :=
  ∀ (s : State) (older : List Transfer) (page : Byte) (n : Nat), s.params.Legal →
    (∀ e ∈ older, e.elapsed < 162) → s.dma = older ++ [⟨page, 0⟩] → n ≤ 162 →
    ∃ t, exec (.busStep n) s = .next t ∧
      (n ≤ 161 → t.dma.getLast? = some ⟨page, n⟩) ∧
      (n = 162 → t.dma = []) ∧
      (page ≠ 0xFE#8 → ∀ i, i < 0xA0 → s.params.landAt i ≤ n →
        ∃ k s', s.draws ≤ k ∧ memRead (dmaSource page i) (s.withDraws k) = .ok (t.oam.read i, s') ∧
          s'.draws ≤ t.draws) ∧
      (page ≠ 0xFE#8 → ∀ src : Nat → Byte,
        (∀ i, i < 0xA0 → memRead (dmaSource page i) s = .ok (src i, s)) →
        ∀ i, i < 0xA0 → s.params.landAt i ≤ n → t.oam.read i = src i) ∧
      (page = 0xFE#8 → ∃ u, exec (.busStep n) (s.withDma older) = .next u ∧ ∀ i, t.oam.read i = u.oam.read i) ∧
      (older = [] → ∀ (src : Nat → Byte) (d : Nat → Nat), d 0 = s.draws →
        (∀ i, i < 0xA0 → memRead (dmaSource page i) (s.withDraws (d i)) = .ok (src i, s.withDraws (d (i + 1)))) →
        ∀ i, i < 0xA0 → s.params.landAt i ≤ n → t.oam.read i = src i) ∧
      (older = [] → ∀ i, i < 0xA0 → n < s.params.landAt i → t.oam.read i = s.oam.read i)

/-! ## Timer -/

/-- R240, R241, R242, R243: TIMER_TICK(n) completes; it changes the tick counter, DIV, TIMA and the TIMER flag alone; the
counter advances by n modulo 1024 and DIV by the number of multiples of 256 passed, whatever the enable. -/
def Obligations.TimerTickCountsAndTouchesOnlyTheTimer : Prop :=
  ∀ (n : Nat) (s : State), ∃ t, exec (.timerTick n) s = .next t ∧
    t = (((s.withTcount t.tcount).withIo t.io).withIrq t.irq).withReply .done ∧
    t.tcount.toNat = (s.tcount.toNat + n) % 1024 ∧
    (t.io.read 0x04).toNat = ((s.io.read 0x04).toNat + (s.tcount.toNat + n) / 256 - s.tcount.toNat / 256) % 256 ∧
    (∀ off, off ≠ 0x04 → off ≠ 0x05 → t.io.read off = s.io.read off) ∧
    (t.irq = s.irq ∨ t.irq = s.irq ||| 0b00100#5)

/-- R242, R244, R245: in one timer cycle TIMA counts when the timer is enabled and the counter comes to a multiple of the
divisor; past 0xFF it takes the value of TMA at that cycle and TIMER is raised; otherwise it keeps its value and no flag
changes. -/
def Obligations.TimaCountsReloadsAndRaises : Prop :=
  ∀ (s : State), ∃ t, exec (.timerTick 1) s = .next t ∧
    (s.tEnabled = true → (s.tcount.toNat + 1) % 1024 % s.tDivisor = 0 →
      (s.io.read 0x05 = 0xFF#8 → t.io.read 0x05 = s.io.read 0x06 ∧ t.irq = s.irq ||| 0b00100#5) ∧
      (s.io.read 0x05 ≠ 0xFF#8 → t.io.read 0x05 = s.io.read 0x05 + 1#8 ∧ t.irq = s.irq)) ∧
    (s.tEnabled = false ∨ (s.tcount.toNat + 1) % 1024 % s.tDivisor ≠ 0 →
      t.io.read 0x05 = s.io.read 0x05 ∧ t.irq = s.irq)

/-- R244, R249, R250: over n cycles. While the timer is disabled TIMA never changes and no interrupt is raised. With a legal
divisor N and no overflow on the way, TIMA advances by the number of multiples of N that the counter passes: the wrap from
1023 to 0 neither skips nor adds a count. -/
def Obligations.TimaOverManyCycles : Prop :=
  ∀ (n : Nat) (s : State),
    (s.tEnabled = false →
      ∃ t, exec (.timerTick n) s = .next t ∧ t.io.read 0x05 = s.io.read 0x05 ∧ t.irq = s.irq) ∧
    (s.tEnabled = true → PowerOfTwoTo1024 s.tDivisor →
      (s.io.read 0x05).toNat + ((s.tcount.toNat + n) / s.tDivisor - s.tcount.toNat / s.tDivisor) ≤ 255 →
      ∃ t, exec (.timerTick n) s = .next t ∧ t.irq = s.irq ∧
        (t.io.read 0x05).toNat =
          (s.io.read 0x05).toNat + ((s.tcount.toNat + n) / s.tDivisor - s.tcount.toNat / s.tDivisor))

/-! ## Scanline processor -/

/-- R201, R211, R212, R215, R217, R336: PPU_STEP(n) completes; it changes its own mode, count and line, the grids, the frame
number, the VBLANK flag and the LY byte alone, and the LY byte ends as LY(S). -/
def Obligations.PpuStepWritesOnlyItsState : Prop :=
  ∀ (n : Nat) (s : State), ∃ t, exec (.ppuStep n) s = .next t ∧
    t = (((((s.withPpu t.ppuMode t.ppuElapsed t.ppuLine).withScratch t.scratch).withFront t.front t.frontSeq).withIrq
      t.irq).withIo t.io).withReply .done ∧
    (∀ off, off ≠ 0x44 → t.io.read off = s.io.read off) ∧
    (t.io.read 0x44 = BitVec.ofNat 8
      (if t.ppuMode = .vblank then 144 + 10 * t.ppuElapsed / s.params.vblankCycles else t.ppuLine)) ∧
    (t.irq = s.irq ∨ t.irq = s.irq ||| 0b00001#5)

/-- R211: after a PPU_STEP of a machine that meets the invariant, LY is 0..143 outside VBLANK and 144..153 in VBLANK. -/
def Obligations.LyRange : Prop :=
  ∀ (n : Nat) (s t : State), s.Inv → exec (.ppuStep n) s = .next t →
    (t.ppuMode ≠ .vblank → (t.io.read 0x44).toNat ≤ 143) ∧
    (t.ppuMode = .vblank → 144 ≤ (t.io.read 0x44).toNat ∧ (t.io.read 0x44).toNat ≤ 153)

/-- R200 to R206: within a mode a PPU_STEP only counts; a step that reaches the duration exactly takes the one transition
and leaves no remainder. -/
def Obligations.ModeTransitionsAtTheirDurations : Prop :=
  ∀ (n : Nat) (s : State), ∃ t, exec (.ppuStep n) s = .next t ∧
    (s.ppuElapsed + n < modeCycles s.params s.ppuMode →
      t.ppuMode = s.ppuMode ∧ t.ppuElapsed = s.ppuElapsed + n ∧ t.ppuLine = s.ppuLine ∧ t.scratch = s.scratch ∧
      t.front = s.front ∧ t.frontSeq = s.frontSeq ∧ t.irq = s.irq) ∧
    (s.ppuMode = .oamRead → s.ppuElapsed + n = 80 →
      t.ppuMode = .vramRead ∧ t.ppuElapsed = 0 ∧ t.ppuLine = s.ppuLine ∧ t.scratch = s.scratch ∧
      t.front = s.front ∧ t.frontSeq = s.frontSeq ∧ t.irq = s.irq) ∧
    (s.ppuMode = .vramRead → s.ppuElapsed + n = 172 →
      t.ppuMode = .hblank ∧ t.ppuElapsed = 0 ∧ t.ppuLine = s.ppuLine ∧
      t.front = s.front ∧ t.frontSeq = s.frontSeq ∧ t.irq = s.irq) ∧
    (s.ppuMode = .hblank → s.ppuElapsed + n = 204 → s.ppuLine < 143 →
      t.ppuMode = .oamRead ∧ t.ppuElapsed = 0 ∧ t.ppuLine = s.ppuLine + 1 ∧ t.scratch = s.scratch ∧
      t.front = s.front ∧ t.frontSeq = s.frontSeq ∧ t.irq = s.irq) ∧
    (s.ppuMode = .hblank → s.ppuElapsed + n = 204 → s.ppuLine = 143 → 0 < s.params.vblankCycles →
      t.ppuMode = .vblank ∧ t.ppuElapsed = 0 ∧ t.ppuLine = 144 ∧ t.scratch = s.scratch ∧
      t.front = s.scratch ∧ t.frontSeq = s.frontSeq + 1 ∧ t.irq = s.irq ||| 0b00001#5) ∧
    (s.ppuMode = .vblank → s.ppuElapsed + n = s.params.vblankCycles →
      t.ppuMode = .oamRead ∧ t.ppuElapsed = 0 ∧ t.ppuLine = 0 ∧ t.scratch = s.scratch ∧
      t.front = s.front ∧ t.frontSeq = s.frontSeq ∧ t.irq = s.irq)

/-- R207 to R210: the step that ends VRAM_READ renders the current line: pixel x is bit 7 - c of the tile row's two bytes,
the high byte giving color bit 1, for the tile that the scrolled map cell names; every other line keeps its pixels. -/
def Obligations.RenderedLineFollowsTheTileMap : Prop :=
  ∀ (n : Nat) (s : State), s.ppuMode = .vramRead → s.ppuElapsed + n = 172 → s.ppuLine ≤ 143 →
    ∃ t, exec (.ppuStep n) s = .next t ∧
      (∀ y x, y ≠ s.ppuLine → t.scratch.pixel y x = s.scratch.pixel y x) ∧
      ∀ x, x < 160 → ∀ (y xx idx base row : Nat),
        y = (s.ppuLine + (s.io.read 0x42).toNat) % 256 →
        xx = (x + (s.io.read 0x43).toNat) % 256 →
        idx = (s.vram.read ((if (s.io.read 0x40).getLsbD 3 then 0x1C00 else 0x1800) + y / 8 * 32 + xx / 8)).toNat →
        base = (if (s.io.read 0x40).getLsbD 4 then idx * 16 else 0x0800 + (idx + 128) % 256 * 16) →
        row = base + 2 * (y % 8) →
        (t.scratch.pixel s.ppuLine x).toNat =
          2 * ((s.vram.read (row + 1)).getLsbD (7 - xx % 8)).toNat + ((s.vram.read row).getLsbD (7 - xx % 8)).toNat

/-- R218: a PPU_STEP can be split. -/
def Obligations.PpuStepSplits : Prop :=
  ∀ (a b : Nat) (s t u : State), s.Inv → exec (.ppuStep a) s = .next t → exec (.ppuStep b) t = .next u →
    exec (.ppuStep (a + b)) s = .next u

/-- R201, R342: 456 cycles from the start of a line before the last lead to the start of the next line, with no remainder,
no interrupt and no publication. -/
def Obligations.OneLineTakes456Cycles : Prop :=
  ∀ s : State, s.ppuMode = .oamRead → s.ppuElapsed = 0 → s.ppuLine < 143 →
    ∃ t, exec (.ppuStep 456) s = .next t ∧ t.ppuMode = .oamRead ∧ t.ppuElapsed = 0 ∧ t.ppuLine = s.ppuLine + 1 ∧
      t.irq = s.irq ∧ t.front = s.front ∧ t.frontSeq = s.frontSeq ∧
      t.io.read 0x44 = BitVec.ofNat 8 (s.ppuLine + 1)

/-- R205, R216, R218, R342: from the start of line 0 the 144 lines take 65664 cycles, at whose end VBLANK is raised and the
frame published, exactly once: one cycle before, neither has happened; and after VBLANK_CYCLES more the processor is at the
start of line 0 again, with nothing more raised or published. -/
def Obligations.OneFramePublishesOnce : Prop :=
  ∀ s : State, 0 < s.params.vblankCycles → s.ppuMode = .oamRead → s.ppuElapsed = 0 → s.ppuLine = 0 →
    (∃ t, exec (.ppuStep 65663) s = .next t ∧ t.frontSeq = s.frontSeq ∧ t.front = s.front ∧ t.irq = s.irq ∧
      t.ppuMode = .hblank ∧ t.ppuLine = 143) ∧
    (∃ t, exec (.ppuStep 65664) s = .next t ∧ t.frontSeq = s.frontSeq + 1 ∧ t.front = t.scratch ∧
      t.irq = s.irq ||| 0b00001#5 ∧ t.ppuMode = .vblank ∧ t.ppuElapsed = 0 ∧ t.ppuLine = 144) ∧
    (∃ t, exec (.ppuStep (65664 + s.params.vblankCycles)) s = .next t ∧ t.frontSeq = s.frontSeq + 1 ∧
      t.front = t.scratch ∧ t.irq = s.irq ||| 0b00001#5 ∧ t.ppuMode = .oamRead ∧ t.ppuElapsed = 0 ∧ t.ppuLine = 0)

/-! ## The cycle fan-out -/

/-- R276: SYS_STEP(n) completes; it hands the whole delta to each of the three devices once, in one of the six orders (a
free value, log entry 11). -/
def Obligations.SysStepAdvancesEveryDeviceOnce : Prop :=
  ∀ (n : Nat) (s : State), ∃ (o : DeviceOrder) (t : State),
    exec (.sysStep n) s = .next t ∧
    t = (o.devices.foldl (fun u d =>
      match d with
      | .bus => busStep n u
      | .ppu => ppuStep n u
      | .timer => timerTick n u) (s.withSysSteps (s.sysSteps + 1))).withReply .done ∧
    o.devices.Perm [.bus, .ppu, .timer]

/-- R336: with no transfer from page 0xFF in flight the six orders give the same state, so a program that avoids DMA from
page 0xFF sees the same result under every DEVICE_ORDER; with such a transfer the order can be observed: the byte of TIMA
that lands in OAM can differ. -/
def Obligations.DeviceOrderIsObservableOnlyThroughPageFF : Prop :=
  (∀ (n : Nat) (s : State) (o p : DeviceOrder), s.Inv → (∀ e ∈ s.dma, e.page ≠ 0xFF#8) →
    sysStepIn o n s = sysStepIn p n s) ∧
  ∃ (s : State) (n : Nat), s.Inv ∧
    (sysStepIn .busPpuTimer n s).oam.read 5 ≠ (sysStepIn .timerBusPpu n s).oam.read 5

/-- R309 (a): the pending flags after a SYS_STEP do not depend on the order, whatever transfers are in flight. -/
def Obligations.PendingFlagsDoNotDependOnTheOrder : Prop :=
  ∀ (n : Nat) (s : State) (o p : DeviceOrder), (sysStepIn o n s).irq = (sysStepIn p n s).irq

/-! ## The whole machine -/

/-- The invariant of the machine (R40, R24, R141) is kept by every step. -/
def Obligations.EveryStepKeepsTheInvariant : Prop :=
  ∀ s t : State, s.Inv → step s = .next t → t.Inv

/-- The reset state meets the invariant. -/
def Obligations.ResetMeetsTheInvariant : Prop := State.reset.Inv

/-- R25, R50, R142: no transaction changes the variant, the boot overlay's bytes, the ROM or the parameters. -/
def Obligations.CartridgeAndOverlayBytesNeverChange : Prop :=
  ∀ s t : State, step s = .next t →
    t.variant = s.variant ∧ t.boot = s.boot ∧ t.rom = s.rom ∧ t.romLen = s.romLen ∧ t.params = s.params

/-- R26, R123, R277: only a write to 0xFF50 and SET_BOOT_OVERLAY change the overlay flag, and only SET_BOOT_OVERLAY sets it. -/
def Obligations.OnlyTheHostReenablesTheOverlay : Prop :=
  ∀ s t : State, step s = .next t → t.bootEnabled ≠ s.bootEnabled →
    ∃ x rest, s.inbox = x :: rest ∧
      ((t.bootEnabled = false ∧ x.word = 0x1FF50#20) ∨ x.word = 0x60000#20)

/-- R305: no transaction clears a flag except IRQ_CLEAR, and then only a flag of its mask. -/
def Obligations.OnlyIrqClearClearsAFlag : Prop :=
  ∀ (s t : State) (b : Nat), step s = .next t → s.irq.getLsbD b = true → t.irq.getLsbD b = false →
    ∃ rest m, s.inbox = ⟨0x80000#20, .int m⟩ :: rest ∧ 0 ≤ m ∧ m.toNat.testBit b = true

/-- R36, R164: the event list only grows, by at most one event a transaction, and only by an external RAM write, whose bank,
offset and value it names. -/
def Obligations.EventsComeFromExternalRamWrites : Prop :=
  ∀ s t : State, step s = .next t →
    t.events = s.events ∨
    ∃ a v rest k, s.inbox = ⟨mkWord 0x1#4 a, .int v⟩ :: rest ∧ InRange 0xA000 0xBFFF a ∧ ByteValue v ∧
      t.events = s.events ++ [⟨k, a.toNat - 0xA000, BitVec.ofInt 8 v⟩] ∧
      t.byteAt (.eram k) (a.toNat - 0xA000) = BitVec.ofInt 8 v

/-- R155: under MBC1 the bank in effect never has its low five bits zero. -/
def Obligations.Mbc1NeverSelectsBankZero : Prop :=
  ∀ s t : State, s.Inv → step s = .next t → t.variant = .mbc1 → effectiveRomBank t % 32 ≠ 0

/-! ## Construction -/

/-- R331, R38: a construction that succeeds was given regions of the right lengths and an image that suits its variant, and
its machine meets the invariant, reads its images back and holds the values of R38. -/
def Obligations.ConstructionBuildsTheMachine : Prop :=
  ∀ (p : Params) (documented boot img : List Byte) (init : InitMem) (s : State), p.Legal →
    construct p documented boot img init = .ok s →
    s.Inv ∧ s.params = p ∧ s.romLen = img.length ∧ boot.length = 0x0100 ∧
    init.vram.length = 0x2000 ∧ init.wram.length = 0x2000 ∧ init.oam.length = 0xA0 ∧ init.io.length = 0x80 ∧
    init.hram.length = 0x80 ∧ init.eram.length = Config.ramBanks s.variant * 0x2000 ∧
    imageFits s.variant img.length = true ∧
    classifyCart documented (img.getD 0x0147 0x00#8) = .ok s.variant ∧
    (∀ i, s.boot.read i = boot.getD i 0x00#8) ∧ (∀ i, s.rom.read i = img.getD i 0x00#8) ∧
    (∀ i, s.vram.read i = init.vram.getD i 0x00#8) ∧ (∀ i, s.wram.read i = init.wram.getD i 0x00#8) ∧
    (∀ i, s.oam.read i = init.oam.getD i 0x00#8) ∧ (∀ i, s.io.read i = init.io.getD i 0x00#8) ∧
    (∀ i, s.hram.read i = init.hram.getD i 0x00#8) ∧ (∀ i, s.eram.read i = init.eram.getD i 0x00#8) ∧
    s.bootEnabled = true ∧ s.romBank = 0x01#7 ∧ s.ramBank = 0#2 ∧ s.mbc1Mode = .highRom ∧ s.ramEnabled = false ∧
    s.dma = [] ∧ s.ppuMode = .oamRead ∧ s.ppuElapsed = 0 ∧ s.ppuLine = 0 ∧
    (∀ y x, s.scratch.pixel y x = 0#2 ∧ s.front.pixel y x = 0#2) ∧ s.frontSeq = 0 ∧
    s.tcount = 0#10 ∧ s.tEnabled = false ∧ s.tDivisor = 1024 ∧ s.irq = 0#5 ∧ s.events = [] ∧ s.fault = none

/-- R331, R140, R141: the first check that fails is the one reported, in the order: the overlay's length, the image's least
length, the header class, the image's length for the variant, the regions' lengths; with no check failing there is a
machine. That a banked image of the wrong length records no required length is log entry 18 (DEDUCED). -/
def Obligations.ConstructionReportsTheFirstFailure : Prop :=
  ∀ (p : Params) (documented boot img : List Byte) (init : InitMem) (t : Nat), t = (img.getD 0x0147 0x00#8).toNat →
    (boot.length ≠ 0x0100 →
      construct p documented boot img init = .error (.sizeMismatch .boot boot.length (some 0x0100))) ∧
    (boot.length = 0x0100 → img.length < 0x0148 →
      construct p documented boot img init = .error (.sizeMismatch .rom img.length (some 0x0148))) ∧
    (boot.length = 0x0100 → 0x0148 ≤ img.length → ¬ t ≤ 3 → ¬ (15 ≤ t ∧ t ≤ 19) →
      construct p documented boot img init =
        .error (if BitVec.ofNat 8 t ∈ documented then .unsupportedCart (BitVec.ofNat 8 t)
          else .invalidCart (BitVec.ofNat 8 t))) ∧
    (boot.length = 0x0100 → 0x0148 ≤ img.length → t = 0 → img.length ≠ 0x8000 →
      construct p documented boot img init = .error (.sizeMismatch .rom img.length (some 0x8000))) ∧
    (boot.length = 0x0100 → 0x0148 ≤ img.length → (1 ≤ t ∧ t ≤ 3 ∨ 15 ≤ t ∧ t ≤ 19) →
      ¬ (img.length % 0x4000 = 0 ∧ 2 * 0x4000 ≤ img.length ∧ img.length ≤ 128 * 0x4000) →
      construct p documented boot img init = .error (.sizeMismatch .rom img.length none)) ∧
    (boot.length = 0x0100 →
      (t = 0 ∧ img.length = 0x8000 ∨
       (1 ≤ t ∧ t ≤ 3 ∨ 15 ≤ t ∧ t ≤ 19) ∧
        img.length % 0x4000 = 0 ∧ 2 * 0x4000 ≤ img.length ∧ img.length ≤ 128 * 0x4000) →
      match [(SizedRegion.vram, init.vram.length, 0x2000), (.wram, init.wram.length, 0x2000),
          (.oam, init.oam.length, 0xA0), (.io, init.io.length, 0x80), (.hram, init.hram.length, 0x80),
          (.eram, init.eram.length, if t = 0 then 0x2000 else 4 * 0x2000)].find? (fun c => c.2.1 != c.2.2) with
      | some c => construct p documented boot img init = .error (.sizeMismatch c.1 c.2.1 (some c.2.2))
      | none => ∃ s, construct p documented boot img init = .ok s)

/-- The reset state is the machine constructed from an all-zero boot image, an all-zero image of 0x8000 bytes and all-zero
regions: the model's choice of the host's arguments (log entries 5 and 6). -/
def Obligations.ResetIsTheZeroConstruction : Prop :=
  construct Config.defaultParams Config.defaultDocumentedTypes (List.replicate 0x0100 0x00#8)
    (List.replicate 0x8000 0x00#8)
    ⟨List.replicate 0x2000 0x00#8, List.replicate 0x2000 0x00#8, List.replicate 0xA0 0x00#8,
      List.replicate 0x80 0x00#8, List.replicate 0x80 0x00#8, List.replicate 0x2000 0x00#8⟩ = .ok State.reset
end

