-- ==== Sys2Proof/Laws/Decode.lean ====
section
/-! SUPPORT. The fields of a word, the blocks of the table and the operand readers: the small facts that a proof about the
decoder cites. -/

namespace Sys2Proof

/-! ## Words -/

@[simp] theorem Txn.cmd_mkWord (c : BitVec 4) (a : Addr) (x : Operand) : (Txn.mk (mkWord c a) x).cmd = c := by
  apply BitVec.eq_of_toNat_eq
  simp only [mkWord, Txn.cmd, BitVec.toNat_append, BitVec.extractLsb'_toNat]
  rw [← Nat.shiftLeft_add_eq_or_of_lt a.isLt]
  have := a.isLt
  have := c.isLt
  simp only [Nat.shiftLeft_eq, Nat.shiftRight_eq_div_pow]
  omega

@[simp] theorem Txn.addr_mkWord (c : BitVec 4) (a : Addr) (x : Operand) : (Txn.mk (mkWord c a) x).addr = a := by
  apply BitVec.eq_of_toNat_eq
  simp only [mkWord, Txn.addr, BitVec.toNat_append, BitVec.extractLsb'_toNat]
  rw [← Nat.shiftLeft_add_eq_or_of_lt a.isLt]
  have := a.isLt
  have := c.isLt
  simp only [Nat.shiftLeft_eq, Nat.shiftRight_eq_div_pow, pow_zero, Nat.div_one]
  omega

/-- A word is made of its two fields. -/
theorem Txn.mkWord_fields (t : Txn) : mkWord t.cmd t.addr = t.word := by
  apply BitVec.eq_of_toNat_eq
  have := t.word.isLt
  simp only [mkWord, Txn.cmd, Txn.addr, BitVec.toNat_append, BitVec.extractLsb'_toNat]
  rw [Nat.shiftLeft_eq, ← Nat.shiftLeft_eq, ← Nat.shiftLeft_add_eq_or_of_lt (by omega)]
  simp only [Nat.shiftLeft_eq, Nat.shiftRight_eq_div_pow, pow_zero, Nat.div_one]
  omega

/-- A transaction is its two fields and its operand. -/
theorem Txn.eq_of_fields {t : Txn} {c : BitVec 4} {a : Addr} {x : Operand} (hc : t.cmd = c) (ha : t.addr = a)
    (hx : t.operand = x) : t = ⟨mkWord c a, x⟩ := by
  subst hc ha hx
  rw [Txn.mkWord_fields]

/-! ## Blocks -/

theorem inBlock_iff (lo hi : Nat) (a : Addr) : inBlock lo hi a = true ↔ lo ≤ a.toNat ∧ a.toNat ≤ hi := by
  simp [inBlock]

theorem Mode.shadows_iff (m : Mode) (a : Addr) : m.shadows a = true ↔ m.bootEnabled = true ∧ a.toNat ≤ 0x00FF := by
  simp [Mode.shadows]

theorem Mode.shadows_eq_false (m : Mode) {a : Addr} (h : 0x00FF < a.toNat) : m.shadows a = false := by
  simp [Mode.shadows, h]

/-! ## Operand readers -/

@[simp] theorem asNat_natCast (n : Nat) : asNat (n : Int) = .ok n := by
  simp [asNat]

@[simp] theorem asFlag_ofBool (f : Bool) : asFlag (if f then 1 else 0) = .ok f := by
  cases f <;> rfl

@[simp] theorem asMask_toNat (m : BitVec 5) : asMask (m.toNat : Int) = .ok m := by
  have : (m.toNat : Int) < 32 := by have := m.isLt; omega
  simp [asMask, this]

@[simp] theorem asIrq_bit (k : Irq) : asIrq (k.bit : Int) = .ok k := by
  cases k <;> rfl

@[simp] theorem asBytes_map (bs : List Byte) : asBytes (bs.map fun b => (b.toNat : Int)) = .ok bs := by
  induction bs with
  | nil => rfl
  | cons b bs ih =>
    have : (b.toNat : Int) < 256 := by have := b.isLt; omega
    simp [asBytes, this, ih]

/-- Every integer that reads as a natural is that natural. -/
theorem asNat_ok {v : Int} {n : Nat} (h : asNat v = .ok n) : v = n := by
  unfold asNat at h
  split at h
  · cases h; omega
  · cases h

/-- Every integer that reads as a flag is 0 or 1. -/
theorem asFlag_ok {v : Int} {f : Bool} (h : asFlag v = .ok f) : v = if f then 1 else 0 := by
  unfold asFlag at h
  split at h
  · cases h; simpa
  · split at h
    · cases h; simpa
    · cases h

/-- Every integer that reads as a mask is that mask. -/
theorem asMask_ok {v : Int} {m : BitVec 5} (h : asMask v = .ok m) : v = m.toNat := by
  unfold asMask at h
  split at h
  · cases h
    simp only [BitVec.toNat_ofNat]
    omega
  · cases h

/-- Every integer that reads as a flag number is that number. -/
theorem asIrq_ok {v : Int} {k : Irq} (h : asIrq v = .ok k) : v = k.bit := by
  unfold asIrq at h
  repeat' split at h
  all_goals cases h
  all_goals simpa [Irq.bit]

/-- Every list that reads as bytes is those bytes. -/
theorem asBytes_ok {xs : List Int} {bs : List Byte} (h : asBytes xs = .ok bs) :
    xs = bs.map fun b => (b.toNat : Int) := by
  induction xs generalizing bs with
  | nil => cases h; rfl
  | cons v vs ih =>
    unfold asBytes at h
    split at h
    · rename_i hv
      split at h
      · rename_i bs' hbs
        cases h
        rw [ih hbs]
        simp only [List.map_cons, BitVec.toNat_ofNat, List.cons.injEq, and_true]
        omega
      · cases h
    · cases h

/-- What `withInt` answers came from one integer. -/
theorem withInt_ok {α : Type} {f : Int → Except RefuseReason α} {k : α → Instr} {x : Operand} {i : Instr}
    (h : withInt f k x = .ok i) : ∃ v a, x = .int v ∧ f v = .ok a ∧ i = k a := by
  unfold withInt at h
  split at h
  · split at h
    · rename_i v _ a ha
      cases h
      exact ⟨_, a, rfl, ha, rfl⟩
    · cases h
  · cases h

/-- What `withNone` answers came from no operand. -/
theorem withNone_ok {i j : Instr} {x : Operand} (h : withNone i x = .ok j) : x = .none ∧ j = i := by
  unfold withNone at h
  split at h
  · cases h; exact ⟨rfl, rfl⟩
  · cases h

/-- What `withBytes` answers came from a list of bytes. -/
theorem withBytes_ok {x : Operand} {i : Instr} (h : withBytes x = .ok i) :
    ∃ bs, x = .list (bs.map fun b => (b.toNat : Int)) ∧ i = .ramImport bs := by
  unfold withBytes at h
  split at h
  · split at h
    · rename_i hbs
      cases h
      exact ⟨_, by rw [asBytes_ok hbs], rfl⟩
    · cases h
  · cases h

/-- What `withConfig` answers came from a flag and a natural. -/
theorem withConfig_ok {x : Operand} {i : Instr} (h : withConfig x = .ok i) :
    ∃ (en : Bool) (n : Nat), x = .pair (if en then 1 else 0) n ∧ i = .timerConfigure en n := by
  unfold withConfig at h
  split at h
  · split at h
    · rename_i he hn
      cases h
      exact ⟨_, _, by rw [asFlag_ok he, asNat_ok hn], rfl⟩
    · cases h
  · cases h

end Sys2Proof
end

