-- ==== Sys2Proof/Laws/Memory.lean ====
section
/-! SUPPORT. Sparse memory: a read after a write, and the canonical form that every operation keeps. -/

namespace Sys2Proof.Machine

@[simp] theorem Memory.read_nil (k : Nat) : Memory.read [] k = Memory.blank := rfl

theorem Memory.read_cons (c : Host.Cell) (m : Memory) (k : Nat) :
    Memory.read (c :: m) k = if c.1 = k then c.2 else Memory.read m k := rfl

theorem Memory.read_erase_same (m : Memory) (k : Nat) : (m.erase k).read k = Memory.blank := by
  induction m with
  | nil => rfl
  | cons c cs ih =>
    unfold Memory.erase at ih ⊢
    by_cases h : c.1 = k <;> simp [h, Memory.read_cons, ih]

theorem Memory.read_erase_other (m : Memory) {j k : Nat} (h : j ≠ k) : (m.erase k).read j = m.read j := by
  induction m with
  | nil => rfl
  | cons c cs ih =>
    unfold Memory.erase at ih ⊢
    by_cases hc : c.1 = k
    · have : c.1 ≠ j := fun e => h (e.symm.trans hc)
      simp [hc, Memory.read_cons, ih, Ne.symm h]
    · simp [hc, Memory.read_cons, ih]

theorem Memory.read_insert_same (m : Memory) (k : Nat) (v : Byte) : (m.insert k v).read k = v := by
  induction m with
  | nil => simp [Memory.insert, Memory.read_cons]
  | cons c cs ih =>
    unfold Memory.insert
    split
    · simp [Memory.read_cons]
    · split
      · simp [Memory.read_cons]
      · have : c.1 ≠ k := fun e => by omega
        simp [Memory.read_cons, this, ih]

theorem Memory.read_insert_other (m : Memory) {j k : Nat} (v : Byte) (h : j ≠ k) :
    (m.insert k v).read j = m.read j := by
  induction m with
  | nil => simp [Memory.insert, Memory.read_cons, Ne.symm h]
  | cons c cs ih =>
    unfold Memory.insert
    split
    · simp [Memory.read_cons, Ne.symm h]
    · split
      · rename_i hk
        have : c.1 ≠ j := fun e => h (by omega)
        simp [Memory.read_cons, this, Ne.symm h]
      · simp [Memory.read_cons, ih]

/-- A read after a write of the same offset gives the value written. -/
@[simp] theorem Memory.read_write_same (m : Memory) (k : Nat) (v : Byte) : (m.write k v).read k = v := by
  unfold Memory.write
  split
  · rename_i h; rw [h, Memory.read_erase_same]
  · exact Memory.read_insert_same m k v

/-- A write leaves every other offset alone. -/
theorem Memory.read_write_other (m : Memory) {j k : Nat} (v : Byte) (h : j ≠ k) :
    (m.write k v).read j = m.read j := by
  unfold Memory.write
  split
  · exact Memory.read_erase_other m h
  · exact Memory.read_insert_other m v h

/-- A read after a write, at any offset. -/
theorem Memory.read_write (m : Memory) (j k : Nat) (v : Byte) :
    (m.write k v).read j = if j = k then v else m.read j := by
  split
  · rename_i h; rw [h, Memory.read_write_same]
  · rename_i h; exact Memory.read_write_other m v h

theorem Memory.mem_insert {m : Memory} {k : Nat} {v : Byte} {c : Host.Cell} (h : c ∈ m.insert k v) :
    c = (k, v) ∨ c ∈ m := by
  induction m with
  | nil => simp [Memory.insert] at h; exact .inl h
  | cons d ds ih =>
    unfold Memory.insert at h
    split at h
    · rcases List.mem_cons.mp h with h | h
      · exact .inl h
      · exact .inr h
    · split at h
      · rcases List.mem_cons.mp h with h | h
        · exact .inl h
        · exact .inr (List.mem_cons_of_mem _ h)
      · rcases List.mem_cons.mp h with h | h
        · exact .inr (h ▸ List.mem_cons_self)
        · exact (ih h).imp_right (List.mem_cons_of_mem _)

/-- A write lists its own cell or cells that were listed before. -/
theorem Memory.mem_write {m : Memory} {k : Nat} {v : Byte} {c : Host.Cell} (h : c ∈ m.write k v) :
    c = (k, v) ∨ c ∈ m := by
  unfold Memory.write at h
  split at h
  · exact .inr (List.mem_filter.mp h).1
  · exact Memory.mem_insert h

theorem Memory.insert_sorted {m : Memory} (k : Nat) (v : Byte) (h : m.Pairwise (fun c d => c.1 < d.1)) :
    (m.insert k v).Pairwise (fun c d => c.1 < d.1) := by
  induction m with
  | nil => simp [Memory.insert]
  | cons c cs ih =>
    obtain ⟨hc, hcs⟩ := List.pairwise_cons.mp h
    unfold Memory.insert
    split
    · rename_i hk
      refine List.pairwise_cons.mpr ⟨fun d hd => ?_, h⟩
      rcases List.mem_cons.mp hd with rfl | hd
      · exact hk
      · exact Nat.lt_trans hk (hc d hd)
    · split
      · rename_i hk
        exact List.pairwise_cons.mpr ⟨fun d hd => by simpa [hk] using hc d hd, hcs⟩
      · refine List.pairwise_cons.mpr ⟨fun d hd => ?_, ih hcs⟩
        rcases Memory.mem_insert hd with rfl | hd
        · show c.1 < k; omega
        · exact hc d hd

/-- A write keeps the canonical form. -/
theorem Memory.write_wf {m : Memory} (k : Nat) (v : Byte) (h : m.wf) : (m.write k v).wf := by
  refine ⟨?_, fun c hc => ?_⟩
  · unfold Memory.write
    split
    · exact List.Pairwise.filter _ h.1
    · exact Memory.insert_sorted k v h.1
  · unfold Memory.write at hc
    split at hc
    · exact h.2 c (List.mem_filter.mp hc).1
    · rename_i hv
      rcases Memory.mem_insert hc with rfl | hc
      · exact hv
      · exact h.2 c hc

theorem Memory.ofBytesFrom_mem {k : Nat} {bs : List Byte} {c : Host.Cell} (h : c ∈ Memory.ofBytesFrom k bs) :
    k ≤ c.1 ∧ c.1 < k + bs.length ∧ c.2 ≠ Memory.blank := by
  induction bs generalizing k with
  | nil => simp [Memory.ofBytesFrom] at h
  | cons b bs ih =>
    unfold Memory.ofBytesFrom at h
    split at h
    · obtain ⟨h1, h2, h3⟩ := ih h
      exact ⟨by omega, by simp only [List.length_cons]; omega, h3⟩
    · rename_i hb
      rcases List.mem_cons.mp h with rfl | h
      · simp only [List.length_cons]; exact ⟨Nat.le_refl _, by omega, hb⟩
      · obtain ⟨h1, h2, h3⟩ := ih h
        exact ⟨by omega, by simp only [List.length_cons]; omega, h3⟩

/-- The memory of a supplied list is in canonical form. -/
theorem Memory.ofBytesFrom_wf (k : Nat) (bs : List Byte) : (Memory.ofBytesFrom k bs).wf := by
  refine ⟨?_, fun c hc => (Memory.ofBytesFrom_mem hc).2.2⟩
  induction bs generalizing k with
  | nil => exact .nil
  | cons b bs ih =>
    unfold Memory.ofBytesFrom
    split
    · exact ih (k + 1)
    · exact List.pairwise_cons.mpr ⟨fun d hd => (Memory.ofBytesFrom_mem hd).1, ih (k + 1)⟩

theorem Memory.ofBytes_wf (bs : List Byte) : (Memory.ofBytes bs).wf := Memory.ofBytesFrom_wf 0 bs

theorem Memory.read_ofBytesFrom (k : Nat) (bs : List Byte) (i : Nat) :
    (Memory.ofBytesFrom k bs).read (k + i) = bs.getD i Memory.blank := by
  induction bs generalizing k i with
  | nil => simp [Memory.ofBytesFrom]
  | cons b bs ih =>
    have below : (Memory.ofBytesFrom (k + 1) bs).read k = Memory.blank := by
      have hm : ∀ c ∈ Memory.ofBytesFrom (k + 1) bs, c.1 ≠ k := fun c hc => by
        have := (Memory.ofBytesFrom_mem hc).1; omega
      generalize Memory.ofBytesFrom (k + 1) bs = m at hm
      induction m with
      | nil => rfl
      | cons c cs ihm =>
        rw [Memory.read_cons, if_neg (hm c List.mem_cons_self)]
        exact ihm fun d hd => hm d (List.mem_cons_of_mem _ hd)
    unfold Memory.ofBytesFrom
    cases i with
    | zero =>
      split
      · rename_i hb; simpa [hb] using below
      · simp [Memory.read_cons]
    | succ i =>
      have step := ih (k + 1) i
      have e : k + 1 + i = k + (i + 1) := by omega
      rw [e] at step
      split
      · simpa using step
      · have : k ≠ k + (i + 1) := by omega
        rw [Memory.read_cons, if_neg this]; simpa using step

/-- The memory of a supplied list reads as that list. -/
theorem Memory.read_ofBytes (bs : List Byte) (i : Nat) : (Memory.ofBytes bs).read i = bs.getD i Memory.blank := by
  simpa [Memory.ofBytes] using Memory.read_ofBytesFrom 0 bs i

/-- Equal reads make equal canonical memories. -/
theorem Memory.ext_of_read {m n : Memory} (hm : m.wf) (hn : n.wf) (h : ∀ k, m.read k = n.read k) : m = n := by
  have absent : ∀ (l : Memory) (k : Nat), (∀ c ∈ l, k < c.1) → l.read k = Memory.blank := by
    intro l k hl
    induction l with
    | nil => rfl
    | cons c cs ih =>
      have := hl c List.mem_cons_self
      rw [Memory.read_cons, if_neg (by omega)]
      exact ih fun d hd => hl d (List.mem_cons_of_mem _ hd)
  induction m generalizing n with
  | nil =>
    cases n with
    | nil => rfl
    | cons d ds =>
      have := h d.1
      rw [Memory.read_cons, if_pos rfl] at this
      exact absurd this.symm (hn.2 d List.mem_cons_self)
  | cons c cs ih =>
    obtain ⟨hcs, hcw⟩ := List.pairwise_cons.mp hm.1
    have headm : ∀ k, k < c.1 → Memory.read (c :: cs) k = Memory.blank := fun k hk => absent _ k fun e he => by
      rcases List.mem_cons.mp he with rfl | he
      · exact hk
      · exact Nat.lt_trans hk (hcs e he)
    cases n with
    | nil =>
      have := h c.1
      rw [Memory.read_cons, if_pos rfl] at this
      exact absurd this (hm.2 c List.mem_cons_self)
    | cons d ds =>
      obtain ⟨hds, hdw⟩ := List.pairwise_cons.mp hn.1
      have headn : ∀ k, k < d.1 → Memory.read (d :: ds) k = Memory.blank := fun k hk => absent _ k fun e he => by
        rcases List.mem_cons.mp he with rfl | he
        · exact hk
        · exact Nat.lt_trans hk (hds e he)
      have key : c.1 = d.1 := by
        rcases Nat.lt_trichotomy c.1 d.1 with hlt | heq | hlt
        · have := h c.1
          rw [headn c.1 hlt, Memory.read_cons, if_pos rfl] at this
          exact absurd this (hm.2 c List.mem_cons_self)
        · exact heq
        · have := h d.1
          rw [headm d.1 hlt, Memory.read_cons, if_pos rfl] at this
          exact absurd this.symm (hn.2 d List.mem_cons_self)
      have val : c.2 = d.2 := by
        have := h c.1
        rwa [Memory.read_cons, if_pos rfl, Memory.read_cons, if_pos key.symm] at this
      have tail : cs = ds := by
        refine ih ⟨hcw, fun e he => hm.2 e (List.mem_cons_of_mem _ he)⟩
          ⟨hdw, fun e he => hn.2 e (List.mem_cons_of_mem _ he)⟩ fun k => ?_
        by_cases hk : k ≤ c.1
        · rw [absent cs k fun e he => Nat.lt_of_le_of_lt hk (hcs e he),
            absent ds k fun e he => Nat.lt_of_le_of_lt hk (key ▸ hds e he)]
        · have := h k
          rwa [Memory.read_cons, if_neg (by omega), Memory.read_cons, if_neg (by omega)] at this
      obtain ⟨c1, c2⟩ := c
      obtain ⟨d1, d2⟩ := d
      simp only at key val
      rw [key, val, tail]

/-- Writes of different offsets commute on canonical memories. -/
theorem Memory.write_comm {m : Memory} (hm : m.wf) {j k : Nat} (h : j ≠ k) (v w : Byte) :
    (m.write j v).write k w = (m.write k w).write j v := by
  refine Memory.ext_of_read (Memory.write_wf _ _ (Memory.write_wf _ _ hm))
    (Memory.write_wf _ _ (Memory.write_wf _ _ hm)) fun i => ?_
  simp only [Memory.read_write]
  by_cases h1 : i = k <;> by_cases h2 : i = j <;> simp_all

/-- The later of two writes of one offset is the one that counts, on canonical memories. -/
theorem Memory.write_write {m : Memory} (hm : m.wf) (k : Nat) (v w : Byte) :
    (m.write k v).write k w = m.write k w := by
  refine Memory.ext_of_read (Memory.write_wf _ _ (Memory.write_wf _ _ hm)) (Memory.write_wf _ _ hm) fun i => ?_
  simp only [Memory.read_write]
  split <;> rfl

end Sys2Proof.Machine
end

