-- ==== Sys2Proof/Laws/State.lean ====
section
/-! SUPPORT. What each field is after each update of `Machine.State` (true by rfl, for simp): no proof unfolds a record
update. -/

namespace Sys2Proof.Machine

@[simp] theorem State.withVram_params (s : State) (m : Memory) : (s.withVram m).params = s.params := rfl
@[simp] theorem State.withVram_variant (s : State) (m : Memory) : (s.withVram m).variant = s.variant := rfl
@[simp] theorem State.withVram_boot (s : State) (m : Memory) : (s.withVram m).boot = s.boot := rfl
@[simp] theorem State.withVram_rom (s : State) (m : Memory) : (s.withVram m).rom = s.rom := rfl
@[simp] theorem State.withVram_romLen (s : State) (m : Memory) : (s.withVram m).romLen = s.romLen := rfl
@[simp] theorem State.withVram_vram (s : State) (m : Memory) : (s.withVram m).vram = m := rfl
@[simp] theorem State.withVram_eram (s : State) (m : Memory) : (s.withVram m).eram = s.eram := rfl
@[simp] theorem State.withVram_wram (s : State) (m : Memory) : (s.withVram m).wram = s.wram := rfl
@[simp] theorem State.withVram_oam (s : State) (m : Memory) : (s.withVram m).oam = s.oam := rfl
@[simp] theorem State.withVram_io (s : State) (m : Memory) : (s.withVram m).io = s.io := rfl
@[simp] theorem State.withVram_hram (s : State) (m : Memory) : (s.withVram m).hram = s.hram := rfl
@[simp] theorem State.withVram_bootEnabled (s : State) (m : Memory) : (s.withVram m).bootEnabled = s.bootEnabled := rfl
@[simp] theorem State.withVram_romBank (s : State) (m : Memory) : (s.withVram m).romBank = s.romBank := rfl
@[simp] theorem State.withVram_ramBank (s : State) (m : Memory) : (s.withVram m).ramBank = s.ramBank := rfl
@[simp] theorem State.withVram_mbc1Mode (s : State) (m : Memory) : (s.withVram m).mbc1Mode = s.mbc1Mode := rfl
@[simp] theorem State.withVram_ramEnabled (s : State) (m : Memory) : (s.withVram m).ramEnabled = s.ramEnabled := rfl
@[simp] theorem State.withVram_dma (s : State) (m : Memory) : (s.withVram m).dma = s.dma := rfl
@[simp] theorem State.withVram_ppuMode (s : State) (m : Memory) : (s.withVram m).ppuMode = s.ppuMode := rfl
@[simp] theorem State.withVram_ppuElapsed (s : State) (m : Memory) : (s.withVram m).ppuElapsed = s.ppuElapsed := rfl
@[simp] theorem State.withVram_ppuLine (s : State) (m : Memory) : (s.withVram m).ppuLine = s.ppuLine := rfl
@[simp] theorem State.withVram_scratch (s : State) (m : Memory) : (s.withVram m).scratch = s.scratch := rfl
@[simp] theorem State.withVram_front (s : State) (m : Memory) : (s.withVram m).front = s.front := rfl
@[simp] theorem State.withVram_frontSeq (s : State) (m : Memory) : (s.withVram m).frontSeq = s.frontSeq := rfl
@[simp] theorem State.withVram_tcount (s : State) (m : Memory) : (s.withVram m).tcount = s.tcount := rfl
@[simp] theorem State.withVram_tEnabled (s : State) (m : Memory) : (s.withVram m).tEnabled = s.tEnabled := rfl
@[simp] theorem State.withVram_tDivisor (s : State) (m : Memory) : (s.withVram m).tDivisor = s.tDivisor := rfl
@[simp] theorem State.withVram_irq (s : State) (m : Memory) : (s.withVram m).irq = s.irq := rfl
@[simp] theorem State.withVram_events (s : State) (m : Memory) : (s.withVram m).events = s.events := rfl
@[simp] theorem State.withVram_fault (s : State) (m : Memory) : (s.withVram m).fault = s.fault := rfl
@[simp] theorem State.withVram_inbox (s : State) (m : Memory) : (s.withVram m).inbox = s.inbox := rfl
@[simp] theorem State.withVram_reply (s : State) (m : Memory) : (s.withVram m).reply = s.reply := rfl
@[simp] theorem State.withVram_draws (s : State) (m : Memory) : (s.withVram m).draws = s.draws := rfl
@[simp] theorem State.withVram_sysSteps (s : State) (m : Memory) : (s.withVram m).sysSteps = s.sysSteps := rfl

@[simp] theorem State.withEram_params (s : State) (m : Memory) : (s.withEram m).params = s.params := rfl
@[simp] theorem State.withEram_variant (s : State) (m : Memory) : (s.withEram m).variant = s.variant := rfl
@[simp] theorem State.withEram_boot (s : State) (m : Memory) : (s.withEram m).boot = s.boot := rfl
@[simp] theorem State.withEram_rom (s : State) (m : Memory) : (s.withEram m).rom = s.rom := rfl
@[simp] theorem State.withEram_romLen (s : State) (m : Memory) : (s.withEram m).romLen = s.romLen := rfl
@[simp] theorem State.withEram_vram (s : State) (m : Memory) : (s.withEram m).vram = s.vram := rfl
@[simp] theorem State.withEram_eram (s : State) (m : Memory) : (s.withEram m).eram = m := rfl
@[simp] theorem State.withEram_wram (s : State) (m : Memory) : (s.withEram m).wram = s.wram := rfl
@[simp] theorem State.withEram_oam (s : State) (m : Memory) : (s.withEram m).oam = s.oam := rfl
@[simp] theorem State.withEram_io (s : State) (m : Memory) : (s.withEram m).io = s.io := rfl
@[simp] theorem State.withEram_hram (s : State) (m : Memory) : (s.withEram m).hram = s.hram := rfl
@[simp] theorem State.withEram_bootEnabled (s : State) (m : Memory) : (s.withEram m).bootEnabled = s.bootEnabled := rfl
@[simp] theorem State.withEram_romBank (s : State) (m : Memory) : (s.withEram m).romBank = s.romBank := rfl
@[simp] theorem State.withEram_ramBank (s : State) (m : Memory) : (s.withEram m).ramBank = s.ramBank := rfl
@[simp] theorem State.withEram_mbc1Mode (s : State) (m : Memory) : (s.withEram m).mbc1Mode = s.mbc1Mode := rfl
@[simp] theorem State.withEram_ramEnabled (s : State) (m : Memory) : (s.withEram m).ramEnabled = s.ramEnabled := rfl
@[simp] theorem State.withEram_dma (s : State) (m : Memory) : (s.withEram m).dma = s.dma := rfl
@[simp] theorem State.withEram_ppuMode (s : State) (m : Memory) : (s.withEram m).ppuMode = s.ppuMode := rfl
@[simp] theorem State.withEram_ppuElapsed (s : State) (m : Memory) : (s.withEram m).ppuElapsed = s.ppuElapsed := rfl
@[simp] theorem State.withEram_ppuLine (s : State) (m : Memory) : (s.withEram m).ppuLine = s.ppuLine := rfl
@[simp] theorem State.withEram_scratch (s : State) (m : Memory) : (s.withEram m).scratch = s.scratch := rfl
@[simp] theorem State.withEram_front (s : State) (m : Memory) : (s.withEram m).front = s.front := rfl
@[simp] theorem State.withEram_frontSeq (s : State) (m : Memory) : (s.withEram m).frontSeq = s.frontSeq := rfl
@[simp] theorem State.withEram_tcount (s : State) (m : Memory) : (s.withEram m).tcount = s.tcount := rfl
@[simp] theorem State.withEram_tEnabled (s : State) (m : Memory) : (s.withEram m).tEnabled = s.tEnabled := rfl
@[simp] theorem State.withEram_tDivisor (s : State) (m : Memory) : (s.withEram m).tDivisor = s.tDivisor := rfl
@[simp] theorem State.withEram_irq (s : State) (m : Memory) : (s.withEram m).irq = s.irq := rfl
@[simp] theorem State.withEram_events (s : State) (m : Memory) : (s.withEram m).events = s.events := rfl
@[simp] theorem State.withEram_fault (s : State) (m : Memory) : (s.withEram m).fault = s.fault := rfl
@[simp] theorem State.withEram_inbox (s : State) (m : Memory) : (s.withEram m).inbox = s.inbox := rfl
@[simp] theorem State.withEram_reply (s : State) (m : Memory) : (s.withEram m).reply = s.reply := rfl
@[simp] theorem State.withEram_draws (s : State) (m : Memory) : (s.withEram m).draws = s.draws := rfl
@[simp] theorem State.withEram_sysSteps (s : State) (m : Memory) : (s.withEram m).sysSteps = s.sysSteps := rfl

@[simp] theorem State.withWram_params (s : State) (m : Memory) : (s.withWram m).params = s.params := rfl
@[simp] theorem State.withWram_variant (s : State) (m : Memory) : (s.withWram m).variant = s.variant := rfl
@[simp] theorem State.withWram_boot (s : State) (m : Memory) : (s.withWram m).boot = s.boot := rfl
@[simp] theorem State.withWram_rom (s : State) (m : Memory) : (s.withWram m).rom = s.rom := rfl
@[simp] theorem State.withWram_romLen (s : State) (m : Memory) : (s.withWram m).romLen = s.romLen := rfl
@[simp] theorem State.withWram_vram (s : State) (m : Memory) : (s.withWram m).vram = s.vram := rfl
@[simp] theorem State.withWram_eram (s : State) (m : Memory) : (s.withWram m).eram = s.eram := rfl
@[simp] theorem State.withWram_wram (s : State) (m : Memory) : (s.withWram m).wram = m := rfl
@[simp] theorem State.withWram_oam (s : State) (m : Memory) : (s.withWram m).oam = s.oam := rfl
@[simp] theorem State.withWram_io (s : State) (m : Memory) : (s.withWram m).io = s.io := rfl
@[simp] theorem State.withWram_hram (s : State) (m : Memory) : (s.withWram m).hram = s.hram := rfl
@[simp] theorem State.withWram_bootEnabled (s : State) (m : Memory) : (s.withWram m).bootEnabled = s.bootEnabled := rfl
@[simp] theorem State.withWram_romBank (s : State) (m : Memory) : (s.withWram m).romBank = s.romBank := rfl
@[simp] theorem State.withWram_ramBank (s : State) (m : Memory) : (s.withWram m).ramBank = s.ramBank := rfl
@[simp] theorem State.withWram_mbc1Mode (s : State) (m : Memory) : (s.withWram m).mbc1Mode = s.mbc1Mode := rfl
@[simp] theorem State.withWram_ramEnabled (s : State) (m : Memory) : (s.withWram m).ramEnabled = s.ramEnabled := rfl
@[simp] theorem State.withWram_dma (s : State) (m : Memory) : (s.withWram m).dma = s.dma := rfl
@[simp] theorem State.withWram_ppuMode (s : State) (m : Memory) : (s.withWram m).ppuMode = s.ppuMode := rfl
@[simp] theorem State.withWram_ppuElapsed (s : State) (m : Memory) : (s.withWram m).ppuElapsed = s.ppuElapsed := rfl
@[simp] theorem State.withWram_ppuLine (s : State) (m : Memory) : (s.withWram m).ppuLine = s.ppuLine := rfl
@[simp] theorem State.withWram_scratch (s : State) (m : Memory) : (s.withWram m).scratch = s.scratch := rfl
@[simp] theorem State.withWram_front (s : State) (m : Memory) : (s.withWram m).front = s.front := rfl
@[simp] theorem State.withWram_frontSeq (s : State) (m : Memory) : (s.withWram m).frontSeq = s.frontSeq := rfl
@[simp] theorem State.withWram_tcount (s : State) (m : Memory) : (s.withWram m).tcount = s.tcount := rfl
@[simp] theorem State.withWram_tEnabled (s : State) (m : Memory) : (s.withWram m).tEnabled = s.tEnabled := rfl
@[simp] theorem State.withWram_tDivisor (s : State) (m : Memory) : (s.withWram m).tDivisor = s.tDivisor := rfl
@[simp] theorem State.withWram_irq (s : State) (m : Memory) : (s.withWram m).irq = s.irq := rfl
@[simp] theorem State.withWram_events (s : State) (m : Memory) : (s.withWram m).events = s.events := rfl
@[simp] theorem State.withWram_fault (s : State) (m : Memory) : (s.withWram m).fault = s.fault := rfl
@[simp] theorem State.withWram_inbox (s : State) (m : Memory) : (s.withWram m).inbox = s.inbox := rfl
@[simp] theorem State.withWram_reply (s : State) (m : Memory) : (s.withWram m).reply = s.reply := rfl
@[simp] theorem State.withWram_draws (s : State) (m : Memory) : (s.withWram m).draws = s.draws := rfl
@[simp] theorem State.withWram_sysSteps (s : State) (m : Memory) : (s.withWram m).sysSteps = s.sysSteps := rfl

@[simp] theorem State.withOam_params (s : State) (m : Memory) : (s.withOam m).params = s.params := rfl
@[simp] theorem State.withOam_variant (s : State) (m : Memory) : (s.withOam m).variant = s.variant := rfl
@[simp] theorem State.withOam_boot (s : State) (m : Memory) : (s.withOam m).boot = s.boot := rfl
@[simp] theorem State.withOam_rom (s : State) (m : Memory) : (s.withOam m).rom = s.rom := rfl
@[simp] theorem State.withOam_romLen (s : State) (m : Memory) : (s.withOam m).romLen = s.romLen := rfl
@[simp] theorem State.withOam_vram (s : State) (m : Memory) : (s.withOam m).vram = s.vram := rfl
@[simp] theorem State.withOam_eram (s : State) (m : Memory) : (s.withOam m).eram = s.eram := rfl
@[simp] theorem State.withOam_wram (s : State) (m : Memory) : (s.withOam m).wram = s.wram := rfl
@[simp] theorem State.withOam_oam (s : State) (m : Memory) : (s.withOam m).oam = m := rfl
@[simp] theorem State.withOam_io (s : State) (m : Memory) : (s.withOam m).io = s.io := rfl
@[simp] theorem State.withOam_hram (s : State) (m : Memory) : (s.withOam m).hram = s.hram := rfl
@[simp] theorem State.withOam_bootEnabled (s : State) (m : Memory) : (s.withOam m).bootEnabled = s.bootEnabled := rfl
@[simp] theorem State.withOam_romBank (s : State) (m : Memory) : (s.withOam m).romBank = s.romBank := rfl
@[simp] theorem State.withOam_ramBank (s : State) (m : Memory) : (s.withOam m).ramBank = s.ramBank := rfl
@[simp] theorem State.withOam_mbc1Mode (s : State) (m : Memory) : (s.withOam m).mbc1Mode = s.mbc1Mode := rfl
@[simp] theorem State.withOam_ramEnabled (s : State) (m : Memory) : (s.withOam m).ramEnabled = s.ramEnabled := rfl
@[simp] theorem State.withOam_dma (s : State) (m : Memory) : (s.withOam m).dma = s.dma := rfl
@[simp] theorem State.withOam_ppuMode (s : State) (m : Memory) : (s.withOam m).ppuMode = s.ppuMode := rfl
@[simp] theorem State.withOam_ppuElapsed (s : State) (m : Memory) : (s.withOam m).ppuElapsed = s.ppuElapsed := rfl
@[simp] theorem State.withOam_ppuLine (s : State) (m : Memory) : (s.withOam m).ppuLine = s.ppuLine := rfl
@[simp] theorem State.withOam_scratch (s : State) (m : Memory) : (s.withOam m).scratch = s.scratch := rfl
@[simp] theorem State.withOam_front (s : State) (m : Memory) : (s.withOam m).front = s.front := rfl
@[simp] theorem State.withOam_frontSeq (s : State) (m : Memory) : (s.withOam m).frontSeq = s.frontSeq := rfl
@[simp] theorem State.withOam_tcount (s : State) (m : Memory) : (s.withOam m).tcount = s.tcount := rfl
@[simp] theorem State.withOam_tEnabled (s : State) (m : Memory) : (s.withOam m).tEnabled = s.tEnabled := rfl
@[simp] theorem State.withOam_tDivisor (s : State) (m : Memory) : (s.withOam m).tDivisor = s.tDivisor := rfl
@[simp] theorem State.withOam_irq (s : State) (m : Memory) : (s.withOam m).irq = s.irq := rfl
@[simp] theorem State.withOam_events (s : State) (m : Memory) : (s.withOam m).events = s.events := rfl
@[simp] theorem State.withOam_fault (s : State) (m : Memory) : (s.withOam m).fault = s.fault := rfl
@[simp] theorem State.withOam_inbox (s : State) (m : Memory) : (s.withOam m).inbox = s.inbox := rfl
@[simp] theorem State.withOam_reply (s : State) (m : Memory) : (s.withOam m).reply = s.reply := rfl
@[simp] theorem State.withOam_draws (s : State) (m : Memory) : (s.withOam m).draws = s.draws := rfl
@[simp] theorem State.withOam_sysSteps (s : State) (m : Memory) : (s.withOam m).sysSteps = s.sysSteps := rfl

@[simp] theorem State.withIo_params (s : State) (m : Memory) : (s.withIo m).params = s.params := rfl
@[simp] theorem State.withIo_variant (s : State) (m : Memory) : (s.withIo m).variant = s.variant := rfl
@[simp] theorem State.withIo_boot (s : State) (m : Memory) : (s.withIo m).boot = s.boot := rfl
@[simp] theorem State.withIo_rom (s : State) (m : Memory) : (s.withIo m).rom = s.rom := rfl
@[simp] theorem State.withIo_romLen (s : State) (m : Memory) : (s.withIo m).romLen = s.romLen := rfl
@[simp] theorem State.withIo_vram (s : State) (m : Memory) : (s.withIo m).vram = s.vram := rfl
@[simp] theorem State.withIo_eram (s : State) (m : Memory) : (s.withIo m).eram = s.eram := rfl
@[simp] theorem State.withIo_wram (s : State) (m : Memory) : (s.withIo m).wram = s.wram := rfl
@[simp] theorem State.withIo_oam (s : State) (m : Memory) : (s.withIo m).oam = s.oam := rfl
@[simp] theorem State.withIo_io (s : State) (m : Memory) : (s.withIo m).io = m := rfl
@[simp] theorem State.withIo_hram (s : State) (m : Memory) : (s.withIo m).hram = s.hram := rfl
@[simp] theorem State.withIo_bootEnabled (s : State) (m : Memory) : (s.withIo m).bootEnabled = s.bootEnabled := rfl
@[simp] theorem State.withIo_romBank (s : State) (m : Memory) : (s.withIo m).romBank = s.romBank := rfl
@[simp] theorem State.withIo_ramBank (s : State) (m : Memory) : (s.withIo m).ramBank = s.ramBank := rfl
@[simp] theorem State.withIo_mbc1Mode (s : State) (m : Memory) : (s.withIo m).mbc1Mode = s.mbc1Mode := rfl
@[simp] theorem State.withIo_ramEnabled (s : State) (m : Memory) : (s.withIo m).ramEnabled = s.ramEnabled := rfl
@[simp] theorem State.withIo_dma (s : State) (m : Memory) : (s.withIo m).dma = s.dma := rfl
@[simp] theorem State.withIo_ppuMode (s : State) (m : Memory) : (s.withIo m).ppuMode = s.ppuMode := rfl
@[simp] theorem State.withIo_ppuElapsed (s : State) (m : Memory) : (s.withIo m).ppuElapsed = s.ppuElapsed := rfl
@[simp] theorem State.withIo_ppuLine (s : State) (m : Memory) : (s.withIo m).ppuLine = s.ppuLine := rfl
@[simp] theorem State.withIo_scratch (s : State) (m : Memory) : (s.withIo m).scratch = s.scratch := rfl
@[simp] theorem State.withIo_front (s : State) (m : Memory) : (s.withIo m).front = s.front := rfl
@[simp] theorem State.withIo_frontSeq (s : State) (m : Memory) : (s.withIo m).frontSeq = s.frontSeq := rfl
@[simp] theorem State.withIo_tcount (s : State) (m : Memory) : (s.withIo m).tcount = s.tcount := rfl
@[simp] theorem State.withIo_tEnabled (s : State) (m : Memory) : (s.withIo m).tEnabled = s.tEnabled := rfl
@[simp] theorem State.withIo_tDivisor (s : State) (m : Memory) : (s.withIo m).tDivisor = s.tDivisor := rfl
@[simp] theorem State.withIo_irq (s : State) (m : Memory) : (s.withIo m).irq = s.irq := rfl
@[simp] theorem State.withIo_events (s : State) (m : Memory) : (s.withIo m).events = s.events := rfl
@[simp] theorem State.withIo_fault (s : State) (m : Memory) : (s.withIo m).fault = s.fault := rfl
@[simp] theorem State.withIo_inbox (s : State) (m : Memory) : (s.withIo m).inbox = s.inbox := rfl
@[simp] theorem State.withIo_reply (s : State) (m : Memory) : (s.withIo m).reply = s.reply := rfl
@[simp] theorem State.withIo_draws (s : State) (m : Memory) : (s.withIo m).draws = s.draws := rfl
@[simp] theorem State.withIo_sysSteps (s : State) (m : Memory) : (s.withIo m).sysSteps = s.sysSteps := rfl

@[simp] theorem State.withHram_params (s : State) (m : Memory) : (s.withHram m).params = s.params := rfl
@[simp] theorem State.withHram_variant (s : State) (m : Memory) : (s.withHram m).variant = s.variant := rfl
@[simp] theorem State.withHram_boot (s : State) (m : Memory) : (s.withHram m).boot = s.boot := rfl
@[simp] theorem State.withHram_rom (s : State) (m : Memory) : (s.withHram m).rom = s.rom := rfl
@[simp] theorem State.withHram_romLen (s : State) (m : Memory) : (s.withHram m).romLen = s.romLen := rfl
@[simp] theorem State.withHram_vram (s : State) (m : Memory) : (s.withHram m).vram = s.vram := rfl
@[simp] theorem State.withHram_eram (s : State) (m : Memory) : (s.withHram m).eram = s.eram := rfl
@[simp] theorem State.withHram_wram (s : State) (m : Memory) : (s.withHram m).wram = s.wram := rfl
@[simp] theorem State.withHram_oam (s : State) (m : Memory) : (s.withHram m).oam = s.oam := rfl
@[simp] theorem State.withHram_io (s : State) (m : Memory) : (s.withHram m).io = s.io := rfl
@[simp] theorem State.withHram_hram (s : State) (m : Memory) : (s.withHram m).hram = m := rfl
@[simp] theorem State.withHram_bootEnabled (s : State) (m : Memory) : (s.withHram m).bootEnabled = s.bootEnabled := rfl
@[simp] theorem State.withHram_romBank (s : State) (m : Memory) : (s.withHram m).romBank = s.romBank := rfl
@[simp] theorem State.withHram_ramBank (s : State) (m : Memory) : (s.withHram m).ramBank = s.ramBank := rfl
@[simp] theorem State.withHram_mbc1Mode (s : State) (m : Memory) : (s.withHram m).mbc1Mode = s.mbc1Mode := rfl
@[simp] theorem State.withHram_ramEnabled (s : State) (m : Memory) : (s.withHram m).ramEnabled = s.ramEnabled := rfl
@[simp] theorem State.withHram_dma (s : State) (m : Memory) : (s.withHram m).dma = s.dma := rfl
@[simp] theorem State.withHram_ppuMode (s : State) (m : Memory) : (s.withHram m).ppuMode = s.ppuMode := rfl
@[simp] theorem State.withHram_ppuElapsed (s : State) (m : Memory) : (s.withHram m).ppuElapsed = s.ppuElapsed := rfl
@[simp] theorem State.withHram_ppuLine (s : State) (m : Memory) : (s.withHram m).ppuLine = s.ppuLine := rfl
@[simp] theorem State.withHram_scratch (s : State) (m : Memory) : (s.withHram m).scratch = s.scratch := rfl
@[simp] theorem State.withHram_front (s : State) (m : Memory) : (s.withHram m).front = s.front := rfl
@[simp] theorem State.withHram_frontSeq (s : State) (m : Memory) : (s.withHram m).frontSeq = s.frontSeq := rfl
@[simp] theorem State.withHram_tcount (s : State) (m : Memory) : (s.withHram m).tcount = s.tcount := rfl
@[simp] theorem State.withHram_tEnabled (s : State) (m : Memory) : (s.withHram m).tEnabled = s.tEnabled := rfl
@[simp] theorem State.withHram_tDivisor (s : State) (m : Memory) : (s.withHram m).tDivisor = s.tDivisor := rfl
@[simp] theorem State.withHram_irq (s : State) (m : Memory) : (s.withHram m).irq = s.irq := rfl
@[simp] theorem State.withHram_events (s : State) (m : Memory) : (s.withHram m).events = s.events := rfl
@[simp] theorem State.withHram_fault (s : State) (m : Memory) : (s.withHram m).fault = s.fault := rfl
@[simp] theorem State.withHram_inbox (s : State) (m : Memory) : (s.withHram m).inbox = s.inbox := rfl
@[simp] theorem State.withHram_reply (s : State) (m : Memory) : (s.withHram m).reply = s.reply := rfl
@[simp] theorem State.withHram_draws (s : State) (m : Memory) : (s.withHram m).draws = s.draws := rfl
@[simp] theorem State.withHram_sysSteps (s : State) (m : Memory) : (s.withHram m).sysSteps = s.sysSteps := rfl

@[simp] theorem State.withBootEnabled_params (s : State) (b : Bool) : (s.withBootEnabled b).params = s.params := rfl
@[simp] theorem State.withBootEnabled_variant (s : State) (b : Bool) : (s.withBootEnabled b).variant = s.variant := rfl
@[simp] theorem State.withBootEnabled_boot (s : State) (b : Bool) : (s.withBootEnabled b).boot = s.boot := rfl
@[simp] theorem State.withBootEnabled_rom (s : State) (b : Bool) : (s.withBootEnabled b).rom = s.rom := rfl
@[simp] theorem State.withBootEnabled_romLen (s : State) (b : Bool) : (s.withBootEnabled b).romLen = s.romLen := rfl
@[simp] theorem State.withBootEnabled_vram (s : State) (b : Bool) : (s.withBootEnabled b).vram = s.vram := rfl
@[simp] theorem State.withBootEnabled_eram (s : State) (b : Bool) : (s.withBootEnabled b).eram = s.eram := rfl
@[simp] theorem State.withBootEnabled_wram (s : State) (b : Bool) : (s.withBootEnabled b).wram = s.wram := rfl
@[simp] theorem State.withBootEnabled_oam (s : State) (b : Bool) : (s.withBootEnabled b).oam = s.oam := rfl
@[simp] theorem State.withBootEnabled_io (s : State) (b : Bool) : (s.withBootEnabled b).io = s.io := rfl
@[simp] theorem State.withBootEnabled_hram (s : State) (b : Bool) : (s.withBootEnabled b).hram = s.hram := rfl
@[simp] theorem State.withBootEnabled_bootEnabled (s : State) (b : Bool) : (s.withBootEnabled b).bootEnabled = b := rfl
@[simp] theorem State.withBootEnabled_romBank (s : State) (b : Bool) : (s.withBootEnabled b).romBank = s.romBank := rfl
@[simp] theorem State.withBootEnabled_ramBank (s : State) (b : Bool) : (s.withBootEnabled b).ramBank = s.ramBank := rfl
@[simp] theorem State.withBootEnabled_mbc1Mode (s : State) (b : Bool) : (s.withBootEnabled b).mbc1Mode = s.mbc1Mode := rfl
@[simp] theorem State.withBootEnabled_ramEnabled (s : State) (b : Bool) : (s.withBootEnabled b).ramEnabled = s.ramEnabled := rfl
@[simp] theorem State.withBootEnabled_dma (s : State) (b : Bool) : (s.withBootEnabled b).dma = s.dma := rfl
@[simp] theorem State.withBootEnabled_ppuMode (s : State) (b : Bool) : (s.withBootEnabled b).ppuMode = s.ppuMode := rfl
@[simp] theorem State.withBootEnabled_ppuElapsed (s : State) (b : Bool) : (s.withBootEnabled b).ppuElapsed = s.ppuElapsed := rfl
@[simp] theorem State.withBootEnabled_ppuLine (s : State) (b : Bool) : (s.withBootEnabled b).ppuLine = s.ppuLine := rfl
@[simp] theorem State.withBootEnabled_scratch (s : State) (b : Bool) : (s.withBootEnabled b).scratch = s.scratch := rfl
@[simp] theorem State.withBootEnabled_front (s : State) (b : Bool) : (s.withBootEnabled b).front = s.front := rfl
@[simp] theorem State.withBootEnabled_frontSeq (s : State) (b : Bool) : (s.withBootEnabled b).frontSeq = s.frontSeq := rfl
@[simp] theorem State.withBootEnabled_tcount (s : State) (b : Bool) : (s.withBootEnabled b).tcount = s.tcount := rfl
@[simp] theorem State.withBootEnabled_tEnabled (s : State) (b : Bool) : (s.withBootEnabled b).tEnabled = s.tEnabled := rfl
@[simp] theorem State.withBootEnabled_tDivisor (s : State) (b : Bool) : (s.withBootEnabled b).tDivisor = s.tDivisor := rfl
@[simp] theorem State.withBootEnabled_irq (s : State) (b : Bool) : (s.withBootEnabled b).irq = s.irq := rfl
@[simp] theorem State.withBootEnabled_events (s : State) (b : Bool) : (s.withBootEnabled b).events = s.events := rfl
@[simp] theorem State.withBootEnabled_fault (s : State) (b : Bool) : (s.withBootEnabled b).fault = s.fault := rfl
@[simp] theorem State.withBootEnabled_inbox (s : State) (b : Bool) : (s.withBootEnabled b).inbox = s.inbox := rfl
@[simp] theorem State.withBootEnabled_reply (s : State) (b : Bool) : (s.withBootEnabled b).reply = s.reply := rfl
@[simp] theorem State.withBootEnabled_draws (s : State) (b : Bool) : (s.withBootEnabled b).draws = s.draws := rfl
@[simp] theorem State.withBootEnabled_sysSteps (s : State) (b : Bool) : (s.withBootEnabled b).sysSteps = s.sysSteps := rfl

@[simp] theorem State.withRomBank_params (s : State) (b : BitVec 7) : (s.withRomBank b).params = s.params := rfl
@[simp] theorem State.withRomBank_variant (s : State) (b : BitVec 7) : (s.withRomBank b).variant = s.variant := rfl
@[simp] theorem State.withRomBank_boot (s : State) (b : BitVec 7) : (s.withRomBank b).boot = s.boot := rfl
@[simp] theorem State.withRomBank_rom (s : State) (b : BitVec 7) : (s.withRomBank b).rom = s.rom := rfl
@[simp] theorem State.withRomBank_romLen (s : State) (b : BitVec 7) : (s.withRomBank b).romLen = s.romLen := rfl
@[simp] theorem State.withRomBank_vram (s : State) (b : BitVec 7) : (s.withRomBank b).vram = s.vram := rfl
@[simp] theorem State.withRomBank_eram (s : State) (b : BitVec 7) : (s.withRomBank b).eram = s.eram := rfl
@[simp] theorem State.withRomBank_wram (s : State) (b : BitVec 7) : (s.withRomBank b).wram = s.wram := rfl
@[simp] theorem State.withRomBank_oam (s : State) (b : BitVec 7) : (s.withRomBank b).oam = s.oam := rfl
@[simp] theorem State.withRomBank_io (s : State) (b : BitVec 7) : (s.withRomBank b).io = s.io := rfl
@[simp] theorem State.withRomBank_hram (s : State) (b : BitVec 7) : (s.withRomBank b).hram = s.hram := rfl
@[simp] theorem State.withRomBank_bootEnabled (s : State) (b : BitVec 7) : (s.withRomBank b).bootEnabled = s.bootEnabled := rfl
@[simp] theorem State.withRomBank_romBank (s : State) (b : BitVec 7) : (s.withRomBank b).romBank = b := rfl
@[simp] theorem State.withRomBank_ramBank (s : State) (b : BitVec 7) : (s.withRomBank b).ramBank = s.ramBank := rfl
@[simp] theorem State.withRomBank_mbc1Mode (s : State) (b : BitVec 7) : (s.withRomBank b).mbc1Mode = s.mbc1Mode := rfl
@[simp] theorem State.withRomBank_ramEnabled (s : State) (b : BitVec 7) : (s.withRomBank b).ramEnabled = s.ramEnabled := rfl
@[simp] theorem State.withRomBank_dma (s : State) (b : BitVec 7) : (s.withRomBank b).dma = s.dma := rfl
@[simp] theorem State.withRomBank_ppuMode (s : State) (b : BitVec 7) : (s.withRomBank b).ppuMode = s.ppuMode := rfl
@[simp] theorem State.withRomBank_ppuElapsed (s : State) (b : BitVec 7) : (s.withRomBank b).ppuElapsed = s.ppuElapsed := rfl
@[simp] theorem State.withRomBank_ppuLine (s : State) (b : BitVec 7) : (s.withRomBank b).ppuLine = s.ppuLine := rfl
@[simp] theorem State.withRomBank_scratch (s : State) (b : BitVec 7) : (s.withRomBank b).scratch = s.scratch := rfl
@[simp] theorem State.withRomBank_front (s : State) (b : BitVec 7) : (s.withRomBank b).front = s.front := rfl
@[simp] theorem State.withRomBank_frontSeq (s : State) (b : BitVec 7) : (s.withRomBank b).frontSeq = s.frontSeq := rfl
@[simp] theorem State.withRomBank_tcount (s : State) (b : BitVec 7) : (s.withRomBank b).tcount = s.tcount := rfl
@[simp] theorem State.withRomBank_tEnabled (s : State) (b : BitVec 7) : (s.withRomBank b).tEnabled = s.tEnabled := rfl
@[simp] theorem State.withRomBank_tDivisor (s : State) (b : BitVec 7) : (s.withRomBank b).tDivisor = s.tDivisor := rfl
@[simp] theorem State.withRomBank_irq (s : State) (b : BitVec 7) : (s.withRomBank b).irq = s.irq := rfl
@[simp] theorem State.withRomBank_events (s : State) (b : BitVec 7) : (s.withRomBank b).events = s.events := rfl
@[simp] theorem State.withRomBank_fault (s : State) (b : BitVec 7) : (s.withRomBank b).fault = s.fault := rfl
@[simp] theorem State.withRomBank_inbox (s : State) (b : BitVec 7) : (s.withRomBank b).inbox = s.inbox := rfl
@[simp] theorem State.withRomBank_reply (s : State) (b : BitVec 7) : (s.withRomBank b).reply = s.reply := rfl
@[simp] theorem State.withRomBank_draws (s : State) (b : BitVec 7) : (s.withRomBank b).draws = s.draws := rfl
@[simp] theorem State.withRomBank_sysSteps (s : State) (b : BitVec 7) : (s.withRomBank b).sysSteps = s.sysSteps := rfl

@[simp] theorem State.withRamBank_params (s : State) (b : BitVec 2) : (s.withRamBank b).params = s.params := rfl
@[simp] theorem State.withRamBank_variant (s : State) (b : BitVec 2) : (s.withRamBank b).variant = s.variant := rfl
@[simp] theorem State.withRamBank_boot (s : State) (b : BitVec 2) : (s.withRamBank b).boot = s.boot := rfl
@[simp] theorem State.withRamBank_rom (s : State) (b : BitVec 2) : (s.withRamBank b).rom = s.rom := rfl
@[simp] theorem State.withRamBank_romLen (s : State) (b : BitVec 2) : (s.withRamBank b).romLen = s.romLen := rfl
@[simp] theorem State.withRamBank_vram (s : State) (b : BitVec 2) : (s.withRamBank b).vram = s.vram := rfl
@[simp] theorem State.withRamBank_eram (s : State) (b : BitVec 2) : (s.withRamBank b).eram = s.eram := rfl
@[simp] theorem State.withRamBank_wram (s : State) (b : BitVec 2) : (s.withRamBank b).wram = s.wram := rfl
@[simp] theorem State.withRamBank_oam (s : State) (b : BitVec 2) : (s.withRamBank b).oam = s.oam := rfl
@[simp] theorem State.withRamBank_io (s : State) (b : BitVec 2) : (s.withRamBank b).io = s.io := rfl
@[simp] theorem State.withRamBank_hram (s : State) (b : BitVec 2) : (s.withRamBank b).hram = s.hram := rfl
@[simp] theorem State.withRamBank_bootEnabled (s : State) (b : BitVec 2) : (s.withRamBank b).bootEnabled = s.bootEnabled := rfl
@[simp] theorem State.withRamBank_romBank (s : State) (b : BitVec 2) : (s.withRamBank b).romBank = s.romBank := rfl
@[simp] theorem State.withRamBank_ramBank (s : State) (b : BitVec 2) : (s.withRamBank b).ramBank = b := rfl
@[simp] theorem State.withRamBank_mbc1Mode (s : State) (b : BitVec 2) : (s.withRamBank b).mbc1Mode = s.mbc1Mode := rfl
@[simp] theorem State.withRamBank_ramEnabled (s : State) (b : BitVec 2) : (s.withRamBank b).ramEnabled = s.ramEnabled := rfl
@[simp] theorem State.withRamBank_dma (s : State) (b : BitVec 2) : (s.withRamBank b).dma = s.dma := rfl
@[simp] theorem State.withRamBank_ppuMode (s : State) (b : BitVec 2) : (s.withRamBank b).ppuMode = s.ppuMode := rfl
@[simp] theorem State.withRamBank_ppuElapsed (s : State) (b : BitVec 2) : (s.withRamBank b).ppuElapsed = s.ppuElapsed := rfl
@[simp] theorem State.withRamBank_ppuLine (s : State) (b : BitVec 2) : (s.withRamBank b).ppuLine = s.ppuLine := rfl
@[simp] theorem State.withRamBank_scratch (s : State) (b : BitVec 2) : (s.withRamBank b).scratch = s.scratch := rfl
@[simp] theorem State.withRamBank_front (s : State) (b : BitVec 2) : (s.withRamBank b).front = s.front := rfl
@[simp] theorem State.withRamBank_frontSeq (s : State) (b : BitVec 2) : (s.withRamBank b).frontSeq = s.frontSeq := rfl
@[simp] theorem State.withRamBank_tcount (s : State) (b : BitVec 2) : (s.withRamBank b).tcount = s.tcount := rfl
@[simp] theorem State.withRamBank_tEnabled (s : State) (b : BitVec 2) : (s.withRamBank b).tEnabled = s.tEnabled := rfl
@[simp] theorem State.withRamBank_tDivisor (s : State) (b : BitVec 2) : (s.withRamBank b).tDivisor = s.tDivisor := rfl
@[simp] theorem State.withRamBank_irq (s : State) (b : BitVec 2) : (s.withRamBank b).irq = s.irq := rfl
@[simp] theorem State.withRamBank_events (s : State) (b : BitVec 2) : (s.withRamBank b).events = s.events := rfl
@[simp] theorem State.withRamBank_fault (s : State) (b : BitVec 2) : (s.withRamBank b).fault = s.fault := rfl
@[simp] theorem State.withRamBank_inbox (s : State) (b : BitVec 2) : (s.withRamBank b).inbox = s.inbox := rfl
@[simp] theorem State.withRamBank_reply (s : State) (b : BitVec 2) : (s.withRamBank b).reply = s.reply := rfl
@[simp] theorem State.withRamBank_draws (s : State) (b : BitVec 2) : (s.withRamBank b).draws = s.draws := rfl
@[simp] theorem State.withRamBank_sysSteps (s : State) (b : BitVec 2) : (s.withRamBank b).sysSteps = s.sysSteps := rfl

@[simp] theorem State.withMbc1Mode_params (s : State) (m : BankingMode) : (s.withMbc1Mode m).params = s.params := rfl
@[simp] theorem State.withMbc1Mode_variant (s : State) (m : BankingMode) : (s.withMbc1Mode m).variant = s.variant := rfl
@[simp] theorem State.withMbc1Mode_boot (s : State) (m : BankingMode) : (s.withMbc1Mode m).boot = s.boot := rfl
@[simp] theorem State.withMbc1Mode_rom (s : State) (m : BankingMode) : (s.withMbc1Mode m).rom = s.rom := rfl
@[simp] theorem State.withMbc1Mode_romLen (s : State) (m : BankingMode) : (s.withMbc1Mode m).romLen = s.romLen := rfl
@[simp] theorem State.withMbc1Mode_vram (s : State) (m : BankingMode) : (s.withMbc1Mode m).vram = s.vram := rfl
@[simp] theorem State.withMbc1Mode_eram (s : State) (m : BankingMode) : (s.withMbc1Mode m).eram = s.eram := rfl
@[simp] theorem State.withMbc1Mode_wram (s : State) (m : BankingMode) : (s.withMbc1Mode m).wram = s.wram := rfl
@[simp] theorem State.withMbc1Mode_oam (s : State) (m : BankingMode) : (s.withMbc1Mode m).oam = s.oam := rfl
@[simp] theorem State.withMbc1Mode_io (s : State) (m : BankingMode) : (s.withMbc1Mode m).io = s.io := rfl
@[simp] theorem State.withMbc1Mode_hram (s : State) (m : BankingMode) : (s.withMbc1Mode m).hram = s.hram := rfl
@[simp] theorem State.withMbc1Mode_bootEnabled (s : State) (m : BankingMode) : (s.withMbc1Mode m).bootEnabled = s.bootEnabled := rfl
@[simp] theorem State.withMbc1Mode_romBank (s : State) (m : BankingMode) : (s.withMbc1Mode m).romBank = s.romBank := rfl
@[simp] theorem State.withMbc1Mode_ramBank (s : State) (m : BankingMode) : (s.withMbc1Mode m).ramBank = s.ramBank := rfl
@[simp] theorem State.withMbc1Mode_mbc1Mode (s : State) (m : BankingMode) : (s.withMbc1Mode m).mbc1Mode = m := rfl
@[simp] theorem State.withMbc1Mode_ramEnabled (s : State) (m : BankingMode) : (s.withMbc1Mode m).ramEnabled = s.ramEnabled := rfl
@[simp] theorem State.withMbc1Mode_dma (s : State) (m : BankingMode) : (s.withMbc1Mode m).dma = s.dma := rfl
@[simp] theorem State.withMbc1Mode_ppuMode (s : State) (m : BankingMode) : (s.withMbc1Mode m).ppuMode = s.ppuMode := rfl
@[simp] theorem State.withMbc1Mode_ppuElapsed (s : State) (m : BankingMode) : (s.withMbc1Mode m).ppuElapsed = s.ppuElapsed := rfl
@[simp] theorem State.withMbc1Mode_ppuLine (s : State) (m : BankingMode) : (s.withMbc1Mode m).ppuLine = s.ppuLine := rfl
@[simp] theorem State.withMbc1Mode_scratch (s : State) (m : BankingMode) : (s.withMbc1Mode m).scratch = s.scratch := rfl
@[simp] theorem State.withMbc1Mode_front (s : State) (m : BankingMode) : (s.withMbc1Mode m).front = s.front := rfl
@[simp] theorem State.withMbc1Mode_frontSeq (s : State) (m : BankingMode) : (s.withMbc1Mode m).frontSeq = s.frontSeq := rfl
@[simp] theorem State.withMbc1Mode_tcount (s : State) (m : BankingMode) : (s.withMbc1Mode m).tcount = s.tcount := rfl
@[simp] theorem State.withMbc1Mode_tEnabled (s : State) (m : BankingMode) : (s.withMbc1Mode m).tEnabled = s.tEnabled := rfl
@[simp] theorem State.withMbc1Mode_tDivisor (s : State) (m : BankingMode) : (s.withMbc1Mode m).tDivisor = s.tDivisor := rfl
@[simp] theorem State.withMbc1Mode_irq (s : State) (m : BankingMode) : (s.withMbc1Mode m).irq = s.irq := rfl
@[simp] theorem State.withMbc1Mode_events (s : State) (m : BankingMode) : (s.withMbc1Mode m).events = s.events := rfl
@[simp] theorem State.withMbc1Mode_fault (s : State) (m : BankingMode) : (s.withMbc1Mode m).fault = s.fault := rfl
@[simp] theorem State.withMbc1Mode_inbox (s : State) (m : BankingMode) : (s.withMbc1Mode m).inbox = s.inbox := rfl
@[simp] theorem State.withMbc1Mode_reply (s : State) (m : BankingMode) : (s.withMbc1Mode m).reply = s.reply := rfl
@[simp] theorem State.withMbc1Mode_draws (s : State) (m : BankingMode) : (s.withMbc1Mode m).draws = s.draws := rfl
@[simp] theorem State.withMbc1Mode_sysSteps (s : State) (m : BankingMode) : (s.withMbc1Mode m).sysSteps = s.sysSteps := rfl

@[simp] theorem State.withRamEnabled_params (s : State) (b : Bool) : (s.withRamEnabled b).params = s.params := rfl
@[simp] theorem State.withRamEnabled_variant (s : State) (b : Bool) : (s.withRamEnabled b).variant = s.variant := rfl
@[simp] theorem State.withRamEnabled_boot (s : State) (b : Bool) : (s.withRamEnabled b).boot = s.boot := rfl
@[simp] theorem State.withRamEnabled_rom (s : State) (b : Bool) : (s.withRamEnabled b).rom = s.rom := rfl
@[simp] theorem State.withRamEnabled_romLen (s : State) (b : Bool) : (s.withRamEnabled b).romLen = s.romLen := rfl
@[simp] theorem State.withRamEnabled_vram (s : State) (b : Bool) : (s.withRamEnabled b).vram = s.vram := rfl
@[simp] theorem State.withRamEnabled_eram (s : State) (b : Bool) : (s.withRamEnabled b).eram = s.eram := rfl
@[simp] theorem State.withRamEnabled_wram (s : State) (b : Bool) : (s.withRamEnabled b).wram = s.wram := rfl
@[simp] theorem State.withRamEnabled_oam (s : State) (b : Bool) : (s.withRamEnabled b).oam = s.oam := rfl
@[simp] theorem State.withRamEnabled_io (s : State) (b : Bool) : (s.withRamEnabled b).io = s.io := rfl
@[simp] theorem State.withRamEnabled_hram (s : State) (b : Bool) : (s.withRamEnabled b).hram = s.hram := rfl
@[simp] theorem State.withRamEnabled_bootEnabled (s : State) (b : Bool) : (s.withRamEnabled b).bootEnabled = s.bootEnabled := rfl
@[simp] theorem State.withRamEnabled_romBank (s : State) (b : Bool) : (s.withRamEnabled b).romBank = s.romBank := rfl
@[simp] theorem State.withRamEnabled_ramBank (s : State) (b : Bool) : (s.withRamEnabled b).ramBank = s.ramBank := rfl
@[simp] theorem State.withRamEnabled_mbc1Mode (s : State) (b : Bool) : (s.withRamEnabled b).mbc1Mode = s.mbc1Mode := rfl
@[simp] theorem State.withRamEnabled_ramEnabled (s : State) (b : Bool) : (s.withRamEnabled b).ramEnabled = b := rfl
@[simp] theorem State.withRamEnabled_dma (s : State) (b : Bool) : (s.withRamEnabled b).dma = s.dma := rfl
@[simp] theorem State.withRamEnabled_ppuMode (s : State) (b : Bool) : (s.withRamEnabled b).ppuMode = s.ppuMode := rfl
@[simp] theorem State.withRamEnabled_ppuElapsed (s : State) (b : Bool) : (s.withRamEnabled b).ppuElapsed = s.ppuElapsed := rfl
@[simp] theorem State.withRamEnabled_ppuLine (s : State) (b : Bool) : (s.withRamEnabled b).ppuLine = s.ppuLine := rfl
@[simp] theorem State.withRamEnabled_scratch (s : State) (b : Bool) : (s.withRamEnabled b).scratch = s.scratch := rfl
@[simp] theorem State.withRamEnabled_front (s : State) (b : Bool) : (s.withRamEnabled b).front = s.front := rfl
@[simp] theorem State.withRamEnabled_frontSeq (s : State) (b : Bool) : (s.withRamEnabled b).frontSeq = s.frontSeq := rfl
@[simp] theorem State.withRamEnabled_tcount (s : State) (b : Bool) : (s.withRamEnabled b).tcount = s.tcount := rfl
@[simp] theorem State.withRamEnabled_tEnabled (s : State) (b : Bool) : (s.withRamEnabled b).tEnabled = s.tEnabled := rfl
@[simp] theorem State.withRamEnabled_tDivisor (s : State) (b : Bool) : (s.withRamEnabled b).tDivisor = s.tDivisor := rfl
@[simp] theorem State.withRamEnabled_irq (s : State) (b : Bool) : (s.withRamEnabled b).irq = s.irq := rfl
@[simp] theorem State.withRamEnabled_events (s : State) (b : Bool) : (s.withRamEnabled b).events = s.events := rfl
@[simp] theorem State.withRamEnabled_fault (s : State) (b : Bool) : (s.withRamEnabled b).fault = s.fault := rfl
@[simp] theorem State.withRamEnabled_inbox (s : State) (b : Bool) : (s.withRamEnabled b).inbox = s.inbox := rfl
@[simp] theorem State.withRamEnabled_reply (s : State) (b : Bool) : (s.withRamEnabled b).reply = s.reply := rfl
@[simp] theorem State.withRamEnabled_draws (s : State) (b : Bool) : (s.withRamEnabled b).draws = s.draws := rfl
@[simp] theorem State.withRamEnabled_sysSteps (s : State) (b : Bool) : (s.withRamEnabled b).sysSteps = s.sysSteps := rfl

@[simp] theorem State.withDma_params (s : State) (d : List Transfer) : (s.withDma d).params = s.params := rfl
@[simp] theorem State.withDma_variant (s : State) (d : List Transfer) : (s.withDma d).variant = s.variant := rfl
@[simp] theorem State.withDma_boot (s : State) (d : List Transfer) : (s.withDma d).boot = s.boot := rfl
@[simp] theorem State.withDma_rom (s : State) (d : List Transfer) : (s.withDma d).rom = s.rom := rfl
@[simp] theorem State.withDma_romLen (s : State) (d : List Transfer) : (s.withDma d).romLen = s.romLen := rfl
@[simp] theorem State.withDma_vram (s : State) (d : List Transfer) : (s.withDma d).vram = s.vram := rfl
@[simp] theorem State.withDma_eram (s : State) (d : List Transfer) : (s.withDma d).eram = s.eram := rfl
@[simp] theorem State.withDma_wram (s : State) (d : List Transfer) : (s.withDma d).wram = s.wram := rfl
@[simp] theorem State.withDma_oam (s : State) (d : List Transfer) : (s.withDma d).oam = s.oam := rfl
@[simp] theorem State.withDma_io (s : State) (d : List Transfer) : (s.withDma d).io = s.io := rfl
@[simp] theorem State.withDma_hram (s : State) (d : List Transfer) : (s.withDma d).hram = s.hram := rfl
@[simp] theorem State.withDma_bootEnabled (s : State) (d : List Transfer) : (s.withDma d).bootEnabled = s.bootEnabled := rfl
@[simp] theorem State.withDma_romBank (s : State) (d : List Transfer) : (s.withDma d).romBank = s.romBank := rfl
@[simp] theorem State.withDma_ramBank (s : State) (d : List Transfer) : (s.withDma d).ramBank = s.ramBank := rfl
@[simp] theorem State.withDma_mbc1Mode (s : State) (d : List Transfer) : (s.withDma d).mbc1Mode = s.mbc1Mode := rfl
@[simp] theorem State.withDma_ramEnabled (s : State) (d : List Transfer) : (s.withDma d).ramEnabled = s.ramEnabled := rfl
@[simp] theorem State.withDma_dma (s : State) (d : List Transfer) : (s.withDma d).dma = d := rfl
@[simp] theorem State.withDma_ppuMode (s : State) (d : List Transfer) : (s.withDma d).ppuMode = s.ppuMode := rfl
@[simp] theorem State.withDma_ppuElapsed (s : State) (d : List Transfer) : (s.withDma d).ppuElapsed = s.ppuElapsed := rfl
@[simp] theorem State.withDma_ppuLine (s : State) (d : List Transfer) : (s.withDma d).ppuLine = s.ppuLine := rfl
@[simp] theorem State.withDma_scratch (s : State) (d : List Transfer) : (s.withDma d).scratch = s.scratch := rfl
@[simp] theorem State.withDma_front (s : State) (d : List Transfer) : (s.withDma d).front = s.front := rfl
@[simp] theorem State.withDma_frontSeq (s : State) (d : List Transfer) : (s.withDma d).frontSeq = s.frontSeq := rfl
@[simp] theorem State.withDma_tcount (s : State) (d : List Transfer) : (s.withDma d).tcount = s.tcount := rfl
@[simp] theorem State.withDma_tEnabled (s : State) (d : List Transfer) : (s.withDma d).tEnabled = s.tEnabled := rfl
@[simp] theorem State.withDma_tDivisor (s : State) (d : List Transfer) : (s.withDma d).tDivisor = s.tDivisor := rfl
@[simp] theorem State.withDma_irq (s : State) (d : List Transfer) : (s.withDma d).irq = s.irq := rfl
@[simp] theorem State.withDma_events (s : State) (d : List Transfer) : (s.withDma d).events = s.events := rfl
@[simp] theorem State.withDma_fault (s : State) (d : List Transfer) : (s.withDma d).fault = s.fault := rfl
@[simp] theorem State.withDma_inbox (s : State) (d : List Transfer) : (s.withDma d).inbox = s.inbox := rfl
@[simp] theorem State.withDma_reply (s : State) (d : List Transfer) : (s.withDma d).reply = s.reply := rfl
@[simp] theorem State.withDma_draws (s : State) (d : List Transfer) : (s.withDma d).draws = s.draws := rfl
@[simp] theorem State.withDma_sysSteps (s : State) (d : List Transfer) : (s.withDma d).sysSteps = s.sysSteps := rfl

@[simp] theorem State.withPpu_params (s : State) (m : PpuMode) (e l : Nat) : (s.withPpu m e l).params = s.params := rfl
@[simp] theorem State.withPpu_variant (s : State) (m : PpuMode) (e l : Nat) : (s.withPpu m e l).variant = s.variant := rfl
@[simp] theorem State.withPpu_boot (s : State) (m : PpuMode) (e l : Nat) : (s.withPpu m e l).boot = s.boot := rfl
@[simp] theorem State.withPpu_rom (s : State) (m : PpuMode) (e l : Nat) : (s.withPpu m e l).rom = s.rom := rfl
@[simp] theorem State.withPpu_romLen (s : State) (m : PpuMode) (e l : Nat) : (s.withPpu m e l).romLen = s.romLen := rfl
@[simp] theorem State.withPpu_vram (s : State) (m : PpuMode) (e l : Nat) : (s.withPpu m e l).vram = s.vram := rfl
@[simp] theorem State.withPpu_eram (s : State) (m : PpuMode) (e l : Nat) : (s.withPpu m e l).eram = s.eram := rfl
@[simp] theorem State.withPpu_wram (s : State) (m : PpuMode) (e l : Nat) : (s.withPpu m e l).wram = s.wram := rfl
@[simp] theorem State.withPpu_oam (s : State) (m : PpuMode) (e l : Nat) : (s.withPpu m e l).oam = s.oam := rfl
@[simp] theorem State.withPpu_io (s : State) (m : PpuMode) (e l : Nat) : (s.withPpu m e l).io = s.io := rfl
@[simp] theorem State.withPpu_hram (s : State) (m : PpuMode) (e l : Nat) : (s.withPpu m e l).hram = s.hram := rfl
@[simp] theorem State.withPpu_bootEnabled (s : State) (m : PpuMode) (e l : Nat) : (s.withPpu m e l).bootEnabled = s.bootEnabled := rfl
@[simp] theorem State.withPpu_romBank (s : State) (m : PpuMode) (e l : Nat) : (s.withPpu m e l).romBank = s.romBank := rfl
@[simp] theorem State.withPpu_ramBank (s : State) (m : PpuMode) (e l : Nat) : (s.withPpu m e l).ramBank = s.ramBank := rfl
@[simp] theorem State.withPpu_mbc1Mode (s : State) (m : PpuMode) (e l : Nat) : (s.withPpu m e l).mbc1Mode = s.mbc1Mode := rfl
@[simp] theorem State.withPpu_ramEnabled (s : State) (m : PpuMode) (e l : Nat) : (s.withPpu m e l).ramEnabled = s.ramEnabled := rfl
@[simp] theorem State.withPpu_dma (s : State) (m : PpuMode) (e l : Nat) : (s.withPpu m e l).dma = s.dma := rfl
@[simp] theorem State.withPpu_ppuMode (s : State) (m : PpuMode) (e l : Nat) : (s.withPpu m e l).ppuMode = m := rfl
@[simp] theorem State.withPpu_ppuElapsed (s : State) (m : PpuMode) (e l : Nat) : (s.withPpu m e l).ppuElapsed = e := rfl
@[simp] theorem State.withPpu_ppuLine (s : State) (m : PpuMode) (e l : Nat) : (s.withPpu m e l).ppuLine = l := rfl
@[simp] theorem State.withPpu_scratch (s : State) (m : PpuMode) (e l : Nat) : (s.withPpu m e l).scratch = s.scratch := rfl
@[simp] theorem State.withPpu_front (s : State) (m : PpuMode) (e l : Nat) : (s.withPpu m e l).front = s.front := rfl
@[simp] theorem State.withPpu_frontSeq (s : State) (m : PpuMode) (e l : Nat) : (s.withPpu m e l).frontSeq = s.frontSeq := rfl
@[simp] theorem State.withPpu_tcount (s : State) (m : PpuMode) (e l : Nat) : (s.withPpu m e l).tcount = s.tcount := rfl
@[simp] theorem State.withPpu_tEnabled (s : State) (m : PpuMode) (e l : Nat) : (s.withPpu m e l).tEnabled = s.tEnabled := rfl
@[simp] theorem State.withPpu_tDivisor (s : State) (m : PpuMode) (e l : Nat) : (s.withPpu m e l).tDivisor = s.tDivisor := rfl
@[simp] theorem State.withPpu_irq (s : State) (m : PpuMode) (e l : Nat) : (s.withPpu m e l).irq = s.irq := rfl
@[simp] theorem State.withPpu_events (s : State) (m : PpuMode) (e l : Nat) : (s.withPpu m e l).events = s.events := rfl
@[simp] theorem State.withPpu_fault (s : State) (m : PpuMode) (e l : Nat) : (s.withPpu m e l).fault = s.fault := rfl
@[simp] theorem State.withPpu_inbox (s : State) (m : PpuMode) (e l : Nat) : (s.withPpu m e l).inbox = s.inbox := rfl
@[simp] theorem State.withPpu_reply (s : State) (m : PpuMode) (e l : Nat) : (s.withPpu m e l).reply = s.reply := rfl
@[simp] theorem State.withPpu_draws (s : State) (m : PpuMode) (e l : Nat) : (s.withPpu m e l).draws = s.draws := rfl
@[simp] theorem State.withPpu_sysSteps (s : State) (m : PpuMode) (e l : Nat) : (s.withPpu m e l).sysSteps = s.sysSteps := rfl

@[simp] theorem State.withScratch_params (s : State) (g : Grid) : (s.withScratch g).params = s.params := rfl
@[simp] theorem State.withScratch_variant (s : State) (g : Grid) : (s.withScratch g).variant = s.variant := rfl
@[simp] theorem State.withScratch_boot (s : State) (g : Grid) : (s.withScratch g).boot = s.boot := rfl
@[simp] theorem State.withScratch_rom (s : State) (g : Grid) : (s.withScratch g).rom = s.rom := rfl
@[simp] theorem State.withScratch_romLen (s : State) (g : Grid) : (s.withScratch g).romLen = s.romLen := rfl
@[simp] theorem State.withScratch_vram (s : State) (g : Grid) : (s.withScratch g).vram = s.vram := rfl
@[simp] theorem State.withScratch_eram (s : State) (g : Grid) : (s.withScratch g).eram = s.eram := rfl
@[simp] theorem State.withScratch_wram (s : State) (g : Grid) : (s.withScratch g).wram = s.wram := rfl
@[simp] theorem State.withScratch_oam (s : State) (g : Grid) : (s.withScratch g).oam = s.oam := rfl
@[simp] theorem State.withScratch_io (s : State) (g : Grid) : (s.withScratch g).io = s.io := rfl
@[simp] theorem State.withScratch_hram (s : State) (g : Grid) : (s.withScratch g).hram = s.hram := rfl
@[simp] theorem State.withScratch_bootEnabled (s : State) (g : Grid) : (s.withScratch g).bootEnabled = s.bootEnabled := rfl
@[simp] theorem State.withScratch_romBank (s : State) (g : Grid) : (s.withScratch g).romBank = s.romBank := rfl
@[simp] theorem State.withScratch_ramBank (s : State) (g : Grid) : (s.withScratch g).ramBank = s.ramBank := rfl
@[simp] theorem State.withScratch_mbc1Mode (s : State) (g : Grid) : (s.withScratch g).mbc1Mode = s.mbc1Mode := rfl
@[simp] theorem State.withScratch_ramEnabled (s : State) (g : Grid) : (s.withScratch g).ramEnabled = s.ramEnabled := rfl
@[simp] theorem State.withScratch_dma (s : State) (g : Grid) : (s.withScratch g).dma = s.dma := rfl
@[simp] theorem State.withScratch_ppuMode (s : State) (g : Grid) : (s.withScratch g).ppuMode = s.ppuMode := rfl
@[simp] theorem State.withScratch_ppuElapsed (s : State) (g : Grid) : (s.withScratch g).ppuElapsed = s.ppuElapsed := rfl
@[simp] theorem State.withScratch_ppuLine (s : State) (g : Grid) : (s.withScratch g).ppuLine = s.ppuLine := rfl
@[simp] theorem State.withScratch_scratch (s : State) (g : Grid) : (s.withScratch g).scratch = g := rfl
@[simp] theorem State.withScratch_front (s : State) (g : Grid) : (s.withScratch g).front = s.front := rfl
@[simp] theorem State.withScratch_frontSeq (s : State) (g : Grid) : (s.withScratch g).frontSeq = s.frontSeq := rfl
@[simp] theorem State.withScratch_tcount (s : State) (g : Grid) : (s.withScratch g).tcount = s.tcount := rfl
@[simp] theorem State.withScratch_tEnabled (s : State) (g : Grid) : (s.withScratch g).tEnabled = s.tEnabled := rfl
@[simp] theorem State.withScratch_tDivisor (s : State) (g : Grid) : (s.withScratch g).tDivisor = s.tDivisor := rfl
@[simp] theorem State.withScratch_irq (s : State) (g : Grid) : (s.withScratch g).irq = s.irq := rfl
@[simp] theorem State.withScratch_events (s : State) (g : Grid) : (s.withScratch g).events = s.events := rfl
@[simp] theorem State.withScratch_fault (s : State) (g : Grid) : (s.withScratch g).fault = s.fault := rfl
@[simp] theorem State.withScratch_inbox (s : State) (g : Grid) : (s.withScratch g).inbox = s.inbox := rfl
@[simp] theorem State.withScratch_reply (s : State) (g : Grid) : (s.withScratch g).reply = s.reply := rfl
@[simp] theorem State.withScratch_draws (s : State) (g : Grid) : (s.withScratch g).draws = s.draws := rfl
@[simp] theorem State.withScratch_sysSteps (s : State) (g : Grid) : (s.withScratch g).sysSteps = s.sysSteps := rfl

@[simp] theorem State.withFront_params (s : State) (g : Grid) (n : Nat) : (s.withFront g n).params = s.params := rfl
@[simp] theorem State.withFront_variant (s : State) (g : Grid) (n : Nat) : (s.withFront g n).variant = s.variant := rfl
@[simp] theorem State.withFront_boot (s : State) (g : Grid) (n : Nat) : (s.withFront g n).boot = s.boot := rfl
@[simp] theorem State.withFront_rom (s : State) (g : Grid) (n : Nat) : (s.withFront g n).rom = s.rom := rfl
@[simp] theorem State.withFront_romLen (s : State) (g : Grid) (n : Nat) : (s.withFront g n).romLen = s.romLen := rfl
@[simp] theorem State.withFront_vram (s : State) (g : Grid) (n : Nat) : (s.withFront g n).vram = s.vram := rfl
@[simp] theorem State.withFront_eram (s : State) (g : Grid) (n : Nat) : (s.withFront g n).eram = s.eram := rfl
@[simp] theorem State.withFront_wram (s : State) (g : Grid) (n : Nat) : (s.withFront g n).wram = s.wram := rfl
@[simp] theorem State.withFront_oam (s : State) (g : Grid) (n : Nat) : (s.withFront g n).oam = s.oam := rfl
@[simp] theorem State.withFront_io (s : State) (g : Grid) (n : Nat) : (s.withFront g n).io = s.io := rfl
@[simp] theorem State.withFront_hram (s : State) (g : Grid) (n : Nat) : (s.withFront g n).hram = s.hram := rfl
@[simp] theorem State.withFront_bootEnabled (s : State) (g : Grid) (n : Nat) : (s.withFront g n).bootEnabled = s.bootEnabled := rfl
@[simp] theorem State.withFront_romBank (s : State) (g : Grid) (n : Nat) : (s.withFront g n).romBank = s.romBank := rfl
@[simp] theorem State.withFront_ramBank (s : State) (g : Grid) (n : Nat) : (s.withFront g n).ramBank = s.ramBank := rfl
@[simp] theorem State.withFront_mbc1Mode (s : State) (g : Grid) (n : Nat) : (s.withFront g n).mbc1Mode = s.mbc1Mode := rfl
@[simp] theorem State.withFront_ramEnabled (s : State) (g : Grid) (n : Nat) : (s.withFront g n).ramEnabled = s.ramEnabled := rfl
@[simp] theorem State.withFront_dma (s : State) (g : Grid) (n : Nat) : (s.withFront g n).dma = s.dma := rfl
@[simp] theorem State.withFront_ppuMode (s : State) (g : Grid) (n : Nat) : (s.withFront g n).ppuMode = s.ppuMode := rfl
@[simp] theorem State.withFront_ppuElapsed (s : State) (g : Grid) (n : Nat) : (s.withFront g n).ppuElapsed = s.ppuElapsed := rfl
@[simp] theorem State.withFront_ppuLine (s : State) (g : Grid) (n : Nat) : (s.withFront g n).ppuLine = s.ppuLine := rfl
@[simp] theorem State.withFront_scratch (s : State) (g : Grid) (n : Nat) : (s.withFront g n).scratch = s.scratch := rfl
@[simp] theorem State.withFront_front (s : State) (g : Grid) (n : Nat) : (s.withFront g n).front = g := rfl
@[simp] theorem State.withFront_frontSeq (s : State) (g : Grid) (n : Nat) : (s.withFront g n).frontSeq = n := rfl
@[simp] theorem State.withFront_tcount (s : State) (g : Grid) (n : Nat) : (s.withFront g n).tcount = s.tcount := rfl
@[simp] theorem State.withFront_tEnabled (s : State) (g : Grid) (n : Nat) : (s.withFront g n).tEnabled = s.tEnabled := rfl
@[simp] theorem State.withFront_tDivisor (s : State) (g : Grid) (n : Nat) : (s.withFront g n).tDivisor = s.tDivisor := rfl
@[simp] theorem State.withFront_irq (s : State) (g : Grid) (n : Nat) : (s.withFront g n).irq = s.irq := rfl
@[simp] theorem State.withFront_events (s : State) (g : Grid) (n : Nat) : (s.withFront g n).events = s.events := rfl
@[simp] theorem State.withFront_fault (s : State) (g : Grid) (n : Nat) : (s.withFront g n).fault = s.fault := rfl
@[simp] theorem State.withFront_inbox (s : State) (g : Grid) (n : Nat) : (s.withFront g n).inbox = s.inbox := rfl
@[simp] theorem State.withFront_reply (s : State) (g : Grid) (n : Nat) : (s.withFront g n).reply = s.reply := rfl
@[simp] theorem State.withFront_draws (s : State) (g : Grid) (n : Nat) : (s.withFront g n).draws = s.draws := rfl
@[simp] theorem State.withFront_sysSteps (s : State) (g : Grid) (n : Nat) : (s.withFront g n).sysSteps = s.sysSteps := rfl

@[simp] theorem State.withTcount_params (s : State) (c : BitVec 10) : (s.withTcount c).params = s.params := rfl
@[simp] theorem State.withTcount_variant (s : State) (c : BitVec 10) : (s.withTcount c).variant = s.variant := rfl
@[simp] theorem State.withTcount_boot (s : State) (c : BitVec 10) : (s.withTcount c).boot = s.boot := rfl
@[simp] theorem State.withTcount_rom (s : State) (c : BitVec 10) : (s.withTcount c).rom = s.rom := rfl
@[simp] theorem State.withTcount_romLen (s : State) (c : BitVec 10) : (s.withTcount c).romLen = s.romLen := rfl
@[simp] theorem State.withTcount_vram (s : State) (c : BitVec 10) : (s.withTcount c).vram = s.vram := rfl
@[simp] theorem State.withTcount_eram (s : State) (c : BitVec 10) : (s.withTcount c).eram = s.eram := rfl
@[simp] theorem State.withTcount_wram (s : State) (c : BitVec 10) : (s.withTcount c).wram = s.wram := rfl
@[simp] theorem State.withTcount_oam (s : State) (c : BitVec 10) : (s.withTcount c).oam = s.oam := rfl
@[simp] theorem State.withTcount_io (s : State) (c : BitVec 10) : (s.withTcount c).io = s.io := rfl
@[simp] theorem State.withTcount_hram (s : State) (c : BitVec 10) : (s.withTcount c).hram = s.hram := rfl
@[simp] theorem State.withTcount_bootEnabled (s : State) (c : BitVec 10) : (s.withTcount c).bootEnabled = s.bootEnabled := rfl
@[simp] theorem State.withTcount_romBank (s : State) (c : BitVec 10) : (s.withTcount c).romBank = s.romBank := rfl
@[simp] theorem State.withTcount_ramBank (s : State) (c : BitVec 10) : (s.withTcount c).ramBank = s.ramBank := rfl
@[simp] theorem State.withTcount_mbc1Mode (s : State) (c : BitVec 10) : (s.withTcount c).mbc1Mode = s.mbc1Mode := rfl
@[simp] theorem State.withTcount_ramEnabled (s : State) (c : BitVec 10) : (s.withTcount c).ramEnabled = s.ramEnabled := rfl
@[simp] theorem State.withTcount_dma (s : State) (c : BitVec 10) : (s.withTcount c).dma = s.dma := rfl
@[simp] theorem State.withTcount_ppuMode (s : State) (c : BitVec 10) : (s.withTcount c).ppuMode = s.ppuMode := rfl
@[simp] theorem State.withTcount_ppuElapsed (s : State) (c : BitVec 10) : (s.withTcount c).ppuElapsed = s.ppuElapsed := rfl
@[simp] theorem State.withTcount_ppuLine (s : State) (c : BitVec 10) : (s.withTcount c).ppuLine = s.ppuLine := rfl
@[simp] theorem State.withTcount_scratch (s : State) (c : BitVec 10) : (s.withTcount c).scratch = s.scratch := rfl
@[simp] theorem State.withTcount_front (s : State) (c : BitVec 10) : (s.withTcount c).front = s.front := rfl
@[simp] theorem State.withTcount_frontSeq (s : State) (c : BitVec 10) : (s.withTcount c).frontSeq = s.frontSeq := rfl
@[simp] theorem State.withTcount_tcount (s : State) (c : BitVec 10) : (s.withTcount c).tcount = c := rfl
@[simp] theorem State.withTcount_tEnabled (s : State) (c : BitVec 10) : (s.withTcount c).tEnabled = s.tEnabled := rfl
@[simp] theorem State.withTcount_tDivisor (s : State) (c : BitVec 10) : (s.withTcount c).tDivisor = s.tDivisor := rfl
@[simp] theorem State.withTcount_irq (s : State) (c : BitVec 10) : (s.withTcount c).irq = s.irq := rfl
@[simp] theorem State.withTcount_events (s : State) (c : BitVec 10) : (s.withTcount c).events = s.events := rfl
@[simp] theorem State.withTcount_fault (s : State) (c : BitVec 10) : (s.withTcount c).fault = s.fault := rfl
@[simp] theorem State.withTcount_inbox (s : State) (c : BitVec 10) : (s.withTcount c).inbox = s.inbox := rfl
@[simp] theorem State.withTcount_reply (s : State) (c : BitVec 10) : (s.withTcount c).reply = s.reply := rfl
@[simp] theorem State.withTcount_draws (s : State) (c : BitVec 10) : (s.withTcount c).draws = s.draws := rfl
@[simp] theorem State.withTcount_sysSteps (s : State) (c : BitVec 10) : (s.withTcount c).sysSteps = s.sysSteps := rfl

@[simp] theorem State.withTimer_params (s : State) (en : Bool) (n : Nat) : (s.withTimer en n).params = s.params := rfl
@[simp] theorem State.withTimer_variant (s : State) (en : Bool) (n : Nat) : (s.withTimer en n).variant = s.variant := rfl
@[simp] theorem State.withTimer_boot (s : State) (en : Bool) (n : Nat) : (s.withTimer en n).boot = s.boot := rfl
@[simp] theorem State.withTimer_rom (s : State) (en : Bool) (n : Nat) : (s.withTimer en n).rom = s.rom := rfl
@[simp] theorem State.withTimer_romLen (s : State) (en : Bool) (n : Nat) : (s.withTimer en n).romLen = s.romLen := rfl
@[simp] theorem State.withTimer_vram (s : State) (en : Bool) (n : Nat) : (s.withTimer en n).vram = s.vram := rfl
@[simp] theorem State.withTimer_eram (s : State) (en : Bool) (n : Nat) : (s.withTimer en n).eram = s.eram := rfl
@[simp] theorem State.withTimer_wram (s : State) (en : Bool) (n : Nat) : (s.withTimer en n).wram = s.wram := rfl
@[simp] theorem State.withTimer_oam (s : State) (en : Bool) (n : Nat) : (s.withTimer en n).oam = s.oam := rfl
@[simp] theorem State.withTimer_io (s : State) (en : Bool) (n : Nat) : (s.withTimer en n).io = s.io := rfl
@[simp] theorem State.withTimer_hram (s : State) (en : Bool) (n : Nat) : (s.withTimer en n).hram = s.hram := rfl
@[simp] theorem State.withTimer_bootEnabled (s : State) (en : Bool) (n : Nat) : (s.withTimer en n).bootEnabled = s.bootEnabled := rfl
@[simp] theorem State.withTimer_romBank (s : State) (en : Bool) (n : Nat) : (s.withTimer en n).romBank = s.romBank := rfl
@[simp] theorem State.withTimer_ramBank (s : State) (en : Bool) (n : Nat) : (s.withTimer en n).ramBank = s.ramBank := rfl
@[simp] theorem State.withTimer_mbc1Mode (s : State) (en : Bool) (n : Nat) : (s.withTimer en n).mbc1Mode = s.mbc1Mode := rfl
@[simp] theorem State.withTimer_ramEnabled (s : State) (en : Bool) (n : Nat) : (s.withTimer en n).ramEnabled = s.ramEnabled := rfl
@[simp] theorem State.withTimer_dma (s : State) (en : Bool) (n : Nat) : (s.withTimer en n).dma = s.dma := rfl
@[simp] theorem State.withTimer_ppuMode (s : State) (en : Bool) (n : Nat) : (s.withTimer en n).ppuMode = s.ppuMode := rfl
@[simp] theorem State.withTimer_ppuElapsed (s : State) (en : Bool) (n : Nat) : (s.withTimer en n).ppuElapsed = s.ppuElapsed := rfl
@[simp] theorem State.withTimer_ppuLine (s : State) (en : Bool) (n : Nat) : (s.withTimer en n).ppuLine = s.ppuLine := rfl
@[simp] theorem State.withTimer_scratch (s : State) (en : Bool) (n : Nat) : (s.withTimer en n).scratch = s.scratch := rfl
@[simp] theorem State.withTimer_front (s : State) (en : Bool) (n : Nat) : (s.withTimer en n).front = s.front := rfl
@[simp] theorem State.withTimer_frontSeq (s : State) (en : Bool) (n : Nat) : (s.withTimer en n).frontSeq = s.frontSeq := rfl
@[simp] theorem State.withTimer_tcount (s : State) (en : Bool) (n : Nat) : (s.withTimer en n).tcount = s.tcount := rfl
@[simp] theorem State.withTimer_tEnabled (s : State) (en : Bool) (n : Nat) : (s.withTimer en n).tEnabled = en := rfl
@[simp] theorem State.withTimer_tDivisor (s : State) (en : Bool) (n : Nat) : (s.withTimer en n).tDivisor = n := rfl
@[simp] theorem State.withTimer_irq (s : State) (en : Bool) (n : Nat) : (s.withTimer en n).irq = s.irq := rfl
@[simp] theorem State.withTimer_events (s : State) (en : Bool) (n : Nat) : (s.withTimer en n).events = s.events := rfl
@[simp] theorem State.withTimer_fault (s : State) (en : Bool) (n : Nat) : (s.withTimer en n).fault = s.fault := rfl
@[simp] theorem State.withTimer_inbox (s : State) (en : Bool) (n : Nat) : (s.withTimer en n).inbox = s.inbox := rfl
@[simp] theorem State.withTimer_reply (s : State) (en : Bool) (n : Nat) : (s.withTimer en n).reply = s.reply := rfl
@[simp] theorem State.withTimer_draws (s : State) (en : Bool) (n : Nat) : (s.withTimer en n).draws = s.draws := rfl
@[simp] theorem State.withTimer_sysSteps (s : State) (en : Bool) (n : Nat) : (s.withTimer en n).sysSteps = s.sysSteps := rfl

@[simp] theorem State.withIrq_params (s : State) (i : BitVec 5) : (s.withIrq i).params = s.params := rfl
@[simp] theorem State.withIrq_variant (s : State) (i : BitVec 5) : (s.withIrq i).variant = s.variant := rfl
@[simp] theorem State.withIrq_boot (s : State) (i : BitVec 5) : (s.withIrq i).boot = s.boot := rfl
@[simp] theorem State.withIrq_rom (s : State) (i : BitVec 5) : (s.withIrq i).rom = s.rom := rfl
@[simp] theorem State.withIrq_romLen (s : State) (i : BitVec 5) : (s.withIrq i).romLen = s.romLen := rfl
@[simp] theorem State.withIrq_vram (s : State) (i : BitVec 5) : (s.withIrq i).vram = s.vram := rfl
@[simp] theorem State.withIrq_eram (s : State) (i : BitVec 5) : (s.withIrq i).eram = s.eram := rfl
@[simp] theorem State.withIrq_wram (s : State) (i : BitVec 5) : (s.withIrq i).wram = s.wram := rfl
@[simp] theorem State.withIrq_oam (s : State) (i : BitVec 5) : (s.withIrq i).oam = s.oam := rfl
@[simp] theorem State.withIrq_io (s : State) (i : BitVec 5) : (s.withIrq i).io = s.io := rfl
@[simp] theorem State.withIrq_hram (s : State) (i : BitVec 5) : (s.withIrq i).hram = s.hram := rfl
@[simp] theorem State.withIrq_bootEnabled (s : State) (i : BitVec 5) : (s.withIrq i).bootEnabled = s.bootEnabled := rfl
@[simp] theorem State.withIrq_romBank (s : State) (i : BitVec 5) : (s.withIrq i).romBank = s.romBank := rfl
@[simp] theorem State.withIrq_ramBank (s : State) (i : BitVec 5) : (s.withIrq i).ramBank = s.ramBank := rfl
@[simp] theorem State.withIrq_mbc1Mode (s : State) (i : BitVec 5) : (s.withIrq i).mbc1Mode = s.mbc1Mode := rfl
@[simp] theorem State.withIrq_ramEnabled (s : State) (i : BitVec 5) : (s.withIrq i).ramEnabled = s.ramEnabled := rfl
@[simp] theorem State.withIrq_dma (s : State) (i : BitVec 5) : (s.withIrq i).dma = s.dma := rfl
@[simp] theorem State.withIrq_ppuMode (s : State) (i : BitVec 5) : (s.withIrq i).ppuMode = s.ppuMode := rfl
@[simp] theorem State.withIrq_ppuElapsed (s : State) (i : BitVec 5) : (s.withIrq i).ppuElapsed = s.ppuElapsed := rfl
@[simp] theorem State.withIrq_ppuLine (s : State) (i : BitVec 5) : (s.withIrq i).ppuLine = s.ppuLine := rfl
@[simp] theorem State.withIrq_scratch (s : State) (i : BitVec 5) : (s.withIrq i).scratch = s.scratch := rfl
@[simp] theorem State.withIrq_front (s : State) (i : BitVec 5) : (s.withIrq i).front = s.front := rfl
@[simp] theorem State.withIrq_frontSeq (s : State) (i : BitVec 5) : (s.withIrq i).frontSeq = s.frontSeq := rfl
@[simp] theorem State.withIrq_tcount (s : State) (i : BitVec 5) : (s.withIrq i).tcount = s.tcount := rfl
@[simp] theorem State.withIrq_tEnabled (s : State) (i : BitVec 5) : (s.withIrq i).tEnabled = s.tEnabled := rfl
@[simp] theorem State.withIrq_tDivisor (s : State) (i : BitVec 5) : (s.withIrq i).tDivisor = s.tDivisor := rfl
@[simp] theorem State.withIrq_irq (s : State) (i : BitVec 5) : (s.withIrq i).irq = i := rfl
@[simp] theorem State.withIrq_events (s : State) (i : BitVec 5) : (s.withIrq i).events = s.events := rfl
@[simp] theorem State.withIrq_fault (s : State) (i : BitVec 5) : (s.withIrq i).fault = s.fault := rfl
@[simp] theorem State.withIrq_inbox (s : State) (i : BitVec 5) : (s.withIrq i).inbox = s.inbox := rfl
@[simp] theorem State.withIrq_reply (s : State) (i : BitVec 5) : (s.withIrq i).reply = s.reply := rfl
@[simp] theorem State.withIrq_draws (s : State) (i : BitVec 5) : (s.withIrq i).draws = s.draws := rfl
@[simp] theorem State.withIrq_sysSteps (s : State) (i : BitVec 5) : (s.withIrq i).sysSteps = s.sysSteps := rfl

@[simp] theorem State.withEvents_params (s : State) (es : List RamWrite) : (s.withEvents es).params = s.params := rfl
@[simp] theorem State.withEvents_variant (s : State) (es : List RamWrite) : (s.withEvents es).variant = s.variant := rfl
@[simp] theorem State.withEvents_boot (s : State) (es : List RamWrite) : (s.withEvents es).boot = s.boot := rfl
@[simp] theorem State.withEvents_rom (s : State) (es : List RamWrite) : (s.withEvents es).rom = s.rom := rfl
@[simp] theorem State.withEvents_romLen (s : State) (es : List RamWrite) : (s.withEvents es).romLen = s.romLen := rfl
@[simp] theorem State.withEvents_vram (s : State) (es : List RamWrite) : (s.withEvents es).vram = s.vram := rfl
@[simp] theorem State.withEvents_eram (s : State) (es : List RamWrite) : (s.withEvents es).eram = s.eram := rfl
@[simp] theorem State.withEvents_wram (s : State) (es : List RamWrite) : (s.withEvents es).wram = s.wram := rfl
@[simp] theorem State.withEvents_oam (s : State) (es : List RamWrite) : (s.withEvents es).oam = s.oam := rfl
@[simp] theorem State.withEvents_io (s : State) (es : List RamWrite) : (s.withEvents es).io = s.io := rfl
@[simp] theorem State.withEvents_hram (s : State) (es : List RamWrite) : (s.withEvents es).hram = s.hram := rfl
@[simp] theorem State.withEvents_bootEnabled (s : State) (es : List RamWrite) : (s.withEvents es).bootEnabled = s.bootEnabled := rfl
@[simp] theorem State.withEvents_romBank (s : State) (es : List RamWrite) : (s.withEvents es).romBank = s.romBank := rfl
@[simp] theorem State.withEvents_ramBank (s : State) (es : List RamWrite) : (s.withEvents es).ramBank = s.ramBank := rfl
@[simp] theorem State.withEvents_mbc1Mode (s : State) (es : List RamWrite) : (s.withEvents es).mbc1Mode = s.mbc1Mode := rfl
@[simp] theorem State.withEvents_ramEnabled (s : State) (es : List RamWrite) : (s.withEvents es).ramEnabled = s.ramEnabled := rfl
@[simp] theorem State.withEvents_dma (s : State) (es : List RamWrite) : (s.withEvents es).dma = s.dma := rfl
@[simp] theorem State.withEvents_ppuMode (s : State) (es : List RamWrite) : (s.withEvents es).ppuMode = s.ppuMode := rfl
@[simp] theorem State.withEvents_ppuElapsed (s : State) (es : List RamWrite) : (s.withEvents es).ppuElapsed = s.ppuElapsed := rfl
@[simp] theorem State.withEvents_ppuLine (s : State) (es : List RamWrite) : (s.withEvents es).ppuLine = s.ppuLine := rfl
@[simp] theorem State.withEvents_scratch (s : State) (es : List RamWrite) : (s.withEvents es).scratch = s.scratch := rfl
@[simp] theorem State.withEvents_front (s : State) (es : List RamWrite) : (s.withEvents es).front = s.front := rfl
@[simp] theorem State.withEvents_frontSeq (s : State) (es : List RamWrite) : (s.withEvents es).frontSeq = s.frontSeq := rfl
@[simp] theorem State.withEvents_tcount (s : State) (es : List RamWrite) : (s.withEvents es).tcount = s.tcount := rfl
@[simp] theorem State.withEvents_tEnabled (s : State) (es : List RamWrite) : (s.withEvents es).tEnabled = s.tEnabled := rfl
@[simp] theorem State.withEvents_tDivisor (s : State) (es : List RamWrite) : (s.withEvents es).tDivisor = s.tDivisor := rfl
@[simp] theorem State.withEvents_irq (s : State) (es : List RamWrite) : (s.withEvents es).irq = s.irq := rfl
@[simp] theorem State.withEvents_events (s : State) (es : List RamWrite) : (s.withEvents es).events = es := rfl
@[simp] theorem State.withEvents_fault (s : State) (es : List RamWrite) : (s.withEvents es).fault = s.fault := rfl
@[simp] theorem State.withEvents_inbox (s : State) (es : List RamWrite) : (s.withEvents es).inbox = s.inbox := rfl
@[simp] theorem State.withEvents_reply (s : State) (es : List RamWrite) : (s.withEvents es).reply = s.reply := rfl
@[simp] theorem State.withEvents_draws (s : State) (es : List RamWrite) : (s.withEvents es).draws = s.draws := rfl
@[simp] theorem State.withEvents_sysSteps (s : State) (es : List RamWrite) : (s.withEvents es).sysSteps = s.sysSteps := rfl

@[simp] theorem State.withFault_params (s : State) (f : Option Fault) : (s.withFault f).params = s.params := rfl
@[simp] theorem State.withFault_variant (s : State) (f : Option Fault) : (s.withFault f).variant = s.variant := rfl
@[simp] theorem State.withFault_boot (s : State) (f : Option Fault) : (s.withFault f).boot = s.boot := rfl
@[simp] theorem State.withFault_rom (s : State) (f : Option Fault) : (s.withFault f).rom = s.rom := rfl
@[simp] theorem State.withFault_romLen (s : State) (f : Option Fault) : (s.withFault f).romLen = s.romLen := rfl
@[simp] theorem State.withFault_vram (s : State) (f : Option Fault) : (s.withFault f).vram = s.vram := rfl
@[simp] theorem State.withFault_eram (s : State) (f : Option Fault) : (s.withFault f).eram = s.eram := rfl
@[simp] theorem State.withFault_wram (s : State) (f : Option Fault) : (s.withFault f).wram = s.wram := rfl
@[simp] theorem State.withFault_oam (s : State) (f : Option Fault) : (s.withFault f).oam = s.oam := rfl
@[simp] theorem State.withFault_io (s : State) (f : Option Fault) : (s.withFault f).io = s.io := rfl
@[simp] theorem State.withFault_hram (s : State) (f : Option Fault) : (s.withFault f).hram = s.hram := rfl
@[simp] theorem State.withFault_bootEnabled (s : State) (f : Option Fault) : (s.withFault f).bootEnabled = s.bootEnabled := rfl
@[simp] theorem State.withFault_romBank (s : State) (f : Option Fault) : (s.withFault f).romBank = s.romBank := rfl
@[simp] theorem State.withFault_ramBank (s : State) (f : Option Fault) : (s.withFault f).ramBank = s.ramBank := rfl
@[simp] theorem State.withFault_mbc1Mode (s : State) (f : Option Fault) : (s.withFault f).mbc1Mode = s.mbc1Mode := rfl
@[simp] theorem State.withFault_ramEnabled (s : State) (f : Option Fault) : (s.withFault f).ramEnabled = s.ramEnabled := rfl
@[simp] theorem State.withFault_dma (s : State) (f : Option Fault) : (s.withFault f).dma = s.dma := rfl
@[simp] theorem State.withFault_ppuMode (s : State) (f : Option Fault) : (s.withFault f).ppuMode = s.ppuMode := rfl
@[simp] theorem State.withFault_ppuElapsed (s : State) (f : Option Fault) : (s.withFault f).ppuElapsed = s.ppuElapsed := rfl
@[simp] theorem State.withFault_ppuLine (s : State) (f : Option Fault) : (s.withFault f).ppuLine = s.ppuLine := rfl
@[simp] theorem State.withFault_scratch (s : State) (f : Option Fault) : (s.withFault f).scratch = s.scratch := rfl
@[simp] theorem State.withFault_front (s : State) (f : Option Fault) : (s.withFault f).front = s.front := rfl
@[simp] theorem State.withFault_frontSeq (s : State) (f : Option Fault) : (s.withFault f).frontSeq = s.frontSeq := rfl
@[simp] theorem State.withFault_tcount (s : State) (f : Option Fault) : (s.withFault f).tcount = s.tcount := rfl
@[simp] theorem State.withFault_tEnabled (s : State) (f : Option Fault) : (s.withFault f).tEnabled = s.tEnabled := rfl
@[simp] theorem State.withFault_tDivisor (s : State) (f : Option Fault) : (s.withFault f).tDivisor = s.tDivisor := rfl
@[simp] theorem State.withFault_irq (s : State) (f : Option Fault) : (s.withFault f).irq = s.irq := rfl
@[simp] theorem State.withFault_events (s : State) (f : Option Fault) : (s.withFault f).events = s.events := rfl
@[simp] theorem State.withFault_fault (s : State) (f : Option Fault) : (s.withFault f).fault = f := rfl
@[simp] theorem State.withFault_inbox (s : State) (f : Option Fault) : (s.withFault f).inbox = s.inbox := rfl
@[simp] theorem State.withFault_reply (s : State) (f : Option Fault) : (s.withFault f).reply = s.reply := rfl
@[simp] theorem State.withFault_draws (s : State) (f : Option Fault) : (s.withFault f).draws = s.draws := rfl
@[simp] theorem State.withFault_sysSteps (s : State) (f : Option Fault) : (s.withFault f).sysSteps = s.sysSteps := rfl

@[simp] theorem State.withInbox_params (s : State) (ts : List Txn) : (s.withInbox ts).params = s.params := rfl
@[simp] theorem State.withInbox_variant (s : State) (ts : List Txn) : (s.withInbox ts).variant = s.variant := rfl
@[simp] theorem State.withInbox_boot (s : State) (ts : List Txn) : (s.withInbox ts).boot = s.boot := rfl
@[simp] theorem State.withInbox_rom (s : State) (ts : List Txn) : (s.withInbox ts).rom = s.rom := rfl
@[simp] theorem State.withInbox_romLen (s : State) (ts : List Txn) : (s.withInbox ts).romLen = s.romLen := rfl
@[simp] theorem State.withInbox_vram (s : State) (ts : List Txn) : (s.withInbox ts).vram = s.vram := rfl
@[simp] theorem State.withInbox_eram (s : State) (ts : List Txn) : (s.withInbox ts).eram = s.eram := rfl
@[simp] theorem State.withInbox_wram (s : State) (ts : List Txn) : (s.withInbox ts).wram = s.wram := rfl
@[simp] theorem State.withInbox_oam (s : State) (ts : List Txn) : (s.withInbox ts).oam = s.oam := rfl
@[simp] theorem State.withInbox_io (s : State) (ts : List Txn) : (s.withInbox ts).io = s.io := rfl
@[simp] theorem State.withInbox_hram (s : State) (ts : List Txn) : (s.withInbox ts).hram = s.hram := rfl
@[simp] theorem State.withInbox_bootEnabled (s : State) (ts : List Txn) : (s.withInbox ts).bootEnabled = s.bootEnabled := rfl
@[simp] theorem State.withInbox_romBank (s : State) (ts : List Txn) : (s.withInbox ts).romBank = s.romBank := rfl
@[simp] theorem State.withInbox_ramBank (s : State) (ts : List Txn) : (s.withInbox ts).ramBank = s.ramBank := rfl
@[simp] theorem State.withInbox_mbc1Mode (s : State) (ts : List Txn) : (s.withInbox ts).mbc1Mode = s.mbc1Mode := rfl
@[simp] theorem State.withInbox_ramEnabled (s : State) (ts : List Txn) : (s.withInbox ts).ramEnabled = s.ramEnabled := rfl
@[simp] theorem State.withInbox_dma (s : State) (ts : List Txn) : (s.withInbox ts).dma = s.dma := rfl
@[simp] theorem State.withInbox_ppuMode (s : State) (ts : List Txn) : (s.withInbox ts).ppuMode = s.ppuMode := rfl
@[simp] theorem State.withInbox_ppuElapsed (s : State) (ts : List Txn) : (s.withInbox ts).ppuElapsed = s.ppuElapsed := rfl
@[simp] theorem State.withInbox_ppuLine (s : State) (ts : List Txn) : (s.withInbox ts).ppuLine = s.ppuLine := rfl
@[simp] theorem State.withInbox_scratch (s : State) (ts : List Txn) : (s.withInbox ts).scratch = s.scratch := rfl
@[simp] theorem State.withInbox_front (s : State) (ts : List Txn) : (s.withInbox ts).front = s.front := rfl
@[simp] theorem State.withInbox_frontSeq (s : State) (ts : List Txn) : (s.withInbox ts).frontSeq = s.frontSeq := rfl
@[simp] theorem State.withInbox_tcount (s : State) (ts : List Txn) : (s.withInbox ts).tcount = s.tcount := rfl
@[simp] theorem State.withInbox_tEnabled (s : State) (ts : List Txn) : (s.withInbox ts).tEnabled = s.tEnabled := rfl
@[simp] theorem State.withInbox_tDivisor (s : State) (ts : List Txn) : (s.withInbox ts).tDivisor = s.tDivisor := rfl
@[simp] theorem State.withInbox_irq (s : State) (ts : List Txn) : (s.withInbox ts).irq = s.irq := rfl
@[simp] theorem State.withInbox_events (s : State) (ts : List Txn) : (s.withInbox ts).events = s.events := rfl
@[simp] theorem State.withInbox_fault (s : State) (ts : List Txn) : (s.withInbox ts).fault = s.fault := rfl
@[simp] theorem State.withInbox_inbox (s : State) (ts : List Txn) : (s.withInbox ts).inbox = ts := rfl
@[simp] theorem State.withInbox_reply (s : State) (ts : List Txn) : (s.withInbox ts).reply = s.reply := rfl
@[simp] theorem State.withInbox_draws (s : State) (ts : List Txn) : (s.withInbox ts).draws = s.draws := rfl
@[simp] theorem State.withInbox_sysSteps (s : State) (ts : List Txn) : (s.withInbox ts).sysSteps = s.sysSteps := rfl

@[simp] theorem State.withReply_params (s : State) (r : Reply) : (s.withReply r).params = s.params := rfl
@[simp] theorem State.withReply_variant (s : State) (r : Reply) : (s.withReply r).variant = s.variant := rfl
@[simp] theorem State.withReply_boot (s : State) (r : Reply) : (s.withReply r).boot = s.boot := rfl
@[simp] theorem State.withReply_rom (s : State) (r : Reply) : (s.withReply r).rom = s.rom := rfl
@[simp] theorem State.withReply_romLen (s : State) (r : Reply) : (s.withReply r).romLen = s.romLen := rfl
@[simp] theorem State.withReply_vram (s : State) (r : Reply) : (s.withReply r).vram = s.vram := rfl
@[simp] theorem State.withReply_eram (s : State) (r : Reply) : (s.withReply r).eram = s.eram := rfl
@[simp] theorem State.withReply_wram (s : State) (r : Reply) : (s.withReply r).wram = s.wram := rfl
@[simp] theorem State.withReply_oam (s : State) (r : Reply) : (s.withReply r).oam = s.oam := rfl
@[simp] theorem State.withReply_io (s : State) (r : Reply) : (s.withReply r).io = s.io := rfl
@[simp] theorem State.withReply_hram (s : State) (r : Reply) : (s.withReply r).hram = s.hram := rfl
@[simp] theorem State.withReply_bootEnabled (s : State) (r : Reply) : (s.withReply r).bootEnabled = s.bootEnabled := rfl
@[simp] theorem State.withReply_romBank (s : State) (r : Reply) : (s.withReply r).romBank = s.romBank := rfl
@[simp] theorem State.withReply_ramBank (s : State) (r : Reply) : (s.withReply r).ramBank = s.ramBank := rfl
@[simp] theorem State.withReply_mbc1Mode (s : State) (r : Reply) : (s.withReply r).mbc1Mode = s.mbc1Mode := rfl
@[simp] theorem State.withReply_ramEnabled (s : State) (r : Reply) : (s.withReply r).ramEnabled = s.ramEnabled := rfl
@[simp] theorem State.withReply_dma (s : State) (r : Reply) : (s.withReply r).dma = s.dma := rfl
@[simp] theorem State.withReply_ppuMode (s : State) (r : Reply) : (s.withReply r).ppuMode = s.ppuMode := rfl
@[simp] theorem State.withReply_ppuElapsed (s : State) (r : Reply) : (s.withReply r).ppuElapsed = s.ppuElapsed := rfl
@[simp] theorem State.withReply_ppuLine (s : State) (r : Reply) : (s.withReply r).ppuLine = s.ppuLine := rfl
@[simp] theorem State.withReply_scratch (s : State) (r : Reply) : (s.withReply r).scratch = s.scratch := rfl
@[simp] theorem State.withReply_front (s : State) (r : Reply) : (s.withReply r).front = s.front := rfl
@[simp] theorem State.withReply_frontSeq (s : State) (r : Reply) : (s.withReply r).frontSeq = s.frontSeq := rfl
@[simp] theorem State.withReply_tcount (s : State) (r : Reply) : (s.withReply r).tcount = s.tcount := rfl
@[simp] theorem State.withReply_tEnabled (s : State) (r : Reply) : (s.withReply r).tEnabled = s.tEnabled := rfl
@[simp] theorem State.withReply_tDivisor (s : State) (r : Reply) : (s.withReply r).tDivisor = s.tDivisor := rfl
@[simp] theorem State.withReply_irq (s : State) (r : Reply) : (s.withReply r).irq = s.irq := rfl
@[simp] theorem State.withReply_events (s : State) (r : Reply) : (s.withReply r).events = s.events := rfl
@[simp] theorem State.withReply_fault (s : State) (r : Reply) : (s.withReply r).fault = s.fault := rfl
@[simp] theorem State.withReply_inbox (s : State) (r : Reply) : (s.withReply r).inbox = s.inbox := rfl
@[simp] theorem State.withReply_reply (s : State) (r : Reply) : (s.withReply r).reply = some r := rfl
@[simp] theorem State.withReply_draws (s : State) (r : Reply) : (s.withReply r).draws = s.draws := rfl
@[simp] theorem State.withReply_sysSteps (s : State) (r : Reply) : (s.withReply r).sysSteps = s.sysSteps := rfl

@[simp] theorem State.withDraws_params (s : State) (n : Nat) : (s.withDraws n).params = s.params := rfl
@[simp] theorem State.withDraws_variant (s : State) (n : Nat) : (s.withDraws n).variant = s.variant := rfl
@[simp] theorem State.withDraws_boot (s : State) (n : Nat) : (s.withDraws n).boot = s.boot := rfl
@[simp] theorem State.withDraws_rom (s : State) (n : Nat) : (s.withDraws n).rom = s.rom := rfl
@[simp] theorem State.withDraws_romLen (s : State) (n : Nat) : (s.withDraws n).romLen = s.romLen := rfl
@[simp] theorem State.withDraws_vram (s : State) (n : Nat) : (s.withDraws n).vram = s.vram := rfl
@[simp] theorem State.withDraws_eram (s : State) (n : Nat) : (s.withDraws n).eram = s.eram := rfl
@[simp] theorem State.withDraws_wram (s : State) (n : Nat) : (s.withDraws n).wram = s.wram := rfl
@[simp] theorem State.withDraws_oam (s : State) (n : Nat) : (s.withDraws n).oam = s.oam := rfl
@[simp] theorem State.withDraws_io (s : State) (n : Nat) : (s.withDraws n).io = s.io := rfl
@[simp] theorem State.withDraws_hram (s : State) (n : Nat) : (s.withDraws n).hram = s.hram := rfl
@[simp] theorem State.withDraws_bootEnabled (s : State) (n : Nat) : (s.withDraws n).bootEnabled = s.bootEnabled := rfl
@[simp] theorem State.withDraws_romBank (s : State) (n : Nat) : (s.withDraws n).romBank = s.romBank := rfl
@[simp] theorem State.withDraws_ramBank (s : State) (n : Nat) : (s.withDraws n).ramBank = s.ramBank := rfl
@[simp] theorem State.withDraws_mbc1Mode (s : State) (n : Nat) : (s.withDraws n).mbc1Mode = s.mbc1Mode := rfl
@[simp] theorem State.withDraws_ramEnabled (s : State) (n : Nat) : (s.withDraws n).ramEnabled = s.ramEnabled := rfl
@[simp] theorem State.withDraws_dma (s : State) (n : Nat) : (s.withDraws n).dma = s.dma := rfl
@[simp] theorem State.withDraws_ppuMode (s : State) (n : Nat) : (s.withDraws n).ppuMode = s.ppuMode := rfl
@[simp] theorem State.withDraws_ppuElapsed (s : State) (n : Nat) : (s.withDraws n).ppuElapsed = s.ppuElapsed := rfl
@[simp] theorem State.withDraws_ppuLine (s : State) (n : Nat) : (s.withDraws n).ppuLine = s.ppuLine := rfl
@[simp] theorem State.withDraws_scratch (s : State) (n : Nat) : (s.withDraws n).scratch = s.scratch := rfl
@[simp] theorem State.withDraws_front (s : State) (n : Nat) : (s.withDraws n).front = s.front := rfl
@[simp] theorem State.withDraws_frontSeq (s : State) (n : Nat) : (s.withDraws n).frontSeq = s.frontSeq := rfl
@[simp] theorem State.withDraws_tcount (s : State) (n : Nat) : (s.withDraws n).tcount = s.tcount := rfl
@[simp] theorem State.withDraws_tEnabled (s : State) (n : Nat) : (s.withDraws n).tEnabled = s.tEnabled := rfl
@[simp] theorem State.withDraws_tDivisor (s : State) (n : Nat) : (s.withDraws n).tDivisor = s.tDivisor := rfl
@[simp] theorem State.withDraws_irq (s : State) (n : Nat) : (s.withDraws n).irq = s.irq := rfl
@[simp] theorem State.withDraws_events (s : State) (n : Nat) : (s.withDraws n).events = s.events := rfl
@[simp] theorem State.withDraws_fault (s : State) (n : Nat) : (s.withDraws n).fault = s.fault := rfl
@[simp] theorem State.withDraws_inbox (s : State) (n : Nat) : (s.withDraws n).inbox = s.inbox := rfl
@[simp] theorem State.withDraws_reply (s : State) (n : Nat) : (s.withDraws n).reply = s.reply := rfl
@[simp] theorem State.withDraws_draws (s : State) (n : Nat) : (s.withDraws n).draws = n := rfl
@[simp] theorem State.withDraws_sysSteps (s : State) (n : Nat) : (s.withDraws n).sysSteps = s.sysSteps := rfl

@[simp] theorem State.withSysSteps_params (s : State) (n : Nat) : (s.withSysSteps n).params = s.params := rfl
@[simp] theorem State.withSysSteps_variant (s : State) (n : Nat) : (s.withSysSteps n).variant = s.variant := rfl
@[simp] theorem State.withSysSteps_boot (s : State) (n : Nat) : (s.withSysSteps n).boot = s.boot := rfl
@[simp] theorem State.withSysSteps_rom (s : State) (n : Nat) : (s.withSysSteps n).rom = s.rom := rfl
@[simp] theorem State.withSysSteps_romLen (s : State) (n : Nat) : (s.withSysSteps n).romLen = s.romLen := rfl
@[simp] theorem State.withSysSteps_vram (s : State) (n : Nat) : (s.withSysSteps n).vram = s.vram := rfl
@[simp] theorem State.withSysSteps_eram (s : State) (n : Nat) : (s.withSysSteps n).eram = s.eram := rfl
@[simp] theorem State.withSysSteps_wram (s : State) (n : Nat) : (s.withSysSteps n).wram = s.wram := rfl
@[simp] theorem State.withSysSteps_oam (s : State) (n : Nat) : (s.withSysSteps n).oam = s.oam := rfl
@[simp] theorem State.withSysSteps_io (s : State) (n : Nat) : (s.withSysSteps n).io = s.io := rfl
@[simp] theorem State.withSysSteps_hram (s : State) (n : Nat) : (s.withSysSteps n).hram = s.hram := rfl
@[simp] theorem State.withSysSteps_bootEnabled (s : State) (n : Nat) : (s.withSysSteps n).bootEnabled = s.bootEnabled := rfl
@[simp] theorem State.withSysSteps_romBank (s : State) (n : Nat) : (s.withSysSteps n).romBank = s.romBank := rfl
@[simp] theorem State.withSysSteps_ramBank (s : State) (n : Nat) : (s.withSysSteps n).ramBank = s.ramBank := rfl
@[simp] theorem State.withSysSteps_mbc1Mode (s : State) (n : Nat) : (s.withSysSteps n).mbc1Mode = s.mbc1Mode := rfl
@[simp] theorem State.withSysSteps_ramEnabled (s : State) (n : Nat) : (s.withSysSteps n).ramEnabled = s.ramEnabled := rfl
@[simp] theorem State.withSysSteps_dma (s : State) (n : Nat) : (s.withSysSteps n).dma = s.dma := rfl
@[simp] theorem State.withSysSteps_ppuMode (s : State) (n : Nat) : (s.withSysSteps n).ppuMode = s.ppuMode := rfl
@[simp] theorem State.withSysSteps_ppuElapsed (s : State) (n : Nat) : (s.withSysSteps n).ppuElapsed = s.ppuElapsed := rfl
@[simp] theorem State.withSysSteps_ppuLine (s : State) (n : Nat) : (s.withSysSteps n).ppuLine = s.ppuLine := rfl
@[simp] theorem State.withSysSteps_scratch (s : State) (n : Nat) : (s.withSysSteps n).scratch = s.scratch := rfl
@[simp] theorem State.withSysSteps_front (s : State) (n : Nat) : (s.withSysSteps n).front = s.front := rfl
@[simp] theorem State.withSysSteps_frontSeq (s : State) (n : Nat) : (s.withSysSteps n).frontSeq = s.frontSeq := rfl
@[simp] theorem State.withSysSteps_tcount (s : State) (n : Nat) : (s.withSysSteps n).tcount = s.tcount := rfl
@[simp] theorem State.withSysSteps_tEnabled (s : State) (n : Nat) : (s.withSysSteps n).tEnabled = s.tEnabled := rfl
@[simp] theorem State.withSysSteps_tDivisor (s : State) (n : Nat) : (s.withSysSteps n).tDivisor = s.tDivisor := rfl
@[simp] theorem State.withSysSteps_irq (s : State) (n : Nat) : (s.withSysSteps n).irq = s.irq := rfl
@[simp] theorem State.withSysSteps_events (s : State) (n : Nat) : (s.withSysSteps n).events = s.events := rfl
@[simp] theorem State.withSysSteps_fault (s : State) (n : Nat) : (s.withSysSteps n).fault = s.fault := rfl
@[simp] theorem State.withSysSteps_inbox (s : State) (n : Nat) : (s.withSysSteps n).inbox = s.inbox := rfl
@[simp] theorem State.withSysSteps_reply (s : State) (n : Nat) : (s.withSysSteps n).reply = s.reply := rfl
@[simp] theorem State.withSysSteps_draws (s : State) (n : Nat) : (s.withSysSteps n).draws = s.draws := rfl
@[simp] theorem State.withSysSteps_sysSteps (s : State) (n : Nat) : (s.withSysSteps n).sysSteps = n := rfl

@[simp] theorem State.mode_variant (s : State) : s.mode.variant = s.variant := rfl
@[simp] theorem State.mode_bootEnabled (s : State) : s.mode.bootEnabled = s.bootEnabled := rfl

end Sys2Proof.Machine
end

