-- ==== Sys2Proof/Laws/Ops.lean ====
section
/-! SUPPORT. What each shared operation can do, said once: the value check, region reads and writes, a store's frame, the
end of a transaction, the bus read. Proofs cite these and do not unfold the operations. -/

namespace Sys2Proof.Machine

/-- A write inside a region keeps the region's form. -/
theorem Memory.write_fits {m : Memory} {k len : Nat} (v : Byte) (hk : k < len) (h : m.fits len) :
    (m.write k v).fits len :=
  ⟨Memory.write_wf k v h.1, fun c hc => (Memory.mem_write hc).elim (fun e => by rw [e]; exact hk) (h.2 c)⟩

/-- The bytes of a supplied list fit a region of that length. -/
theorem Memory.ofBytes_fits (bs : List Byte) : (Memory.ofBytes bs).fits bs.length :=
  ⟨Memory.ofBytes_wf bs, fun c hc => by simpa using (Memory.ofBytesFrom_mem hc).2.1⟩

/-! ## The value check -/

theorem checkData_ok {v : Int} (h : ByteValue v) : checkData v = .ok (BitVec.ofInt 8 v) := if_pos h

theorem checkData_error {v : Int} (h : ¬ ByteValue v) : checkData v = .error (.valueOutOfRange v) := if_neg h

/-- An in-range WRITE runs its row's rule (R101). -/
theorem withData_ok {v : Int} (h : ByteValue v) (rule : Byte → Except Fault State) :
    withData v rule = rule (BitVec.ofInt 8 v) := by
  simp [withData, checkData_ok h]

/-- A WRITE out of range faults before its row's rule runs (R101). -/
theorem withData_error {v : Int} (h : ¬ ByteValue v) (rule : Byte → Except Fault State) :
    withData v rule = .error (.valueOutOfRange v) := by
  simp [withData, checkData_error h]

/-- The byte of an in-range value is that value. -/
theorem toNat_ofInt {v : Int} (h : ByteValue v) : ((BitVec.ofInt 8 v).toNat : Int) = v := by
  obtain ⟨h0, h1⟩ := h
  rw [BitVec.toNat_ofInt]
  omega

/-! ## Region accesses -/

/-- Storing a byte below the region's length succeeds (R51). -/
theorem storeByte_ok {r : RegionId} {off : Nat} {s : State} (h : off < r.len s.variant) (b : Byte) :
    storeByte r off b s = .ok (s.store r off b) := by
  have hb := b.isLt
  have hv : (0 : Int) ≤ (b.toNat : Int) ∧ (b.toNat : Int) ≤ 255 := ⟨by omega, by omega⟩
  simp [storeByte, regionWrite, h, hv, BitVec.ofInt_natCast]

/-- Reading below the region's length succeeds (R51). -/
theorem regionRead_ok {r : RegionId} {off : Nat} {s : State} (h : off < r.len s.variant) :
    regionRead r off s = .ok (s.load r off) := if_pos h

/-- A region read answers its loaded byte or the fault of an offset out of range. -/
theorem regionRead_cases (r : RegionId) (off : Nat) (s : State) :
    (off < r.len s.variant ∧ regionRead r off s = .ok (s.load r off)) ∨
    (r.len s.variant ≤ off ∧ regionRead r off s = .error (.addressOutOfRange r off)) := by
  by_cases h : off < r.len s.variant
  · exact .inl ⟨h, if_pos h⟩
  · exact .inr ⟨by omega, if_neg h⟩

/-- A load changes nothing but the count of draws. -/
theorem load_state (s : State) (r : RegionId) (off : Nat) :
    (s.load r off).2 = s ∨ (s.load r off).2 = s.withDraws (s.draws + 1) := by
  unfold State.load
  cases r <;> simp only [true_or]
  split
  · exact .inl rfl
  · exact .inr rfl

/-- A stored byte reads back, and every other byte and every register keeps its value (R51). -/
theorem store_storesByte {r : RegionId} {off : Nat} (s : State) (b : Byte) (hr : r.readOnly = false)
    (h : off < r.len s.variant) : StoresByte r off b s (s.store r off b) := by
  cases r with
  | boot => cases hr
  | rom _ => cases hr
  | eram k =>
    have hoff : off < 0x2000 := by simp only [RegionId.len] at h; split at h <;> omega
    refine ⟨by simp [State.byteAt, State.store], fun r' off' hl hne => ?_, rfl⟩
    cases r' with
    | eram k' =>
      have hoff' : off' < 0x2000 := by simp only [RegionId.len] at hl; split at hl <;> omega
      refine Memory.read_write_other _ _ fun e => hne ?_
      simp only [Config.ramBankSize] at e
      have hk : k' = k := by omega
      subst hk
      have : off' = off := by omega
      rw [this]
    | _ => rfl
  | _ =>
    refine ⟨by simp [State.byteAt, State.store], fun r' off' hl hne => ?_, rfl⟩
    cases r'
    all_goals first
      | rfl
      | exact Memory.read_write_other _ _ fun e => hne (by rw [e])

/-- A read-only region ignores a store (R50). -/
theorem store_readOnly {r : RegionId} (s : State) (off : Nat) (b : Byte) (hr : r.readOnly = true) :
    s.store r off b = s := by
  cases r <;> first | rfl | cases hr

/-! ## Taking a fault and ending a transaction -/

@[simp] theorem takeFault_reply (f : Fault) (s : State) : (takeFault f s).reply = some (.fault f) := rfl

/-- The record keeps the first fault (R301). -/
theorem takeFault_eq (f : Fault) (s : State) :
    takeFault f s = (s.withFault (if s.fault = none then some f else s.fault)).withReply (.fault f) := by
  unfold takeFault
  cases s.fault <;> rfl

@[simp] theorem finishWrite_ok (t s : State) : finishWrite (.ok t) s = .next (t.withReply .done) := rfl
@[simp] theorem finishWrite_error (f : Fault) (s : State) : finishWrite (.error f) s = .next (takeFault f s) := rfl
@[simp] theorem finishRead_ok (b : Byte) (t s : State) : finishRead (.ok (b, t)) s = .next (t.withReply (.byte b)) := rfl
@[simp] theorem finishRead_error (f : Fault) (s : State) : finishRead (.error f) s = .next (takeFault f s) := rfl

/-- A WRITE ends in a next state: done, or the fault taken. -/
theorem finishWrite_cases (r : Except Fault State) (s : State) :
    (∃ t, r = .ok t ∧ finishWrite r s = .next (t.withReply .done)) ∨
    (∃ f, r = .error f ∧ finishWrite r s = .next (takeFault f s)) := by
  cases r with
  | ok t => exact .inl ⟨t, rfl, rfl⟩
  | error f => exact .inr ⟨f, rfl, rfl⟩

/-- A READ ends in a next state: the byte, or the fault taken. -/
theorem finishRead_cases (r : ReadResult) (s : State) :
    (∃ b t, r = .ok (b, t) ∧ finishRead r s = .next (t.withReply (.byte b))) ∨
    (∃ f, r = .error f ∧ finishRead r s = .next (takeFault f s)) := by
  cases r with
  | ok p => exact .inl ⟨p.1, p.2, rfl, rfl⟩
  | error f => exact .inr ⟨f, rfl, rfl⟩

/-! ## Bank selection -/

/-- The ROM bank in effect exists (R142, R144). -/
theorem effectiveRomBank_lt (s : State) : effectiveRomBank s < Config.romBanks s.variant := by
  unfold effectiveRomBank
  cases s.variant with
  | none => exact Nat.one_lt_two
  | mbc1 =>
    cases s.mbc1Mode with
    | highRom => exact s.romBank.isLt
    | ram => exact (s.romBank &&& 0x1F#7).isLt
  | mbc3 => exact s.romBank.isLt

/-- The MBC1 RAM bank in effect is one of four (R145). -/
theorem mbc1RamBank_lt (s : State) : mbc1RamBank s < 4 := by
  unfold mbc1RamBank
  cases s.mbc1Mode with
  | highRom => exact Nat.succ_pos 3
  | ram => exact s.ramBank.isLt

/-! ## The bus read -/

/-- A gated external RAM read of a bank that exists: the stored byte, or 0xFF while the gate is closed (R303). -/
theorem readEramGated_eq (g : Bool) (k : Nat) (a : Addr) (s : State) (hk : k < Config.ramBanks s.variant)
    (ha : InRange 0xA000 0xBFFF a) :
    readEramGated g k a s =
      .ok ((if g then s.byteAt (.eram k) (a.toNat - 0xA000) else 0xFF#8), s) := by
  obtain ⟨h1, h2⟩ := ha
  cases g with
  | false => rfl
  | true =>
    have hl : Window.eram.offset a < (RegionId.eram k).len s.variant := by
      simp only [RegionId.len, hk, if_true, Window.offset, Window.start, Config.ramBankSize]; omega
    simp only [readEramGated, if_true]
    exact regionRead_ok hl

/-- What a region read inside the region can answer: a byte, with nothing changed but the count of draws. -/
theorem regionRead_state {r : RegionId} {off : Nat} {s : State} (h : off < r.len s.variant) :
    ∃ b n, regionRead r off s = .ok (b, s.withDraws n) := by
  refine ⟨(s.load r off).1, (s.load r off).2.draws, ?_⟩
  rw [regionRead_ok h]
  rcases load_state s r off with e | e
  · rw [e]
    exact congrArg Except.ok (Prod.ext rfl e)
  · rw [e]
    exact congrArg Except.ok (Prod.ext rfl e)

/-- The window of an address is the one whose range holds it (R53). -/
theorem window_range (a : Addr) :
    (window a).start ≤ a.toNat ∧ a.toNat < (window a).start + (window a).length := by
  have := a.isLt
  unfold window
  repeat' split
  all_goals simp only [Window.start, Window.length]; omega

/-- Outside the gap the bus read answers a byte, with nothing changed but the count of draws (R60, R100). -/
theorem memRead_ok (s : State) {a : Addr} (h : ¬ InRange 0xFEA0 0xFEFF a) :
    ∃ b n, memRead a s = .ok (b, s.withDraws n) := by
  have hw := window_range a
  have hrom := effectiveRomBank_lt s
  have bank0 : 0 < Config.romBanks s.variant := by cases s.variant <;> decide
  unfold memRead
  generalize hwin : window a = w at hw
  cases w <;> simp only [Window.start, Window.length] at hw
  case rom0 =>
    simp only
    split
    · rename_i hsh
      simp only [Mode.shadows, Bool.and_eq_true, decide_eq_true_eq] at hsh
      refine regionRead_state ?_
      simp only [RegionId.len, Window.offset, Window.start, Config.bootLen]; omega
    · refine regionRead_state ?_
      simp only [RegionId.len, bank0, if_true, Window.offset, Window.start, Config.romBankSize]; omega
  case romx =>
    refine regionRead_state ?_
    simp only [RegionId.len, hrom, if_true, Window.offset, Window.start, Config.romBankSize]; omega
  case eram =>
    have hr : InRange 0xA000 0xBFFF a := ⟨by omega, by omega⟩
    have hm := mbc1RamBank_lt s
    have hk := s.ramBank.isLt
    simp only [readEram]
    cases hv : s.variant
    · exact ⟨_, s.draws, readEramGated_eq true 0 a s (by rw [hv]; decide) hr⟩
    · exact ⟨_, s.draws, readEramGated_eq _ _ a s (by rw [hv]; exact hm) hr⟩
    · exact ⟨_, s.draws, readEramGated_eq _ _ a s (by rw [hv]; exact hk) hr⟩
  case gap => exact absurd ⟨by omega, by omega⟩ h
  all_goals
    refine regionRead_state ?_
    simp only [RegionId.len, Window.offset, Window.start, Config.vramLen, Config.wramLen, Config.oamLen, Config.ioLen,
      Config.hramLen]
    omega

end Sys2Proof.Machine
end

