-- ==== Sys2Proof/Laws/Dma.lean ====
section
/-! SUPPORT. What landing a byte and a cycle of the DMA engine can do (R182, R183): OAM, the transfer list and the count of
draws change, and nothing else. -/

namespace Sys2Proof.Machine

/-! ## What a bus read depends on -/

/-- A change of the state that a bus read outside the IO window does not see (R336). -/
structure ReadBlind (f : State → State) : Prop where
  variant : ∀ s, (f s).variant = s.variant
  boot : ∀ s, (f s).boot = s.boot
  rom : ∀ s, (f s).rom = s.rom
  romLen : ∀ s, (f s).romLen = s.romLen
  vram : ∀ s, (f s).vram = s.vram
  eram : ∀ s, (f s).eram = s.eram
  wram : ∀ s, (f s).wram = s.wram
  oam : ∀ s, (f s).oam = s.oam
  hram : ∀ s, (f s).hram = s.hram
  bootEnabled : ∀ s, (f s).bootEnabled = s.bootEnabled
  romBank : ∀ s, (f s).romBank = s.romBank
  ramBank : ∀ s, (f s).ramBank = s.ramBank
  mbc1Mode : ∀ s, (f s).mbc1Mode = s.mbc1Mode
  ramEnabled : ∀ s, (f s).ramEnabled = s.ramEnabled
  draws : ∀ s, (f s).draws = s.draws
  withDraws : ∀ s n, f (s.withDraws n) = (f s).withDraws n

/-- The answer of a read with the state after it changed by `f`. -/
def ReadResult.after (f : State → State) (r : ReadResult) : ReadResult :=
  match r with
  | .ok (b, s) => .ok (b, f s)
  | .error e => .error e

@[simp] theorem ReadResult.after_ok (f : State → State) (b : Byte) (s : State) :
    ReadResult.after f (.ok (b, s)) = .ok (b, f s) := rfl

@[simp] theorem ReadResult.after_error (f : State → State) (e : Fault) :
    ReadResult.after f (.error e) = .error e := rfl

/-- A load does not see such a change, but in the IO block. -/
theorem load_blind {f : State → State} (hf : ReadBlind f) (r : RegionId) (off : Nat) (s : State)
    (hio : r = .io → (f s).io = s.io) : (f s).load r off = ((s.load r off).1, f (s.load r off).2) := by
  have rom : ∀ p : Nat, (if p < (f s).romLen then ((f s).rom.read p, f s) else (f s).draw) =
      ((if p < s.romLen then (s.rom.read p, s) else s.draw).1, f (if p < s.romLen then (s.rom.read p, s) else s.draw).2) := by
    intro p
    rw [hf.romLen, hf.rom]
    by_cases h : p < s.romLen
    · rw [if_pos h, if_pos h]
    · rw [if_neg h, if_neg h]
      simp only [State.draw, hf.draws, hf.withDraws]
  cases r with
  | rom b => exact rom _
  | io => exact Prod.ext (congrArg (fun m => Memory.read m off) (hio rfl)) rfl
  | boot => exact Prod.ext (congrArg (fun m => Memory.read m off) (hf.boot s)) rfl
  | vram => exact Prod.ext (congrArg (fun m => Memory.read m off) (hf.vram s)) rfl
  | eram k => exact Prod.ext (congrArg (fun m => Memory.read m _) (hf.eram s)) rfl
  | wram => exact Prod.ext (congrArg (fun m => Memory.read m off) (hf.wram s)) rfl
  | oam => exact Prod.ext (congrArg (fun m => Memory.read m off) (hf.oam s)) rfl
  | hram => exact Prod.ext (congrArg (fun m => Memory.read m off) (hf.hram s)) rfl

theorem regionRead_blind {f : State → State} (hf : ReadBlind f) (r : RegionId) (off : Nat) (s : State)
    (hio : r = .io → (f s).io = s.io) : regionRead r off (f s) = (regionRead r off s).after f := by
  unfold regionRead
  rw [hf.variant]
  split
  · rw [load_blind hf r off s hio]
    exact (ReadResult.after_ok f _ _).symm
  · exact (ReadResult.after_error f _).symm

/-- A bus read does not see such a change, outside the IO window or if the change keeps the IO block. -/
theorem memRead_blind {f : State → State} (hf : ReadBlind f) (a : Addr) (s : State)
    (hio : window a = .io → (f s).io = s.io) : memRead a (f s) = (memRead a s).after f := by
  have hrom : effectiveRomBank (f s) = effectiveRomBank s := by
    simp only [effectiveRomBank, hf.variant, hf.mbc1Mode, hf.romBank]
  have hram : mbc1RamBank (f s) = mbc1RamBank s := by
    simp only [mbc1RamBank, hf.mbc1Mode, hf.ramBank]
  have gated : ∀ g k, readEramGated g k a (f s) = (readEramGated g k a s).after f := by
    intro g k
    cases g with
    | false => simp only [readEramGated, Bool.false_eq_true, if_false, ReadResult.after_ok]
    | true =>
      simp only [readEramGated, if_true]
      exact regionRead_blind hf _ _ s fun h => nomatch h
  have hm : (f s).mode = s.mode := by simp only [State.mode, hf.variant, hf.bootEnabled]
  unfold memRead
  generalize hw : window a = w at hio
  cases w
  case rom0 =>
    simp only [hm]
    split <;> exact regionRead_blind hf _ _ s fun h => nomatch h
  case romx =>
    simp only [readRomx, hrom]
    exact regionRead_blind hf _ _ s fun h => nomatch h
  case eram =>
    simp only [readEram, hf.variant]
    cases s.variant
    · exact gated true 0
    · simp only [readEramMbc1, hram, hf.ramEnabled]; exact gated _ _
    · simp only [readEramMbc3, hf.ramBank, hf.ramEnabled]; exact gated _ _
  case gap => rfl
  case io => exact regionRead_blind hf _ _ s fun _ => hio rfl
  all_goals exact regionRead_blind hf _ _ s fun h => nomatch h

/-- The page of a source address outside the IO and HRAM windows: reading it never reads an IO byte (R188, R336). -/
theorem dmaSource_window {page : Byte} (hp : page ≠ 0xFF#8) {i : Nat} (h : i < 0xA0) :
    window (dmaSource page i) ≠ .io := by
  intro hw
  have hr := window_range (dmaSource page i)
  rw [hw] at hr
  have hlt := page.isLt
  have hs : (dmaSource page i).toNat = page.toNat * 0x100 + i := by
    simp only [dmaSource, BitVec.toNat_ofNat]; omega
  have hne : page.toNat ≠ 255 := fun e => hp (BitVec.eq_of_toNat_eq (by simpa using e))
  simp only [Window.start, Window.length, hs] at hr
  omega

/-! ## Landing -/

/-- The source address of byte i has no wrap (R181). -/
theorem dmaSource_toNat (page : Byte) {i : Nat} (h : i < 0xA0) : (dmaSource page i).toNat = page.toNat * 0x100 + i := by
  have := page.isLt
  simp only [dmaSource, BitVec.toNat_ofNat]
  omega

/-- A source address is never in the gap (R188). -/
theorem dmaSource_not_gap (page : Byte) {i : Nat} (h : i < 0xA0) : ¬ InRange 0xFEA0 0xFEFF (dmaSource page i) := by
  rintro ⟨h1, h2⟩
  rw [dmaSource_toNat page h] at h1 h2
  omega

/-- A source in working memory reads that byte of it (R183). -/
theorem memRead_dmaSource_wram (s : State) (page : Byte) {i : Nat} (h : i < 0xA0) (h1 : 0xC0 ≤ page.toNat)
    (h2 : page.toNat ≤ 0xDF) :
    memRead (dmaSource page i) s = .ok (s.wram.read (page.toNat * 0x100 + i - 0xC000), s) := by
  have e := dmaSource_toNat page h
  have hw : window (dmaSource page i) = .wram := by
    unfold window
    rw [e, if_neg (by omega), if_neg (by omega), if_neg (by omega), if_neg (by omega), if_pos (by omega)]
  unfold memRead
  rw [hw]
  simp only [readWram]
  rw [regionRead_ok (by simp only [RegionId.len, Window.offset, Window.start, e, Config.wramLen]; omega)]
  simp only [State.load, State.byteAt, Window.offset, Window.start, e]

/-! ## What a source read does not see -/

/-- A bus read outside OAM does not see OAM. -/
theorem memRead_withOam {a : Addr} (h : window a ≠ .oam) (s : State) (o : Memory) :
    memRead a (s.withOam o) = (memRead a s).after fun u => u.withOam o := by
  have region : ∀ r off, r ≠ .oam →
      regionRead r off (s.withOam o) = (regionRead r off s).after fun u => u.withOam o := by
    intro r off hr
    unfold regionRead
    rw [State.withOam_variant]
    split
    · have hl : (s.withOam o).load r off = ((s.load r off).1, (s.load r off).2.withOam o) := by
        cases r with
        | oam => exact absurd rfl hr
        | rom b =>
          show (if b * Config.romBankSize + off < s.romLen then _ else _) = _
          simp only [State.load]
          split <;> rfl
        | _ => rfl
      rw [hl]
      exact (ReadResult.after_ok (fun u => u.withOam o) _ _).symm
    · exact (ReadResult.after_error (fun u => u.withOam o) _).symm
  have gated : ∀ g k, readEramGated g k a (s.withOam o) = (readEramGated g k a s).after fun u => u.withOam o := by
    intro g k
    cases g with
    | false => simp only [readEramGated, Bool.false_eq_true, if_false, ReadResult.after_ok]
    | true =>
      simp only [readEramGated, if_true]
      exact region _ _ nofun
  have hm : (s.withOam o).mode = s.mode := rfl
  unfold memRead
  generalize window a = w at h
  cases w
  case oam => exact absurd rfl h
  case rom0 =>
    simp only [hm]
    split <;> exact region _ _ nofun
  case eram =>
    simp only [readEram, State.withOam_variant]
    cases s.variant
    · exact gated true 0
    · exact gated _ _
    · exact gated _ _
  case gap => rfl
  all_goals exact region _ _ nofun

theorem readBlind_withDma (d : List Transfer) : ReadBlind fun s => s.withDma d := by
  constructor <;> intros <;> rfl

/-- A bus read does not see the transfers in flight. -/
theorem memRead_withDma (a : Addr) (s : State) (d : List Transfer) :
    memRead a (s.withDma d) = (memRead a s).after fun u => u.withDma d :=
  memRead_blind (readBlind_withDma d) a s fun _ => rfl

/-- A region read never lowers the count of draws. -/
theorem regionRead_draws_le {r : RegionId} {off : Nat} {s s' : State} {b : Byte} (h : regionRead r off s = .ok (b, s')) :
    s.draws ≤ s'.draws := by
  rcases regionRead_cases r off s with ⟨-, e⟩ | ⟨-, e⟩
  · rw [e] at h
    injection h with h
    have hs : (s.load r off).2 = s' := congrArg Prod.snd h
    rw [← hs]
    rcases load_state s r off with e' | e' <;> simp [e']
  · rw [e] at h; cases h

theorem readEramGated_draws_le {g : Bool} {k : Nat} {a : Addr} {s s' : State} {b : Byte}
    (h : readEramGated g k a s = .ok (b, s')) : s.draws ≤ s'.draws := by
  unfold readEramGated at h
  split at h
  · exact regionRead_draws_le h
  · cases h; exact Nat.le_refl _

/-- A bus read never lowers the count of draws (R142). -/
theorem memRead_draws_le {a : Addr} {s s' : State} {b : Byte} (h : memRead a s = .ok (b, s')) : s.draws ≤ s'.draws := by
  unfold memRead at h
  generalize window a = w at h
  cases w
  case rom0 => simp only at h; split at h <;> exact regionRead_draws_le h
  case eram =>
    simp only [readEram] at h
    split at h <;> exact readEramGated_draws_le h
  case gap => cases h
  all_goals exact regionRead_draws_le h

/-- A region read that draws nothing gives the same byte at any count of draws. -/
theorem regionRead_withDraws {r : RegionId} {off : Nat} {s : State} {b : Byte} (n : Nat)
    (h : regionRead r off s = .ok (b, s)) : regionRead r off (s.withDraws n) = .ok (b, s.withDraws n) := by
  unfold regionRead at h ⊢
  split at h
  · rw [if_pos (by assumption)]
    injection h with h
    cases r with
    | rom k =>
      simp only [State.load] at h ⊢
      split at h
      · rw [State.withDraws_romLen, if_pos (by assumption)]
        exact congrArg (fun p : Byte × State => Except.ok (p.1, s.withDraws n)) h
      · have := congrArg (fun p : Byte × State => p.2.draws) h
        simp [State.draw] at this
    | _ => exact congrArg (fun p : Byte × State => Except.ok (p.1, s.withDraws n)) h
  · cases h

/-- A bus read that draws nothing gives the same byte at any count of draws (R142). -/
theorem memRead_withDraws {a : Addr} {s : State} {b : Byte} (n : Nat) (h : memRead a s = .ok (b, s)) :
    memRead a (s.withDraws n) = .ok (b, s.withDraws n) := by
  have gated : ∀ g k, readEramGated g k a s = .ok (b, s) →
      readEramGated g k a (s.withDraws n) = .ok (b, s.withDraws n) := by
    intro g k h
    unfold readEramGated at h ⊢
    split at h
    · rw [if_pos (by assumption)]; exact regionRead_withDraws n h
    · rw [if_neg (by assumption)]; cases h; rfl
  have hm : (s.withDraws n).mode = s.mode := rfl
  unfold memRead at h ⊢
  generalize window a = w at h ⊢
  cases w
  case rom0 =>
    simp only [hm] at h ⊢
    split at h
    · rw [if_pos (by assumption)]; exact regionRead_withDraws n h
    · rw [if_neg (by assumption)]; exact regionRead_withDraws n h
  case eram =>
    simp only [readEram, State.withDraws_variant] at h ⊢
    cases hv : s.variant <;> rw [hv] at h <;> exact gated _ _ h
  case gap => cases h
  all_goals exact regionRead_withDraws n h

/-- A source address lies in OAM only for page 0xFE (R188). -/
theorem dmaSource_not_oam {page : Byte} (hp : page ≠ 0xFE#8) {i : Nat} (h : i < 0xA0) :
    window (dmaSource page i) ≠ .oam := by
  intro hw
  have hr := window_range (dmaSource page i)
  have hne : page.toNat ≠ 254 := fun e => hp (BitVec.eq_of_toNat_eq (by simpa using e))
  rw [hw] at hr
  simp only [Window.start, Window.length, dmaSource_toNat page h] at hr
  omega

/-- A source on page 0xFE reads the OAM byte it is copied to (R188). -/
theorem memRead_dmaSource_oam (s : State) {i : Nat} (h : i < 0xA0) :
    memRead (dmaSource 0xFE#8 i) s = .ok (s.oam.read i, s) := by
  have e : (dmaSource 0xFE#8 i).toNat = 0xFE00 + i := dmaSource_toNat 0xFE#8 h
  have hw : window (dmaSource 0xFE#8 i) = .oam := by
    unfold window
    rw [e, if_neg (by omega), if_neg (by omega), if_neg (by omega), if_neg (by omega), if_neg (by omega),
      if_neg (by omega), if_pos (by omega)]
  unfold memRead
  rw [hw]
  simp only [readOam]
  rw [regionRead_ok (by simp only [RegionId.len, Window.offset, Window.start, e, Config.oamLen]; omega)]
  simp only [State.load, State.byteAt, Window.offset, Window.start, e]
  rw [show 0xFE00 + i - 0xFE00 = i by omega]

/-- Landing a byte of page 0xFE writes it back unchanged (R188). -/
theorem landByte_oam (s : State) {i : Nat} (h : i < 0xA0) :
    landByte 0xFE#8 i s = s.withOam (s.oam.write i (s.oam.read i)) := by
  rw [landByte, memRead_dmaSource_oam s h]

/-- Landing a byte writes that OAM byte and may count a draw (R183). -/
theorem landByte_eq (page : Byte) {i : Nat} (h : i < 0xA0) (s : State) :
    ∃ b n, landByte page i s = (s.withOam (s.oam.write i b)).withDraws n := by
  obtain ⟨b, n, e⟩ := memRead_ok s (dmaSource_not_gap page h)
  refine ⟨b, n, ?_⟩
  rw [landByte, e]
  rfl

/-- The bytes that land are bytes of the transfer. -/
theorem landingBytes_lt {p : Params} {e i : Nat} (h : i ∈ landingBytes p e) : i < 0xA0 :=
  List.mem_range.mp (List.mem_of_mem_filter h)

/-- The bytes that land at a count are those the schedule gives it (R182, R184). -/
theorem mem_landingBytes {p : Params} {e i : Nat} : i ∈ landingBytes p e ↔ i < 0xA0 ∧ p.landAt i = e := by
  simp [landingBytes]

/-- A list of landings changes OAM and the count of draws alone. -/
theorem landList_frame (page : Byte) (l : List Nat) (h : ∀ i ∈ l, i < 0xA0) (s : State) :
    ∃ o n, l.foldl (fun s i => landByte page i s) s = (s.withOam o).withDraws n := by
  induction l generalizing s with
  | nil => exact ⟨s.oam, s.draws, rfl⟩
  | cons i l ih =>
    obtain ⟨b, n, e⟩ := landByte_eq page (h i List.mem_cons_self) s
    obtain ⟨o, n', e'⟩ := ih (fun j hj => h j (List.mem_cons_of_mem _ hj)) (landByte page i s)
    exact ⟨o, n', by rw [List.foldl_cons, e', e]; rfl⟩

/-- One transfer's cycle changes OAM and the count of draws alone. -/
theorem dmaEntryCycle_frame (s : State) (e : Transfer) :
    ∃ o n, dmaEntryCycle s e = (s.withOam o).withDraws n :=
  landList_frame e.page _ (fun _ hi => landingBytes_lt hi) s

/-- The cycles of a list of transfers change OAM and the count of draws alone. -/
theorem dmaEntries_frame (d : List Transfer) (s : State) :
    ∃ o n, d.foldl dmaEntryCycle s = (s.withOam o).withDraws n := by
  induction d generalizing s with
  | nil => exact ⟨s.oam, s.draws, rfl⟩
  | cons e d ih =>
    obtain ⟨o, n, h⟩ := dmaEntryCycle_frame s e
    obtain ⟨o', n', h'⟩ := ih (dmaEntryCycle s e)
    exact ⟨o', n', by rw [List.foldl_cons, h', h]; rfl⟩

/-- One cycle of the engine changes OAM, the transfer list and the count of draws alone (R182, R336). -/
theorem busCycle_frame (s : State) :
    ∃ o n, busCycle s = ((s.withOam o).withDma (dmaAge s.dma)).withDraws n := by
  obtain ⟨o, n, h⟩ := dmaEntries_frame s.dma s
  exact ⟨o, n, by rw [busCycle, h]; rfl⟩

/-- A cycle keeps the transfers short of DMA_CYCLES (R40 (d)). -/
theorem dmaAge_lt {d : List Transfer} (h : ∀ e ∈ d, e.elapsed < Config.dmaCycles) :
    ∀ e ∈ dmaAge d, e.elapsed < Config.dmaCycles := by
  intro e he
  simp only [dmaAge, List.mem_filter, List.mem_map, bne_iff_ne] at he
  obtain ⟨⟨e', he', rfl⟩, hne⟩ := he
  have := h e' he'
  simp only [Config.dmaCycles] at *
  omega

@[simp] theorem busStep_zero (s : State) : busStep 0 s = s := rfl

theorem busStep_succ (n : Nat) (s : State) : busStep (n + 1) s = busStep n (busCycle s) := rfl

/-- With no transfer in flight a BUS_STEP changes nothing. -/
theorem busStep_idle (n : Nat) (s : State) (h : s.dma = []) : busStep n s = s := by
  have cycle : busCycle s = s := by
    rw [busCycle, h]
    show s.withDma [] = s
    rw [← h]; rfl
  induction n with
  | zero => rfl
  | succ n ih => rw [busStep_succ, cycle, ih]

/-! ## What the engine depends on -/

/-- A change of the state that the DMA engine does not see (R336). -/
structure DmaBlind (f : State → State) : Prop extends ReadBlind f where
  params : ∀ s, (f s).params = s.params
  dma : ∀ s, (f s).dma = s.dma
  withOam : ∀ s o, f (s.withOam o) = (f s).withOam o
  withDma : ∀ s d, f (s.withDma d) = (f s).withDma d

/-- Landing a byte commutes with such a change: for a page that never reads an IO byte, or if the change keeps the IO
block. -/
theorem landByte_blind {f : State → State} (hf : DmaBlind f) (page : Byte) {i : Nat} (h : i < 0xA0) (s : State)
    (hio : page ≠ 0xFF#8 ∨ ∀ s, (f s).io = s.io) : landByte page i (f s) = f (landByte page i s) := by
  have e : memRead (dmaSource page i) (f s) = (memRead (dmaSource page i) s).after f :=
    memRead_blind hf.toReadBlind _ s fun hw =>
      hio.elim (fun hp => absurd hw (dmaSource_window hp h)) fun hk => hk s
  obtain ⟨b, n, hr⟩ := memRead_ok s (dmaSource_not_gap page h)
  unfold landByte
  rw [e, hr, ReadResult.after_ok]
  show (f (s.withDraws n)).withOam ((f (s.withDraws n)).oam.write i b) =
    f ((s.withDraws n).withOam ((s.withDraws n).oam.write i b))
  rw [hf.withOam, hf.oam]

theorem landAll_blind {f : State → State} (hf : DmaBlind f) (page : Byte) (k : Nat) (s : State)
    (hio : page ≠ 0xFF#8 ∨ ∀ s, (f s).io = s.io) : landAll page k (f s) = f (landAll page k s) := by
  unfold landAll
  rw [hf.params]
  have hl : ∀ i ∈ landingBytes s.params k, i < 0xA0 := fun _ => landingBytes_lt
  generalize landingBytes s.params k = l at hl
  induction l generalizing s with
  | nil => rfl
  | cons i l ih =>
    rw [List.foldl_cons, List.foldl_cons, landByte_blind hf page (hl i List.mem_cons_self) s hio]
    exact ih _ fun j hj => hl j (List.mem_cons_of_mem _ hj)

/-- A cycle of the engine commutes with such a change. -/
theorem busCycle_blind {f : State → State} (hf : DmaBlind f) (s : State)
    (hio : (∀ e ∈ s.dma, e.page ≠ 0xFF#8) ∨ ∀ s, (f s).io = s.io) : busCycle (f s) = f (busCycle s) := by
  have fold : ∀ (d : List Transfer) (s : State), ((∀ e ∈ d, e.page ≠ 0xFF#8) ∨ ∀ s, (f s).io = s.io) →
      d.foldl dmaEntryCycle (f s) = f (d.foldl dmaEntryCycle s) := by
    intro d
    induction d with
    | nil => intro s _; rfl
    | cons e d ih =>
      intro s hd
      rw [List.foldl_cons, List.foldl_cons]
      have he : dmaEntryCycle (f s) e = f (dmaEntryCycle s e) :=
        landAll_blind hf e.page _ s (hd.imp_left fun h => h e List.mem_cons_self)
      rw [he]
      exact ih _ (hd.imp_left fun h e' he' => h e' (List.mem_cons_of_mem _ he'))
  unfold busCycle
  rw [hf.dma, fold _ _ hio, hf.withDma]

/-- A BUS_STEP commutes with such a change. -/
theorem busStep_blind {f : State → State} (hf : DmaBlind f) (n : Nat) (s : State)
    (hio : (∀ e ∈ s.dma, e.page ≠ 0xFF#8) ∨ ∀ s, (f s).io = s.io) : busStep n (f s) = f (busStep n s) := by
  induction n generalizing s with
  | zero => rfl
  | succ n ih =>
    rw [busStep_succ, busStep_succ, busCycle_blind hf s hio]
    refine ih _ (hio.imp_left fun h e he => ?_)
    obtain ⟨o, k, hc⟩ := busCycle_frame s
    rw [hc] at he
    simp only [State.withDraws_dma, State.withDma_dma, dmaAge, List.mem_filter, List.mem_map] at he
    obtain ⟨⟨e', he', rfl⟩, -⟩ := he
    exact h e' he'

theorem dmaBlind_withReply (r : Reply) : DmaBlind fun s => s.withReply r := by
  constructor
  · constructor <;> intros <;> rfl
  all_goals intros; rfl

theorem dmaBlind_withSysSteps (n : Nat) : DmaBlind fun s => s.withSysSteps n := by
  constructor
  · constructor <;> intros <;> rfl
  all_goals intros; rfl

end Sys2Proof.Machine
end

