-- ==== Sys2Proof/Laws/PerInstr.lean ====
section
/-! SUPPORT. One statement for every constructor of Instr: the word of a well-formed instruction is one of the words that
spec/opcode_table.json gives its row. -/

namespace Sys2Proof.Laws

/-- The word lies in the row whose fixed bits are those of `pattern` above bit `low` (R85, R87). -/
def InTableRow (i : Instr) (pattern low : Nat) : Prop :=
  i.wellFormed = true → (encode i).word.toNat / 2 ^ low = pattern / 2 ^ low

/-- The number of a word made of its two fields. -/
theorem mkWord_toNat (c : BitVec 4) (a : Addr) : (mkWord c a).toNat = c.toNat * 65536 + a.toNat := by
  rw [mkWord, BitVec.toNat_append, ← Nat.shiftLeft_add_eq_or_of_lt a.isLt, Nat.shiftLeft_eq]

/-- A row that is one aligned block of 2 ^ low addresses from `lo` on. -/
theorem inTableRow_of_block {i : Instr} {a : Addr} {c : BitVec 4} {lo hi pattern low : Nat}
    (hw : i.wellFormed = true → inBlock lo hi a = true) (he : (encode i).word = mkWord c a)
    (hp : pattern = c.toNat * 65536 + lo) (hlow : low ≤ 16) (hlo : lo % 2 ^ low = 0) (hhi : hi + 1 = lo + 2 ^ low) :
    InTableRow i pattern low := by
  intro h
  obtain ⟨h1, h2⟩ := (inBlock_iff lo hi a).mp (hw h)
  have hpos : 0 < 2 ^ low := Nat.two_pow_pos low
  have hdvd : 2 ^ low ∣ c.toNat * 65536 + lo :=
    Nat.dvd_add (Nat.dvd_mul_left_of_dvd (pow_dvd_pow 2 hlow) _) (Nat.dvd_of_mod_eq_zero hlo)
  obtain ⟨q, hq⟩ := hdvd
  rw [he, mkWord_toNat, hp, show c.toNat * 65536 + a.toNat = (a.toNat - lo) + 2 ^ low * q by omega, hq,
    Nat.add_mul_div_left _ _ hpos, Nat.mul_div_cancel_left _ hpos, Nat.div_eq_of_lt (by omega), Nat.zero_add]

namespace TableRow

/-- The `match` and the number of free low bits of each row of the table. -/
def Statement (i : Instr) : Prop :=
  match i with
  | .rdBoot _ => InTableRow i 0x00000 8
  | .rdRom0 _ => InTableRow i 0x00000 14
  | .rdRomx _ => InTableRow i 0x04000 14
  | .rdVram _ => InTableRow i 0x08000 13
  | .rdEramNone _ => InTableRow i 0x0A000 13
  | .rdEramMbc1 _ => InTableRow i 0x0A000 13
  | .rdEramMbc3 _ => InTableRow i 0x0A000 13
  | .rdWram _ => InTableRow i 0x0C000 13
  | .rdEchoE000 _ => InTableRow i 0x0E000 12
  | .rdEchoF000 _ => InTableRow i 0x0F000 11
  | .rdEchoF800 _ => InTableRow i 0x0F800 10
  | .rdEchoFc00 _ => InTableRow i 0x0FC00 9
  | .rdOamFe00 _ => InTableRow i 0x0FE00 7
  | .rdOamFe80 _ => InTableRow i 0x0FE80 5
  | .rdGapFea0 _ => InTableRow i 0x0FEA0 5
  | .rdGapFec0 _ => InTableRow i 0x0FEC0 6
  | .rdIo _ => InTableRow i 0x0FF00 7
  | .rdHram _ => InTableRow i 0x0FF80 7
  | .wrBoot _ _ => InTableRow i 0x10000 8
  | .wrRomNone _ _ => InTableRow i 0x10000 15
  | .wrMbc1Ramen _ _ => InTableRow i 0x10000 13
  | .wrMbc1Romlo _ _ => InTableRow i 0x12000 13
  | .wrMbc1Hi _ _ => InTableRow i 0x14000 13
  | .wrMbc1Mode _ _ => InTableRow i 0x16000 13
  | .wrMbc3Ramen _ _ => InTableRow i 0x10000 13
  | .wrMbc3Romb _ _ => InTableRow i 0x12000 13
  | .wrMbc3Ramen2 _ _ => InTableRow i 0x14000 13
  | .wrMbc3Ramb _ _ => InTableRow i 0x16000 13
  | .wrVram _ _ => InTableRow i 0x18000 13
  | .wrEramNone _ _ => InTableRow i 0x1A000 13
  | .wrEramMbc1 _ _ => InTableRow i 0x1A000 13
  | .wrEramMbc3 _ _ => InTableRow i 0x1A000 13
  | .wrWram _ _ => InTableRow i 0x1C000 13
  | .wrEchoE000 _ _ => InTableRow i 0x1E000 12
  | .wrEchoF000 _ _ => InTableRow i 0x1F000 11
  | .wrEchoF800 _ _ => InTableRow i 0x1F800 10
  | .wrEchoFc00 _ _ => InTableRow i 0x1FC00 9
  | .wrOamFe00 _ _ => InTableRow i 0x1FE00 7
  | .wrOamFe80 _ _ => InTableRow i 0x1FE80 5
  | .wrGapFea0 _ _ => InTableRow i 0x1FEA0 5
  | .wrGapFec0 _ _ => InTableRow i 0x1FEC0 6
  | .wrIoTac _ => InTableRow i 0x1FF07 0
  | .wrIoDma _ => InTableRow i 0x1FF46 0
  | .wrIoBootoff _ => InTableRow i 0x1FF50 0
  | .wrIo _ _ => InTableRow i 0x1FF00 7
  | .wrHram _ _ => InTableRow i 0x1FF80 7
  | .sysStep _ => InTableRow i 0x20000 0
  | .busStep _ => InTableRow i 0x30000 0
  | .ppuStep _ => InTableRow i 0x40000 0
  | .timerTick _ => InTableRow i 0x50000 0
  | .setBootOverlay _ => InTableRow i 0x60000 0
  | .irqRead => InTableRow i 0x70000 0
  | .irqClear _ => InTableRow i 0x80000 0
  | .irqRaise _ => InTableRow i 0x90000 0
  | .timerConfigure _ _ => InTableRow i 0xA0000 0
  | .ramExport => InTableRow i 0xB0000 0
  | .ramImport _ => InTableRow i 0xC0000 0
  | .frameRead => InTableRow i 0xD0000 0
  | .setButtons _ _ => InTableRow i 0xE0000 16
  | .reserved _ _ => InTableRow i 0xF0000 16

theorem rdBoot (a : Addr) : Statement (.rdBoot a) :=
  inTableRow_of_block (c := 0x0#4) (lo := 0x0000) (hi := 0x00FF) id rfl rfl (by decide) rfl rfl

theorem rdRom0 (a : Addr) : Statement (.rdRom0 a) :=
  inTableRow_of_block (c := 0x0#4) (lo := 0x0000) (hi := 0x3FFF) id rfl rfl (by decide) rfl rfl

theorem rdRomx (a : Addr) : Statement (.rdRomx a) :=
  inTableRow_of_block (c := 0x0#4) (lo := 0x4000) (hi := 0x7FFF) id rfl rfl (by decide) rfl rfl

theorem rdVram (a : Addr) : Statement (.rdVram a) :=
  inTableRow_of_block (c := 0x0#4) (lo := 0x8000) (hi := 0x9FFF) id rfl rfl (by decide) rfl rfl

theorem rdEramNone (a : Addr) : Statement (.rdEramNone a) :=
  inTableRow_of_block (c := 0x0#4) (lo := 0xA000) (hi := 0xBFFF) id rfl rfl (by decide) rfl rfl

theorem rdEramMbc1 (a : Addr) : Statement (.rdEramMbc1 a) :=
  inTableRow_of_block (c := 0x0#4) (lo := 0xA000) (hi := 0xBFFF) id rfl rfl (by decide) rfl rfl

theorem rdEramMbc3 (a : Addr) : Statement (.rdEramMbc3 a) :=
  inTableRow_of_block (c := 0x0#4) (lo := 0xA000) (hi := 0xBFFF) id rfl rfl (by decide) rfl rfl

theorem rdWram (a : Addr) : Statement (.rdWram a) :=
  inTableRow_of_block (c := 0x0#4) (lo := 0xC000) (hi := 0xDFFF) id rfl rfl (by decide) rfl rfl

theorem rdEchoE000 (a : Addr) : Statement (.rdEchoE000 a) :=
  inTableRow_of_block (c := 0x0#4) (lo := 0xE000) (hi := 0xEFFF) id rfl rfl (by decide) rfl rfl

theorem rdEchoF000 (a : Addr) : Statement (.rdEchoF000 a) :=
  inTableRow_of_block (c := 0x0#4) (lo := 0xF000) (hi := 0xF7FF) id rfl rfl (by decide) rfl rfl

theorem rdEchoF800 (a : Addr) : Statement (.rdEchoF800 a) :=
  inTableRow_of_block (c := 0x0#4) (lo := 0xF800) (hi := 0xFBFF) id rfl rfl (by decide) rfl rfl

theorem rdEchoFc00 (a : Addr) : Statement (.rdEchoFc00 a) :=
  inTableRow_of_block (c := 0x0#4) (lo := 0xFC00) (hi := 0xFDFF) id rfl rfl (by decide) rfl rfl

theorem rdOamFe00 (a : Addr) : Statement (.rdOamFe00 a) :=
  inTableRow_of_block (c := 0x0#4) (lo := 0xFE00) (hi := 0xFE7F) id rfl rfl (by decide) rfl rfl

theorem rdOamFe80 (a : Addr) : Statement (.rdOamFe80 a) :=
  inTableRow_of_block (c := 0x0#4) (lo := 0xFE80) (hi := 0xFE9F) id rfl rfl (by decide) rfl rfl

theorem rdGapFea0 (a : Addr) : Statement (.rdGapFea0 a) :=
  inTableRow_of_block (c := 0x0#4) (lo := 0xFEA0) (hi := 0xFEBF) id rfl rfl (by decide) rfl rfl

theorem rdGapFec0 (a : Addr) : Statement (.rdGapFec0 a) :=
  inTableRow_of_block (c := 0x0#4) (lo := 0xFEC0) (hi := 0xFEFF) id rfl rfl (by decide) rfl rfl

theorem rdIo (a : Addr) : Statement (.rdIo a) :=
  inTableRow_of_block (c := 0x0#4) (lo := 0xFF00) (hi := 0xFF7F) id rfl rfl (by decide) rfl rfl

theorem rdHram (a : Addr) : Statement (.rdHram a) :=
  inTableRow_of_block (c := 0x0#4) (lo := 0xFF80) (hi := 0xFFFF) id rfl rfl (by decide) rfl rfl

theorem wrBoot (a : Addr) (v : Int) : Statement (.wrBoot a v) :=
  inTableRow_of_block (c := 0x1#4) (lo := 0x0000) (hi := 0x00FF) id rfl rfl (by decide) rfl rfl

theorem wrRomNone (a : Addr) (v : Int) : Statement (.wrRomNone a v) :=
  inTableRow_of_block (c := 0x1#4) (lo := 0x0000) (hi := 0x7FFF) id rfl rfl (by decide) rfl rfl

theorem wrMbc1Ramen (a : Addr) (v : Int) : Statement (.wrMbc1Ramen a v) :=
  inTableRow_of_block (c := 0x1#4) (lo := 0x0000) (hi := 0x1FFF) id rfl rfl (by decide) rfl rfl

theorem wrMbc1Romlo (a : Addr) (v : Int) : Statement (.wrMbc1Romlo a v) :=
  inTableRow_of_block (c := 0x1#4) (lo := 0x2000) (hi := 0x3FFF) id rfl rfl (by decide) rfl rfl

theorem wrMbc1Hi (a : Addr) (v : Int) : Statement (.wrMbc1Hi a v) :=
  inTableRow_of_block (c := 0x1#4) (lo := 0x4000) (hi := 0x5FFF) id rfl rfl (by decide) rfl rfl

theorem wrMbc1Mode (a : Addr) (v : Int) : Statement (.wrMbc1Mode a v) :=
  inTableRow_of_block (c := 0x1#4) (lo := 0x6000) (hi := 0x7FFF) id rfl rfl (by decide) rfl rfl

theorem wrMbc3Ramen (a : Addr) (v : Int) : Statement (.wrMbc3Ramen a v) :=
  inTableRow_of_block (c := 0x1#4) (lo := 0x0000) (hi := 0x1FFF) id rfl rfl (by decide) rfl rfl

theorem wrMbc3Romb (a : Addr) (v : Int) : Statement (.wrMbc3Romb a v) :=
  inTableRow_of_block (c := 0x1#4) (lo := 0x2000) (hi := 0x3FFF) id rfl rfl (by decide) rfl rfl

theorem wrMbc3Ramen2 (a : Addr) (v : Int) : Statement (.wrMbc3Ramen2 a v) :=
  inTableRow_of_block (c := 0x1#4) (lo := 0x4000) (hi := 0x5FFF) id rfl rfl (by decide) rfl rfl

theorem wrMbc3Ramb (a : Addr) (v : Int) : Statement (.wrMbc3Ramb a v) :=
  inTableRow_of_block (c := 0x1#4) (lo := 0x6000) (hi := 0x7FFF) id rfl rfl (by decide) rfl rfl

theorem wrVram (a : Addr) (v : Int) : Statement (.wrVram a v) :=
  inTableRow_of_block (c := 0x1#4) (lo := 0x8000) (hi := 0x9FFF) id rfl rfl (by decide) rfl rfl

theorem wrEramNone (a : Addr) (v : Int) : Statement (.wrEramNone a v) :=
  inTableRow_of_block (c := 0x1#4) (lo := 0xA000) (hi := 0xBFFF) id rfl rfl (by decide) rfl rfl

theorem wrEramMbc1 (a : Addr) (v : Int) : Statement (.wrEramMbc1 a v) :=
  inTableRow_of_block (c := 0x1#4) (lo := 0xA000) (hi := 0xBFFF) id rfl rfl (by decide) rfl rfl

theorem wrEramMbc3 (a : Addr) (v : Int) : Statement (.wrEramMbc3 a v) :=
  inTableRow_of_block (c := 0x1#4) (lo := 0xA000) (hi := 0xBFFF) id rfl rfl (by decide) rfl rfl

theorem wrWram (a : Addr) (v : Int) : Statement (.wrWram a v) :=
  inTableRow_of_block (c := 0x1#4) (lo := 0xC000) (hi := 0xDFFF) id rfl rfl (by decide) rfl rfl

theorem wrEchoE000 (a : Addr) (v : Int) : Statement (.wrEchoE000 a v) :=
  inTableRow_of_block (c := 0x1#4) (lo := 0xE000) (hi := 0xEFFF) id rfl rfl (by decide) rfl rfl

theorem wrEchoF000 (a : Addr) (v : Int) : Statement (.wrEchoF000 a v) :=
  inTableRow_of_block (c := 0x1#4) (lo := 0xF000) (hi := 0xF7FF) id rfl rfl (by decide) rfl rfl

theorem wrEchoF800 (a : Addr) (v : Int) : Statement (.wrEchoF800 a v) :=
  inTableRow_of_block (c := 0x1#4) (lo := 0xF800) (hi := 0xFBFF) id rfl rfl (by decide) rfl rfl

theorem wrEchoFc00 (a : Addr) (v : Int) : Statement (.wrEchoFc00 a v) :=
  inTableRow_of_block (c := 0x1#4) (lo := 0xFC00) (hi := 0xFDFF) id rfl rfl (by decide) rfl rfl

theorem wrOamFe00 (a : Addr) (v : Int) : Statement (.wrOamFe00 a v) :=
  inTableRow_of_block (c := 0x1#4) (lo := 0xFE00) (hi := 0xFE7F) id rfl rfl (by decide) rfl rfl

theorem wrOamFe80 (a : Addr) (v : Int) : Statement (.wrOamFe80 a v) :=
  inTableRow_of_block (c := 0x1#4) (lo := 0xFE80) (hi := 0xFE9F) id rfl rfl (by decide) rfl rfl

theorem wrGapFea0 (a : Addr) (v : Int) : Statement (.wrGapFea0 a v) :=
  inTableRow_of_block (c := 0x1#4) (lo := 0xFEA0) (hi := 0xFEBF) id rfl rfl (by decide) rfl rfl

theorem wrGapFec0 (a : Addr) (v : Int) : Statement (.wrGapFec0 a v) :=
  inTableRow_of_block (c := 0x1#4) (lo := 0xFEC0) (hi := 0xFEFF) id rfl rfl (by decide) rfl rfl

theorem wrIoTac (v : Int) : Statement (.wrIoTac v) :=
  fun _ => rfl

theorem wrIoDma (v : Int) : Statement (.wrIoDma v) :=
  fun _ => rfl

theorem wrIoBootoff (v : Int) : Statement (.wrIoBootoff v) :=
  fun _ => rfl

theorem wrIo (a : Addr) (v : Int) : Statement (.wrIo a v) :=
  inTableRow_of_block (c := 0x1#4) (lo := 0xFF00) (hi := 0xFF7F)
    (fun h => (Bool.and_eq_true_iff.mp (Bool.and_eq_true_iff.mp (Bool.and_eq_true_iff.mp h).1).1).1) rfl rfl (by decide) rfl rfl

theorem wrHram (a : Addr) (v : Int) : Statement (.wrHram a v) :=
  inTableRow_of_block (c := 0x1#4) (lo := 0xFF80) (hi := 0xFFFF) id rfl rfl (by decide) rfl rfl

theorem sysStep (n : Nat) : Statement (.sysStep n) :=
  fun _ => rfl

theorem busStep (n : Nat) : Statement (.busStep n) :=
  fun _ => rfl

theorem ppuStep (n : Nat) : Statement (.ppuStep n) :=
  fun _ => rfl

theorem timerTick (n : Nat) : Statement (.timerTick n) :=
  fun _ => rfl

theorem setBootOverlay (f : Bool) : Statement (.setBootOverlay f) :=
  fun _ => rfl

theorem irqRead : Statement .irqRead :=
  fun _ => rfl

theorem irqClear (m : BitVec 5) : Statement (.irqClear m) :=
  fun _ => rfl

theorem irqRaise (k : Irq) : Statement (.irqRaise k) :=
  fun _ => rfl

theorem timerConfigure (en : Bool) (n : Nat) : Statement (.timerConfigure en n) :=
  fun _ => rfl

theorem ramExport : Statement .ramExport :=
  fun _ => rfl

theorem ramImport (bytes : List Byte) : Statement (.ramImport bytes) :=
  fun _ => rfl

theorem frameRead : Statement .frameRead :=
  fun _ => rfl

theorem setButtons (a : Addr) (x : Operand) : Statement (.setButtons a x) :=
  inTableRow_of_block (c := 0xE#4) (lo := 0x0000) (hi := 0xFFFF)
    (fun _ => (inBlock_iff 0x0000 0xFFFF a).mpr ⟨Nat.zero_le _, Nat.le_of_lt_succ a.isLt⟩) rfl rfl (by decide) rfl rfl

theorem reserved (a : Addr) (x : Operand) : Statement (.reserved a x) :=
  inTableRow_of_block (c := 0xF#4) (lo := 0x0000) (hi := 0xFFFF)
    (fun _ => (inBlock_iff 0x0000 0xFFFF a).mpr ⟨Nat.zero_le _, Nat.le_of_lt_succ a.isLt⟩) rfl rfl (by decide) rfl rfl

end TableRow

end Sys2Proof.Laws
end

