-- ==== Sys2Proof/Laws/Timer.lean ====
section
/-! SUPPORT. What a timer cycle can do (R240, R242): the tick counter, the DIV and TIMA bytes and the TIMER flag change, and
nothing else. -/

namespace Sys2Proof.Machine

/-- A cycle moves the tick counter on by one (R242). -/
theorem timerCycle_tcount (s : State) : (timerCycle s).tcount = s.tcount + 1#10 := by
  simp only [timerCycle, timaCycle, timaCount, divCycle, raiseIrq]
  repeat' split
  all_goals rfl

/-- A cycle changes the tick counter, the IO block and the pending flags alone (R240). -/
theorem timerCycle_frame (s : State) :
    timerCycle s = ((s.withTcount (s.tcount + 1#10)).withIo (timerCycle s).io).withIrq (timerCycle s).irq := by
  simp only [timerCycle, timaCycle, timaCount, divCycle, raiseIrq]
  repeat' split
  all_goals rfl

/-- A cycle writes no IO byte but DIV and TIMA (R240). -/
theorem timerCycle_io_other (s : State) {off : Nat} (h4 : off ≠ 0x04) (h5 : off ≠ 0x05) :
    (timerCycle s).io.read off = s.io.read off := by
  simp only [timerCycle, timaCycle, timaCount, divCycle, raiseIrq]
  repeat' split
  all_goals simp [Memory.read_write, h4, h5]

/-- A cycle keeps the pending flags or raises TIMER (R242). -/
theorem timerCycle_irq (s : State) : (timerCycle s).irq = s.irq ∨ (timerCycle s).irq = s.irq ||| irqMask .timer := by
  simp only [timerCycle, timaCycle, timaCount, divCycle, raiseIrq]
  repeat' split
  all_goals simp

/-- DIV after a cycle (R243). -/
theorem timerCycle_div (s : State) :
    (timerCycle s).io.read 0x04 =
      if (s.tcount + 1#10).toNat % 256 = 0 then s.io.read 0x04 + 1#8 else s.io.read 0x04 := by
  simp only [timerCycle, timaCycle, timaCount, divCycle, raiseIrq, State.withTcount_tcount]
  by_cases h : (s.tcount + 1#10).toNat % 256 = 0 <;> simp only [h, if_true, if_false]
  all_goals repeat' split
  all_goals simp [Memory.read_write]

/-- The divider's part of a cycle writes the DIV byte alone (R243). -/
theorem divCycle_eq (s : State) : ∃ v, divCycle s = s.withIo (s.io.write 0x04 v) ∨ divCycle s = s := by
  unfold divCycle
  split
  · exact ⟨_, .inl rfl⟩
  · exact ⟨0#8, .inr rfl⟩

/-- The counter's part of a cycle (R244, R245). -/
theorem timaCycle_eq (s : State) :
    ((timaCycle s).io.read 0x05, (timaCycle s).irq) =
      if s.tEnabled = true ∧ s.tcount.toNat % s.tDivisor = 0 then
        if s.io.read 0x05 = 0xFF#8 then (s.io.read 0x06, s.irq ||| irqMask .timer)
        else (s.io.read 0x05 + 1#8, s.irq)
      else (s.io.read 0x05, s.irq) := by
  unfold timaCycle
  split
  · unfold timaCount raiseIrq
    split
    · exact Prod.ext (Memory.read_write_same _ _ _) rfl
    · exact Prod.ext (Memory.read_write_same _ _ _) rfl
  · rfl

/-- TIMA and the flags after a cycle (R244, R245). -/
theorem timerCycle_tima (s : State) :
    ((timerCycle s).io.read 0x05, (timerCycle s).irq) =
      if s.tEnabled = true ∧ (s.tcount + 1#10).toNat % s.tDivisor = 0 then
        if s.io.read 0x05 = 0xFF#8 then (s.io.read 0x06, s.irq ||| irqMask .timer)
        else (s.io.read 0x05 + 1#8, s.irq)
      else (s.io.read 0x05, s.irq) := by
  have h5 : (0x05 : Nat) ≠ 0x04 := by decide
  have h6 : (0x06 : Nat) ≠ 0x04 := by decide
  unfold timerCycle
  rw [timaCycle_eq]
  obtain ⟨v, e | e⟩ := divCycle_eq (s.withTcount (s.tcount + 1#10))
  · rw [e]
    simp only [State.withIo_tEnabled, State.withIo_tcount, State.withIo_tDivisor, State.withIo_io, State.withIo_irq,
      State.withTcount_tEnabled, State.withTcount_tcount, State.withTcount_tDivisor, State.withTcount_io,
      State.withTcount_irq, Memory.read_write_other _ v h5, Memory.read_write_other _ v h6]
  · rw [e]
    rfl

/-- A cycle keeps the IO block in canonical form and inside its length. -/
theorem timerCycle_io_fits {s : State} (h : s.io.fits Config.ioLen) : (timerCycle s).io.fits Config.ioLen := by
  have tima : ∀ u : State, u.io.fits Config.ioLen → (timaCycle u).io.fits Config.ioLen := by
    intro u hu
    have hw : ∀ v, (u.io.write Config.timaOff v).fits Config.ioLen := fun v => Memory.write_fits v (by decide) hu
    unfold timaCycle timaCount
    split
    · split
      · simp only [raiseIrq, State.withIrq_io, State.withIo_io]; exact hw _
      · simp only [State.withIo_io]; exact hw _
    · exact hu
  refine tima _ ?_
  obtain ⟨v, e | e⟩ := divCycle_eq (s.withTcount (s.tcount + 1#10))
  · rw [e]
    simp only [State.withIo_io, State.withTcount_io]
    exact Memory.write_fits v (by decide) h
  · rw [e]; exact h

@[simp] theorem timerTick_zero (s : State) : timerTick 0 s = s := rfl

theorem timerTick_succ (n : Nat) (s : State) : timerTick (n + 1) s = timerTick n (timerCycle s) := rfl

/-- A TIMER_TICK changes the tick counter, the IO block and the pending flags alone (R240). -/
theorem timerTick_frame (n : Nat) (s : State) :
    ∃ c m q, timerTick n s = ((s.withTcount c).withIo m).withIrq q := by
  induction n generalizing s with
  | zero => exact ⟨s.tcount, s.io, s.irq, rfl⟩
  | succ n ih =>
    obtain ⟨c, m, q, e⟩ := ih (timerCycle s)
    have hc := timerCycle_frame s
    generalize s.tcount + 1#10 = c', (timerCycle s).io = m', (timerCycle s).irq = q' at hc
    exact ⟨c, m, q, by rw [timerTick_succ, e, hc]; rfl⟩

/-- A change of the state that the timer does not see. -/
structure TimerBlind (f : State → State) : Prop where
  tcount : ∀ s, (f s).tcount = s.tcount
  io : ∀ s, (f s).io = s.io
  irq : ∀ s, (f s).irq = s.irq
  tEnabled : ∀ s, (f s).tEnabled = s.tEnabled
  tDivisor : ∀ s, (f s).tDivisor = s.tDivisor
  withTcount : ∀ s c, f (s.withTcount c) = (f s).withTcount c
  withIo : ∀ s m, f (s.withIo m) = (f s).withIo m
  withIrq : ∀ s q, f (s.withIrq q) = (f s).withIrq q

/-- A TIMER_TICK commutes with such a change. -/
theorem timerTick_blind {f : State → State} (hf : TimerBlind f) (n : Nat) (s : State) :
    timerTick n (f s) = f (timerTick n s) := by
  have cycle : ∀ s, timerCycle (f s) = f (timerCycle s) := by
    intro s
    have hd : divCycle (f (s.withTcount (s.tcount + 1#10))) = f (divCycle (s.withTcount (s.tcount + 1#10))) := by
      generalize s.withTcount (s.tcount + 1#10) = u
      unfold divCycle
      rw [hf.tcount, hf.io]
      split
      · rw [hf.withIo]
      · rfl
    have ht : ∀ u, timaCycle (f u) = f (timaCycle u) := by
      intro u
      unfold timaCycle timaCount raiseIrq
      rw [hf.tcount, hf.io, hf.tEnabled, hf.tDivisor]
      split
      · split
        · rw [← hf.withIo, hf.irq, hf.withIrq]
        · rw [hf.withIo]
      · rfl
    unfold timerCycle
    rw [hf.tcount, ← hf.withTcount, hd, ht]
  induction n generalizing s with
  | zero => rfl
  | succ n ih => rw [timerTick_succ, timerTick_succ, cycle, ih]

/-- The DMA engine does not see a TIMER_TICK but through an IO byte (R336). -/
theorem dmaBlind_timerTick (n : Nat) : DmaBlind (timerTick n) := by
  have frame := timerTick_frame n
  constructor
  · constructor
    case withDraws => intro s k; exact timerTick_blind (f := fun s => s.withDraws k) (by constructor <;> intros <;> rfl) n s
    all_goals
      intro s
      obtain ⟨c, m, q, e⟩ := frame s
      rw [e]
      rfl
  case withOam => intro s o; exact timerTick_blind (f := fun s => s.withOam o) (by constructor <;> intros <;> rfl) n s
  case withDma => intro s d; exact timerTick_blind (f := fun s => s.withDma d) (by constructor <;> intros <;> rfl) n s
  all_goals
    intro s
    obtain ⟨c, m, q, e⟩ := frame s
    rw [e]
    rfl

theorem timerBlind_withReply (r : Reply) : TimerBlind fun s => s.withReply r := by
  constructor <;> intros <;> rfl

end Sys2Proof.Machine
end

