-- ==== Sys2Proof/Laws/Ppu.lean ====
section
/-! SUPPORT. What a transition of the scanline processor and its loop can do (R201 to R206): its own mode, count and line,
the grids, the frame number, the VBLANK flag, and nothing else; and that the loop's bound is never met. -/

namespace Sys2Proof.Machine

/-! ## Rendering and transitions -/

/-- Rendering reads VRAM and the IO block alone (R207). -/
theorem renderedLine_congr (l : Nat) {s t : State} (hv : s.vram = t.vram) (hi : s.io = t.io) :
    renderedLine l s = renderedLine l t := by
  unfold renderedLine renderPixel
  rw [hv, hi]

/-- A change of the state that the scanline processor does not see. -/
structure PpuBlind (f : State → State) : Prop where
  params : ∀ s, (f s).params = s.params
  ppuMode : ∀ s, (f s).ppuMode = s.ppuMode
  ppuElapsed : ∀ s, (f s).ppuElapsed = s.ppuElapsed
  ppuLine : ∀ s, (f s).ppuLine = s.ppuLine
  scratch : ∀ s, (f s).scratch = s.scratch
  frontSeq : ∀ s, (f s).frontSeq = s.frontSeq
  irq : ∀ s, (f s).irq = s.irq
  io : ∀ s, (f s).io = s.io
  vram : ∀ s, (f s).vram = s.vram
  withPpu : ∀ s m e l, f (s.withPpu m e l) = (f s).withPpu m e l
  withScratch : ∀ s g, f (s.withScratch g) = (f s).withScratch g
  withFront : ∀ s g n, f (s.withFront g n) = (f s).withFront g n
  withIrq : ∀ s q, f (s.withIrq q) = (f s).withIrq q
  withIo : ∀ s m, f (s.withIo m) = (f s).withIo m

theorem transition_blind {f : State → State} (hf : PpuBlind f) (s : State) :
    transition (f s) = f (transition s) := by
  unfold transition
  rw [hf.ppuMode, hf.ppuLine, hf.ppuElapsed]
  cases s.ppuMode with
  | oamRead => exact (hf.withPpu _ _ _ _).symm
  | vramRead =>
    simp only [renderLine]
    rw [renderedLine_congr s.ppuLine (hf.vram s) (hf.io s), hf.scratch, ← hf.withScratch, ← hf.withPpu]
  | hblank =>
    simp only
    split
    · exact (hf.withPpu _ _ _ _).symm
    · unfold raiseIrq publish
      rw [hf.irq, ← hf.withIrq, hf.scratch, hf.frontSeq, ← hf.withFront, ← hf.withPpu]
  | vblank => exact (hf.withPpu _ _ _ _).symm

theorem ppuLoop_blind {f : State → State} (hf : PpuBlind f) (k : Nat) (s : State) :
    ppuLoop k (f s) = f (ppuLoop k s) := by
  induction k generalizing s with
  | zero => rfl
  | succ k ih =>
    unfold ppuLoop
    rw [hf.params, hf.ppuMode, hf.ppuElapsed, hf.ppuLine]
    split
    · rw [← hf.withPpu, transition_blind hf, ih]
    · rfl

/-- A PPU_STEP commutes with such a change. -/
theorem ppuStep_blind {f : State → State} (hf : PpuBlind f) (n : Nat) (s : State) :
    ppuStep n (f s) = f (ppuStep n s) := by
  unfold ppuStep
  rw [hf.ppuMode, hf.ppuElapsed, hf.ppuLine, ← hf.withPpu, ppuLoop_blind hf]
  generalize ppuLoop _ _ = u
  unfold writeLy visibleLine
  rw [hf.io, hf.ppuMode, hf.ppuLine, hf.ppuElapsed, hf.params, ← hf.withIo]

/-! ## Frames -/

/-- A transition changes the processor's own state, the grids, the frame number and the pending flags alone. -/
theorem transition_frame (s : State) :
    ∃ m e l g h n q, transition s =
      { s with ppuMode := m, ppuElapsed := e, ppuLine := l, scratch := g, front := h, frontSeq := n, irq := q } := by
  unfold transition
  cases s.ppuMode with
  | oamRead => exact ⟨.vramRead, s.ppuElapsed, s.ppuLine, s.scratch, s.front, s.frontSeq, s.irq, rfl⟩
  | vramRead =>
    exact ⟨.hblank, s.ppuElapsed, s.ppuLine, s.scratch.setIfInBounds s.ppuLine (renderedLine s.ppuLine s), s.front,
      s.frontSeq, s.irq, rfl⟩
  | hblank =>
    simp only
    split
    · exact ⟨.oamRead, s.ppuElapsed, s.ppuLine + 1, s.scratch, s.front, s.frontSeq, s.irq, rfl⟩
    · exact ⟨.vblank, s.ppuElapsed, Config.visibleLines, s.scratch, s.scratch, s.frontSeq + 1,
        s.irq ||| irqMask .vblank, rfl⟩
  | vblank => exact ⟨.oamRead, s.ppuElapsed, 0, s.scratch, s.front, s.frontSeq, s.irq, rfl⟩

/-- A transition keeps the pending flags or raises VBLANK (R205, R216). -/
theorem transition_irq (s : State) : (transition s).irq = s.irq ∨ (transition s).irq = s.irq ||| irqMask .vblank := by
  unfold transition
  cases s.ppuMode with
  | oamRead => exact .inl rfl
  | vramRead => exact .inl rfl
  | hblank =>
    simp only
    split
    · exact .inl rfl
    · exact .inr rfl
  | vblank => exact .inl rfl

/-- A transition leaves the elapsed count alone (R202 to R206). -/
@[simp] theorem transition_ppuElapsed (s : State) : (transition s).ppuElapsed = s.ppuElapsed := by
  unfold transition
  cases s.ppuMode with
  | oamRead => rfl
  | vramRead => rfl
  | hblank => simp only; split <;> rfl
  | vblank => rfl

/-- A transition leaves the parameters alone. -/
@[simp] theorem transition_params (s : State) : (transition s).params = s.params := by
  obtain ⟨m, e, l, g, h, n, q, eq⟩ := transition_frame s
  rw [eq]

/-- The loop changes the processor's own state, the grids, the frame number and the pending flags alone. -/
theorem ppuLoop_frame (k : Nat) (s : State) :
    ∃ m e l g h n q, ppuLoop k s =
      { s with ppuMode := m, ppuElapsed := e, ppuLine := l, scratch := g, front := h, frontSeq := n, irq := q } := by
  induction k generalizing s with
  | zero => exact ⟨s.ppuMode, s.ppuElapsed, s.ppuLine, s.scratch, s.front, s.frontSeq, s.irq, rfl⟩
  | succ k ih =>
    unfold ppuLoop
    split
    · generalize s.ppuElapsed - modeCycles s.params s.ppuMode = r
      obtain ⟨m, e, l, g, h, n, q, e1⟩ := transition_frame (s.withPpu s.ppuMode r s.ppuLine)
      obtain ⟨m', e', l', g', h', n', q', e2⟩ := ih (transition (s.withPpu s.ppuMode r s.ppuLine))
      exact ⟨m', e', l', g', h', n', q', by rw [e2, e1]; rfl⟩
    · exact ⟨s.ppuMode, s.ppuElapsed, s.ppuLine, s.scratch, s.front, s.frontSeq, s.irq, rfl⟩

/-- A PPU_STEP changes the processor's own state, the grids, the frame number, the pending flags and the LY byte alone
(R336). -/
theorem ppuStep_frame (n : Nat) (s : State) :
    ∃ m e l g h k q v, ppuStep n s =
      { s with
        ppuMode := m, ppuElapsed := e, ppuLine := l, scratch := g, front := h, frontSeq := k, irq := q
        io := s.io.write Config.lyOff v } := by
  unfold ppuStep
  generalize s.ppuElapsed + n = r
  obtain ⟨m, e, l, g, h, k, q, eq⟩ := ppuLoop_frame (ppuFuel r) (s.withPpu s.ppuMode r s.ppuLine)
  rw [eq]
  exact ⟨m, e, l, g, h, k, q, _, rfl⟩

/-! ## The bound of the loop -/

/-- The loop has stopped: its condition fails. -/
def PpuDone (s : State) : Prop := s.ppuElapsed < modeCycles s.params s.ppuMode

/-- Every mode lasts at least one cycle, under legal parameters (R200). -/
theorem modeCycles_pos {p : Params} (h : 0 < p.vblankCycles) (m : PpuMode) : 0 < modeCycles p m := by
  cases m with
  | vblank => exact h
  | _ => simp [modeCycles, Config.oamReadCycles, Config.vramReadCycles, Config.hblankCycles]

/-- A loop that has stopped stays where it is. -/
theorem ppuLoop_done {s : State} (h : PpuDone s) (k : Nat) : ppuLoop k s = s := by
  cases k with
  | zero => rfl
  | succ k => rw [ppuLoop, if_neg (by unfold PpuDone at h; omega)]

/-- One turn of the loop. -/
theorem ppuLoop_turn {s : State} (h : ¬ PpuDone s) (k : Nat) :
    ppuLoop (k + 1) s =
      ppuLoop k (transition (s.withPpu s.ppuMode (s.ppuElapsed - modeCycles s.params s.ppuMode) s.ppuLine)) := by
  rw [ppuLoop, if_pos (by unfold PpuDone at h; omega)]

/-- More bound than the elapsed count changes nothing: the loop stops before. -/
theorem ppuLoop_enough (k j : Nat) (s : State) (hv : 0 < s.params.vblankCycles) (hk : s.ppuElapsed < k)
    (hj : s.ppuElapsed < j) : ppuLoop k s = ppuLoop j s := by
  induction k generalizing j s with
  | zero => omega
  | succ k ih =>
    by_cases hd : PpuDone s
    · rw [ppuLoop_done hd, ppuLoop_done hd]
    · obtain ⟨j, rfl⟩ : ∃ i, j = i + 1 := ⟨j - 1, by omega⟩
      have hpos := modeCycles_pos hv s.ppuMode
      have hle : modeCycles s.params s.ppuMode ≤ s.ppuElapsed := by unfold PpuDone at hd; omega
      rw [ppuLoop_turn hd, ppuLoop_turn hd]
      refine ih _ _ ?_ ?_ ?_
      · rw [transition_params]; exact hv
      · rw [transition_ppuElapsed]; show s.ppuElapsed - modeCycles s.params s.ppuMode < k; omega
      · rw [transition_ppuElapsed]; show s.ppuElapsed - modeCycles s.params s.ppuMode < j; omega

/-- With bound enough the loop stops with its condition false (R201). -/
theorem ppuLoop_stops (k : Nat) (s : State) (hv : 0 < s.params.vblankCycles) (hk : s.ppuElapsed < k) :
    PpuDone (ppuLoop k s) := by
  induction k generalizing s with
  | zero => omega
  | succ k ih =>
    by_cases hd : PpuDone s
    · rw [ppuLoop_done hd]; exact hd
    · have hpos := modeCycles_pos hv s.ppuMode
      have hle : modeCycles s.params s.ppuMode ≤ s.ppuElapsed := by unfold PpuDone at hd; omega
      rw [ppuLoop_turn hd]
      refine ih _ ?_ ?_
      · rw [transition_params]; exact hv
      · rw [transition_ppuElapsed]; show s.ppuElapsed - modeCycles s.params s.ppuMode < k; omega

/-- The scanline processor does not see a change that its own blindness lists, nor the DMA engine a PPU_STEP but through an
IO byte (R336). -/
theorem dmaBlind_ppuStep (n : Nat) : DmaBlind (ppuStep n) := by
  have frame := ppuStep_frame n
  constructor
  · constructor
    case withDraws => intro s k; exact ppuStep_blind (f := fun s => s.withDraws k) (by constructor <;> intros <;> rfl) n s
    all_goals
      intro s
      obtain ⟨m, e, l, g, h, k, q, v, eq⟩ := frame s
      rw [eq]
  case withOam => intro s o; exact ppuStep_blind (f := fun s => s.withOam o) (by constructor <;> intros <;> rfl) n s
  case withDma => intro s d; exact ppuStep_blind (f := fun s => s.withDma d) (by constructor <;> intros <;> rfl) n s
  all_goals
    intro s
    obtain ⟨m, e, l, g, h, k, q, v, eq⟩ := frame s
    rw [eq]

theorem ppuBlind_withReply (r : Reply) : PpuBlind fun s => s.withReply r := by
  constructor <;> intros <;> rfl

end Sys2Proof.Machine
end

