-- ==== Sys2Proof/Tests/Slice0.lean ====
section
/-! SUPPORT. Small tests of one step each, the ill-formed terms that WellFormed refuses, a written-out word for every row
of the opcode table, and a witness for the hypotheses of every statement that has some. Expected values come from the
rules' worked examples and from spec/95_test_vectors.md. -/

namespace Sys2Proof.Tests

open Sys2Proof Sys2Proof.Machine

/-! ## WellFormed refuses an address outside each row's block (R85) -/

theorem test_wellFormed_refuses_reads :
    [Instr.rdBoot 0x0100#16, .rdRom0 0x4000#16, .rdRomx 0x3FFF#16, .rdRomx 0x8000#16, .rdVram 0x7FFF#16,
      .rdVram 0xA000#16, .rdEramNone 0x9FFF#16, .rdEramMbc1 0xC000#16, .rdEramMbc3 0x9FFF#16].all
      (fun i => !i.wellFormed) = true := by decide

theorem test_wellFormed_refuses_reads_high :
    [Instr.rdWram 0xE000#16, .rdEchoE000 0xF000#16, .rdEchoF000 0xF800#16, .rdEchoF800 0xFC00#16,
      .rdEchoFc00 0xFE00#16, .rdOamFe00 0xFE80#16, .rdOamFe80 0xFEA0#16, .rdGapFea0 0xFEC0#16, .rdGapFec0 0xFF00#16,
      .rdIo 0xFF80#16, .rdHram 0xFF7F#16].all (fun i => !i.wellFormed) = true := by decide

theorem test_wellFormed_refuses_rom_writes :
    [Instr.wrBoot 0x0100#16 0, .wrRomNone 0x8000#16 0, .wrMbc1Ramen 0x2000#16 0, .wrMbc1Romlo 0x1FFF#16 0,
      .wrMbc1Hi 0x6000#16 0, .wrMbc1Mode 0x5FFF#16 0, .wrMbc3Ramen 0x2000#16 0, .wrMbc3Romb 0x4000#16 0,
      .wrMbc3Ramen2 0x3FFF#16 0, .wrMbc3Ramb 0x8000#16 0].all (fun i => !i.wellFormed) = true := by decide

theorem test_wellFormed_refuses_ram_writes :
    [Instr.wrVram 0x7FFF#16 0, .wrEramNone 0xC000#16 0, .wrEramMbc1 0x9FFF#16 0, .wrEramMbc3 0xC000#16 0,
      .wrWram 0xBFFF#16 0, .wrEchoE000 0xDFFF#16 0, .wrEchoF000 0xEFFF#16 0, .wrEchoF800 0xF7FF#16 0,
      .wrEchoFc00 0xFBFF#16 0].all (fun i => !i.wellFormed) = true := by decide

theorem test_wellFormed_refuses_high_writes :
    [Instr.wrOamFe00 0xFE80#16 0, .wrOamFe80 0xFE7F#16 0, .wrGapFea0 0xFEC0#16 0, .wrGapFec0 0xFEBF#16 0,
      .wrIo 0xFF07#16 0, .wrIo 0xFF46#16 0, .wrIo 0xFF50#16 0, .wrIo 0xFF80#16 0, .wrHram 0xFF7F#16 0].all
      (fun i => !i.wellFormed) = true := by decide

/-! ## Decoding: a word written out for every row (R80, R81, R85) -/

theorem test_decode_rom_reads :
    decode ⟨.none, true⟩ ⟨0b00000000000011111111#20, .none⟩ = .ok (.rdBoot 0x00FF#16) ∧
    decode ⟨.none, false⟩ ⟨0b00000000000011111111#20, .none⟩ = .ok (.rdRom0 0x00FF#16) ∧
    decode ⟨.mbc1, true⟩ ⟨0b00000000000100000000#20, .none⟩ = .ok (.rdRom0 0x0100#16) ∧
    decode ⟨.mbc3, true⟩ ⟨0b00000100000000000001#20, .none⟩ = .ok (.rdRomx 0x4001#16) := by decide

theorem test_decode_ram_reads :
    decode ⟨.none, true⟩ ⟨0b00001001100000000000#20, .none⟩ = .ok (.rdVram 0x9800#16) ∧
    decode ⟨.none, true⟩ ⟨0b00001010000000010000#20, .none⟩ = .ok (.rdEramNone 0xA010#16) ∧
    decode ⟨.mbc1, true⟩ ⟨0b00001010000000000000#20, .none⟩ = .ok (.rdEramMbc1 0xA000#16) ∧
    decode ⟨.mbc3, true⟩ ⟨0b00001010000000000101#20, .none⟩ = .ok (.rdEramMbc3 0xA005#16) ∧
    decode ⟨.none, true⟩ ⟨0b00001101111111111111#20, .none⟩ = .ok (.rdWram 0xDFFF#16) := by decide

theorem test_decode_echo_reads :
    decode ⟨.none, true⟩ ⟨0b00001110000100100011#20, .none⟩ = .ok (.rdEchoE000 0xE123#16) ∧
    decode ⟨.none, true⟩ ⟨0b00001111000000000000#20, .none⟩ = .ok (.rdEchoF000 0xF000#16) ∧
    decode ⟨.none, true⟩ ⟨0b00001111100000000000#20, .none⟩ = .ok (.rdEchoF800 0xF800#16) ∧
    decode ⟨.none, true⟩ ⟨0b00001111110111111111#20, .none⟩ = .ok (.rdEchoFc00 0xFDFF#16) := by decide

theorem test_decode_high_reads :
    decode ⟨.none, true⟩ ⟨0b00001111111000000000#20, .none⟩ = .ok (.rdOamFe00 0xFE00#16) ∧
    decode ⟨.none, true⟩ ⟨0b00001111111010011111#20, .none⟩ = .ok (.rdOamFe80 0xFE9F#16) ∧
    decode ⟨.none, true⟩ ⟨0b00001111111010100000#20, .none⟩ = .ok (.rdGapFea0 0xFEA0#16) ∧
    decode ⟨.none, true⟩ ⟨0b00001111111011111111#20, .none⟩ = .ok (.rdGapFec0 0xFEFF#16) ∧
    decode ⟨.none, true⟩ ⟨0b00001111111101000100#20, .none⟩ = .ok (.rdIo 0xFF44#16) ∧
    decode ⟨.none, true⟩ ⟨0b00001111111111111111#20, .none⟩ = .ok (.rdHram 0xFFFF#16) := by decide

theorem test_decode_bank_writes :
    decode ⟨.mbc1, true⟩ ⟨0b00010000000000000000#20, .int 0x0A⟩ = .ok (.wrBoot 0x0000#16 0x0A) ∧
    decode ⟨.none, true⟩ ⟨0b00010010000000000000#20, .int 0x05⟩ = .ok (.wrRomNone 0x2000#16 0x05) ∧
    decode ⟨.mbc1, true⟩ ⟨0b00010001000000000000#20, .int 0x3A⟩ = .ok (.wrMbc1Ramen 0x1000#16 0x3A) ∧
    decode ⟨.mbc1, true⟩ ⟨0b00010010000000000000#20, .int 0xE3⟩ = .ok (.wrMbc1Romlo 0x2000#16 0xE3) ∧
    decode ⟨.mbc1, true⟩ ⟨0b00010100000000000000#20, .int 0x02⟩ = .ok (.wrMbc1Hi 0x4000#16 0x02) ∧
    decode ⟨.mbc1, true⟩ ⟨0b00010110000000000000#20, .int 0x01⟩ = .ok (.wrMbc1Mode 0x6000#16 0x01) ∧
    decode ⟨.mbc3, false⟩ ⟨0b00010000000000000000#20, .int 0x0A⟩ = .ok (.wrMbc3Ramen 0x0000#16 0x0A) ∧
    decode ⟨.mbc3, true⟩ ⟨0b00010011111111111111#20, .int 0x85⟩ = .ok (.wrMbc3Romb 0x3FFF#16 0x85) ∧
    decode ⟨.mbc3, true⟩ ⟨0b00010100000000000000#20, .int 0x0A⟩ = .ok (.wrMbc3Ramen2 0x4000#16 0x0A) ∧
    decode ⟨.mbc3, true⟩ ⟨0b00010110000000000000#20, .int 0x07⟩ = .ok (.wrMbc3Ramb 0x6000#16 0x07) := by decide

theorem test_decode_ram_writes :
    decode ⟨.none, true⟩ ⟨0b00011001100000000000#20, .int 1⟩ = .ok (.wrVram 0x9800#16 1) ∧
    decode ⟨.none, true⟩ ⟨0b00011011111111111111#20, .int 1⟩ = .ok (.wrEramNone 0xBFFF#16 1) ∧
    decode ⟨.mbc1, true⟩ ⟨0b00011010000000000000#20, .int 1⟩ = .ok (.wrEramMbc1 0xA000#16 1) ∧
    decode ⟨.mbc3, true⟩ ⟨0b00011010000000000000#20, .int 1⟩ = .ok (.wrEramMbc3 0xA000#16 1) ∧
    decode ⟨.none, true⟩ ⟨0b00011100000000000000#20, .int 1⟩ = .ok (.wrWram 0xC000#16 1) ∧
    decode ⟨.none, true⟩ ⟨0b00011110000000000000#20, .int 1⟩ = .ok (.wrEchoE000 0xE000#16 1) ∧
    decode ⟨.none, true⟩ ⟨0b00011111011111111111#20, .int 1⟩ = .ok (.wrEchoF000 0xF7FF#16 1) ∧
    decode ⟨.none, true⟩ ⟨0b00011111101111111111#20, .int 1⟩ = .ok (.wrEchoF800 0xFBFF#16 1) ∧
    decode ⟨.none, true⟩ ⟨0b00011111110111111111#20, .int 1⟩ = .ok (.wrEchoFc00 0xFDFF#16 1) := by decide

theorem test_decode_high_writes :
    decode ⟨.none, true⟩ ⟨0b00011111111001111111#20, .int 1⟩ = .ok (.wrOamFe00 0xFE7F#16 1) ∧
    decode ⟨.none, true⟩ ⟨0b00011111111010000000#20, .int 1⟩ = .ok (.wrOamFe80 0xFE80#16 1) ∧
    decode ⟨.none, true⟩ ⟨0b00011111111010111111#20, .int 300⟩ = .ok (.wrGapFea0 0xFEBF#16 300) ∧
    decode ⟨.none, true⟩ ⟨0b00011111111011000000#20, .int 0⟩ = .ok (.wrGapFec0 0xFEC0#16 0) ∧
    decode ⟨.none, true⟩ ⟨0b00011111111100000111#20, .int 5⟩ = .ok (.wrIoTac 5) ∧
    decode ⟨.none, true⟩ ⟨0b00011111111101000110#20, .int 0xC0⟩ = .ok (.wrIoDma 0xC0) ∧
    decode ⟨.none, true⟩ ⟨0b00011111111101010000#20, .int (-1)⟩ = .ok (.wrIoBootoff (-1)) ∧
    decode ⟨.none, true⟩ ⟨0b00011111111100000100#20, .int 0x55⟩ = .ok (.wrIo 0xFF04#16 0x55) ∧
    decode ⟨.none, true⟩ ⟨0b00011111111110000000#20, .int 0x3C⟩ = .ok (.wrHram 0xFF80#16 0x3C) := by decide

theorem test_decode_commands :
    decode ⟨.none, true⟩ ⟨0b00100000000000000000#20, .int 4⟩ = .ok (.sysStep 4) ∧
    decode ⟨.none, true⟩ ⟨0b00110000000000000000#20, .int 162⟩ = .ok (.busStep 162) ∧
    decode ⟨.none, true⟩ ⟨0b01000000000000000000#20, .int 456⟩ = .ok (.ppuStep 456) ∧
    decode ⟨.none, true⟩ ⟨0b01010000000000000000#20, .int 0⟩ = .ok (.timerTick 0) ∧
    decode ⟨.none, true⟩ ⟨0b01100000000000000000#20, .int 1⟩ = .ok (.setBootOverlay true) ∧
    decode ⟨.none, true⟩ ⟨0b01110000000000000000#20, .none⟩ = .ok .irqRead ∧
    decode ⟨.none, true⟩ ⟨0b10000000000000000000#20, .int 31⟩ = .ok (.irqClear 0b11111#5) ∧
    decode ⟨.none, true⟩ ⟨0b10010000000000000000#20, .int 4⟩ = .ok (.irqRaise .joypad) ∧
    decode ⟨.none, true⟩ ⟨0b10100000000000000000#20, .pair 1 16⟩ = .ok (.timerConfigure true 16) ∧
    decode ⟨.none, true⟩ ⟨0b10110000000000000000#20, .none⟩ = .ok .ramExport ∧
    decode ⟨.none, true⟩ ⟨0b11000000000000000000#20, .list [0, 255]⟩ = .ok (.ramImport [0x00#8, 0xFF#8]) ∧
    decode ⟨.none, true⟩ ⟨0b11010000000000000000#20, .none⟩ = .ok .frameRead ∧
    decode ⟨.none, true⟩ ⟨0b11100000000000000001#20, .int 9⟩ = .ok (.setButtons 0x0001#16 (.int 9)) ∧
    decode ⟨.none, true⟩ ⟨0b11110000000000000000#20, .none⟩ = .ok (.reserved 0x0000#16 .none) := by decide

/-- Refusals of the word and of the operand (R83, R84). -/
theorem test_decode_refusals :
    decode ⟨.none, true⟩ ⟨0x70001#20, .none⟩ = .error .nonzeroAddrField ∧
    decode ⟨.none, true⟩ ⟨0x60000#20, .int 2⟩ = .error .badOperand ∧
    decode ⟨.none, true⟩ ⟨0x80000#20, .int 32⟩ = .error .badOperand ∧
    decode ⟨.none, true⟩ ⟨0x90000#20, .int 5⟩ = .error .badOperand ∧
    decode ⟨.none, true⟩ ⟨0x20000#20, .int (-1)⟩ = .error .badOperand ∧
    decode ⟨.none, true⟩ ⟨0xC0000#20, .list [256]⟩ = .error .badOperand := by decide

/-! ## One step -/

/-- The state a meaning gives. -/
def after (i : Instr) (s : State) : State :=
  match exec i s with
  | .next t => t
  | .fault _ => s
  | .refused _ => s

/-- The reset state with the overlay off. -/
def bare : State := State.reset.withBootEnabled false

/-- An MBC1 machine, and an MBC3 one, with the overlay off. -/
def mbc1 : State := { bare with variant := .mbc1 }

def mbc3 : State := { bare with variant := .mbc3 }

/-- B1, B3: the overlay, and address 0x0100 beyond it. -/
theorem test_rdBoot : (after (.rdBoot 0x0000#16) { State.reset with boot := [(0, 0x31#8)] }).reply =
    some (.byte 0x31#8) := by decide

theorem test_rdRom0 : (after (.rdRom0 0x0100#16) { State.reset with rom := [(0x100, 0x5C#8)] }).reply =
    some (.byte 0x5C#8) := by decide

/-- The example of R104. -/
theorem test_rdRomx : (after (.rdRomx 0x4001#16)
    { mbc1 with romBank := 5#7, romLen := 0x18000, rom := [(0x14001, 0x0F#8)] }).reply = some (.byte 0x0F#8) := by decide

/-- B8, B9: the mirror. -/
theorem test_echo_writes_wram : (after (.wrEchoE000 0xE123#16 0x5A) bare).wram = [(0x123, 0x5A#8)] := by decide

theorem test_echo_reads_wram : (after (.rdEchoFc00 0xFDFF#16) { bare with wram := [(0x1DFF, 0x01#8)] }).reply =
    some (.byte 0x01#8) := by decide

/-- B11. -/
theorem test_oam_write : (after (.wrOamFe80 0xFE9F#16 0x07) bare).oam = [(0x9F, 0x07#8)] := by decide

/-- B12, B13, B14: the gap and the value check. -/
theorem test_gap_write : (after (.wrGapFea0 0xFEA0#16 0) bare).fault =
    some (.invalidAddress 0xFEA0#16 .write) := by decide

theorem test_gap_write_value_first : (after (.wrGapFea0 0xFEA0#16 300) bare).fault =
    some (.valueOutOfRange 300) := by decide

theorem test_wram_write_negative : (after (.wrWram 0xC000#16 (-1)) bare).fault = some (.valueOutOfRange (-1)) := by
  decide

/-- S6, R301: the first fault is kept. -/
theorem test_second_fault : (after (.rdGapFec0 0xFEFF#16) (after (.wrWram 0xC000#16 (-1)) bare)).fault =
    some (.valueOutOfRange (-1)) := by decide

/-- B20, B21. -/
theorem test_bootoff : (after (.wrIoBootoff 0) State.reset).bootEnabled = false := by decide

theorem test_dma_trigger : (after (.wrIoDma 0xC0) bare).dma = [⟨0xC0#8, 0⟩] := by decide

/-- The example of R124. -/
theorem test_tac : ((after (.wrIoTac 5) bare).tEnabled, (after (.wrIoTac 5) bare).tDivisor) = (true, 16) := by decide

/-- The examples of R150 and R151, and K5. -/
theorem test_mbc1_romlo : (after (.wrMbc1Romlo 0x2000#16 0xE3) (mbc1.withRomBank 0x41#7)).romBank = 0x43#7 := by decide

theorem test_mbc1_romlo_bump : (after (.wrMbc1Romlo 0x2000#16 0xE0) (mbc1.withRomBank 0x7F#7)).romBank = 0x61#7 := by
  decide

theorem test_mbc1_hi : (after (.wrMbc1Hi 0x4000#16 0x02) mbc1).romBank = 0x41#7 := by decide

/-- K7: in RAM banking mode. -/
theorem test_mbc1_hi_ram_mode :
    ((after (.wrMbc1Hi 0x4000#16 3) { mbc1 with mbc1Mode := .ram, romBank := 0x21#7 }).ramBank,
      (after (.wrMbc1Hi 0x4000#16 3) { mbc1 with mbc1Mode := .ram, romBank := 0x21#7 }).romBank) = (3#2, 0x21#7) := by
  decide

/-- K8: bit 0 of 0x02 is 0. -/
theorem test_mbc1_mode : (after (.wrMbc1Mode 0x6000#16 2) { mbc1 with mbc1Mode := .ram }).mbc1Mode = .highRom := by
  decide

/-- K2, K3, K11, K13. -/
theorem test_mbc1_ramen : (after (.wrMbc1Ramen 0x1FFF#16 0xFA) mbc1).ramEnabled = true := by decide

theorem test_mbc3_ramen : (after (.wrMbc3Ramen 0x0000#16 0x05) { mbc3 with ramEnabled := true }).ramEnabled = false := by
  decide

theorem test_mbc3_ramen2 : (after (.wrMbc3Ramen2 0x4000#16 0x08) { mbc3 with ramEnabled := true }).ramEnabled = false := by
  decide

/-- S4. -/
theorem test_mbc3_romb : ((after (.wrMbc3Romb 0x3FFF#16 0x85) mbc3).romBank,
    (after (.wrMbc3Romb 0x2000#16 0x80) mbc3).romBank) = (5#7, 1#7) := by decide

/-- K14. -/
theorem test_mbc3_ramb : (after (.wrMbc3Ramb 0x6000#16 0x0B) mbc3).ramBank = 3#2 := by decide

/-- K9: disabled external RAM. -/
theorem test_eram_disabled_read : (after (.rdEramMbc1 0xA000#16) { mbc1 with eram := [(0, 0x77#8)] }).reply =
    some (.byte 0xFF#8) := by decide

theorem test_eram_disabled_write : ((after (.wrEramMbc1 0xA000#16 0x77) mbc1).eram,
    (after (.wrEramMbc1 0xA000#16 0x77) mbc1).events) = ([], []) := by decide

/-- K15: the store of bank 2 and its event. -/
theorem test_eram_write : (after (.wrEramMbc3 0xA010#16 0x5E) { mbc3 with ramEnabled := true, ramBank := 2#2 }).eram =
    [(0x4010, 0x5E#8)] := by decide

theorem test_eram_event : (after (.wrEramMbc3 0xA010#16 0x5E) { mbc3 with ramEnabled := true, ramBank := 2#2 }).events =
    [⟨2, 0x10, 0x5E#8⟩] := by decide

/-- M2: byte 0 lands at the third cycle of the default schedule, and not before. -/
theorem test_dma_lands : (after (.busStep 1) { bare with wram := [(0, 0x11#8)], dma := [⟨0xC0#8, 2⟩] }).oam =
    [(0, 0x11#8)] := by decide +kernel

theorem test_dma_waits : (after (.busStep 1) { bare with wram := [(0, 0x11#8)], dma := [⟨0xC0#8, 1⟩] }).oam =
    [] := by decide +kernel

/-- S2: the last byte lands at cycle 162, and the transfer is gone. -/
theorem test_dma_completes : ((after (.busStep 1) { bare with wram := [(0x9F, 0xAF#8)], dma := [⟨0xC0#8, 161⟩] }).oam,
    (after (.busStep 1) { bare with wram := [(0x9F, 0xAF#8)], dma := [⟨0xC0#8, 161⟩] }).dma) =
    ([(0x9F, 0xAF#8)], []) := by decide +kernel

/-- T6 and T11: an overflow reloads TMA and raises TIMER. -/
theorem test_tima_overflow : ((after (.timerTick 1)
      { bare with tEnabled := true, tDivisor := 1, io := [(5, 0xFF#8), (6, 0x20#8)] }).io,
    (after (.timerTick 1) { bare with tEnabled := true, tDivisor := 1, io := [(5, 0xFF#8), (6, 0x20#8)] }).irq) =
    ([(5, 0x20#8), (6, 0x20#8)], 0b00100#5) := by decide

/-- S10: DIV wraps at the 256th cycle, disabled or not. -/
theorem test_div : (after (.timerTick 1) { bare with tcount := 255#10, io := [(4, 0xFF#8)] }).io = [] := by decide

/-- P1, P2: the transition at exactly 80 cycles. -/
theorem test_ppu_80 : ((after (.ppuStep 80) bare).ppuMode, (after (.ppuStep 80) bare).ppuElapsed,
    (after (.ppuStep 79) bare).ppuMode, (after (.ppuStep 79) bare).ppuElapsed) = (.vramRead, 0, .oamRead, 79) := by decide

/-- S8: the end of line 143. -/
theorem test_vblank : ((after (.ppuStep 1) { bare with ppuMode := .hblank, ppuElapsed := 203, ppuLine := 143 }).irq,
    (after (.ppuStep 1) { bare with ppuMode := .hblank, ppuElapsed := 203, ppuLine := 143 }).frontSeq,
    (after (.ppuStep 1) { bare with ppuMode := .hblank, ppuElapsed := 203, ppuLine := 143 }).io) =
    (0b00001#5, 1, [(0x44, 144#8)]) := by decide

/-- P6: LY inside VBLANK. -/
theorem test_ly : ((after (.ppuStep 0) { bare with ppuMode := .vblank, ppuElapsed := 6567, ppuLine := 144 }).io,
    (after (.ppuStep 0) { bare with ppuMode := .vblank, ppuElapsed := 65663, ppuLine := 144 }).io) =
    ([(0x44, 145#8)], [(0x44, 153#8)]) := by decide

/-- PX1: tile 1's first row, pixels 0 and 1, in unsigned tile addressing. -/
theorem test_render : (renderPixel 0 0 { bare with io := [(0x40, 0x10#8)], vram := [(0x10, 0x3C#8), (0x11, 0x7E#8), (0x1800, 1#8)] },
    renderPixel 0 1 { bare with io := [(0x40, 0x10#8)], vram := [(0x10, 0x3C#8), (0x11, 0x7E#8), (0x1800, 1#8)] },
    renderPixel 0 2 { bare with io := [(0x40, 0x10#8)], vram := [(0x10, 0x3C#8), (0x11, 0x7E#8), (0x1800, 1#8)] }) =
    (0#2, 2#2, 3#2) := by decide

/-- PX2: signed tile addressing, index 0x80 at 0x8800. -/
theorem test_render_signed : renderPixel 0 8 { bare with vram := [(0x801, 0xFF#8), (0x1801, 0x80#8)] } = 2#2 := by decide

/-- IH2: two flags pending. -/
theorem test_irqRead : (after .irqRead (bare.withIrq 0b00101#5)).reply = some (.irq 0b00101#5 (some .vblank)) := by decide

/-- The examples of R273 and R274. -/
theorem test_irqClear : (after (.irqClear 0b00001#5) (bare.withIrq 0b00101#5)).irq = 0b00100#5 := by decide

theorem test_irqRaise : (after (.irqRaise .joypad) bare).irq = 0b10000#5 := by decide

/-- T7. -/
theorem test_timerConfigure_refused : (after (.timerConfigure true 3) bare).fault =
    some (.refused .badOperand 0xA0000#20) := by decide

/-- K17, with a list of one byte. -/
theorem test_ramImport_size : (after (.ramImport [1#8]) mbc1).fault = some (.sizeMismatch .eram 1 (some 0x8000)) := by
  decide

/-- R278, R84. -/
theorem test_setButtons : (after (.setButtons 0x0000#16 (.int 1)) bare).fault =
    some (.refused .unmodelledButtons 0xE0000#20) := by decide

theorem test_reserved : (after (.reserved 0xFFFF#16 .none) bare).fault =
    some (.refused .reservedCmd 0xFFFFF#20) := by decide

/-- R276: with nothing in flight the timer part of a SYS_STEP is the same in every order. -/
theorem test_sysStep : (after (.sysStep 4) bare).tcount = 4#10 := by
  show (sysStepIn (Config.deviceOrder 0) 4 (bare.withSysSteps 1)).tcount = 4#10
  generalize Config.deviceOrder 0 = o
  cases o <;> decide

/-- A step takes one transaction from the queue and refuses a bad word (R83). -/
theorem test_step_refuses : (match step (bare.withInbox [⟨0x70001#20, .none⟩]) with
    | .next t => (t.fault, t.inbox)
    | _ => (none, [])) = (some (.refused .nonzeroAddrField 0x70001#20), []) := by decide

/-! ## Witnesses: the hypotheses of each statement are met

One theorem for each statement that has hypotheses; the statements it leaves out (WordsDecodeToTheirRows,
BusAddressSelectsExactlyOneRow, EveryStepAnswersNext and the like) have none. -/

theorem legal_default : Config.defaultParams.Legal :=
  ⟨by decide +kernel, by decide +kernel, by decide +kernel, by decide +kernel, by decide⟩

/-- Machines that meet the invariant: of any variant, with the values of R38 but for the overlay, the transfers in flight
and the pending transactions. -/
theorem inv_machine (v : Variant) (b : Bool) (d : List Transfer) (ts : List Txn) (h : ∀ e ∈ d, e.elapsed < 162) :
    ({ State.reset with variant := v, bootEnabled := b, dma := d, inbox := ts } : State).Inv where
  params := legal_default
  image := (by cases v <;> decide : imageFits v 0x8000 = true)
  boot := ⟨⟨.nil, nofun⟩, nofun⟩
  rom := ⟨⟨.nil, nofun⟩, nofun⟩
  vram := ⟨⟨.nil, nofun⟩, nofun⟩
  eram := ⟨⟨.nil, nofun⟩, nofun⟩
  wram := ⟨⟨.nil, nofun⟩, nofun⟩
  oam := ⟨⟨.nil, nofun⟩, nofun⟩
  io := ⟨⟨.nil, nofun⟩, nofun⟩
  hram := ⟨⟨.nil, nofun⟩, nofun⟩
  mbc1Bank := fun _ => (by decide : (0x01#7 &&& 0x1F#7) ≠ 0#7)
  mbc3Bank := fun _ => (by decide : (0x01#7 : BitVec 7) ≠ 0#7)
  dma := h
  ppuElapsed := (by decide : 0 < 80)
  ppuVisible := fun _ => (by decide : 0 ≤ 143)
  ppuVblank := fun e => nomatch e
  divisor := rfl

theorem inv_queued (ts : List Txn) : (State.reset.withInbox ts).Inv := inv_machine .none true [] ts nofun

theorem inv_mbc1 (ts : List Txn) : (mbc1.withInbox ts).Inv := inv_machine .mbc1 false [] ts nofun

theorem inv_dma (d : List Transfer) (h : ∀ e ∈ d, e.elapsed < 162) : (mbc3.withDma d).Inv :=
  inv_machine .mbc3 false d [] h

theorem witness_DecodeOfEncodeIsTheInstruction :
    (Instr.wrEramMbc3 0xBFFF#16 255).wellFormed = true ∧
      (Instr.wrEramMbc3 0xBFFF#16 255).selectedIn ⟨.mbc3, true⟩ = true ∧
    (Instr.rdRom0 0x0000#16).wellFormed = true ∧ (Instr.rdRom0 0x0000#16).selectedIn ⟨.none, false⟩ = true ∧
    (Instr.ramImport [0#8]).wellFormed = true ∧ (Instr.ramImport [0#8]).selectedIn ⟨.none, true⟩ = true := by decide

theorem witness_DecodedInstructionHasItsTransaction :
    decode ⟨.mbc1, false⟩ ⟨0x17FFF#20, .int 255⟩ = .ok (.wrMbc1Mode 0x7FFF#16 255) := by decide

theorem witness_BusAddressSelectsExactlyOneRow :
    decode ⟨.none, true⟩ ⟨mkWord 0x0#4 0x00FF#16, .none⟩ = .ok (.rdBoot 0x00FF#16) ∧
    decode ⟨.none, true⟩ ⟨mkWord 0x1#4 0x0100#16, .int 0⟩ = .ok (.wrRomNone 0x0100#16 0) := by decide

theorem witness_StepPerformsTheNextTransaction :
    ((bare.withInbox [⟨0x70000#20, .none⟩]).inbox = ⟨0x70000#20, .none⟩ :: [] ∧
      decode bare.mode ⟨0x70000#20, .none⟩ = .ok .irqRead) ∧ bare.inbox = [] := by decide

theorem witness_RefusedTransactionsRecordTheirReason :
    ((⟨0xFFFFF#20, .none⟩ : Txn).cmd = 0xF#4) ∧ ((⟨0xE0000#20, .int 3⟩ : Txn).cmd = 0xE#4) ∧
    (2 ≤ (⟨0x20001#20, .int 1⟩ : Txn).cmd.toNat ∧ (⟨0xDFFFF#20, .none⟩ : Txn).cmd.toNat ≤ 0xD ∧
      (⟨0x20001#20, .int 1⟩ : Txn).addr ≠ 0x0000#16 ∧ (⟨0xDFFFF#20, .none⟩ : Txn).addr ≠ 0x0000#16) ∧
    ((⟨0x0C000#20, .int 1⟩ : Txn).cmd.toNat < 2 ∧ ¬ OperandFits 0 (.int 1)) ∧
    ((⟨0x60000#20, .int 2⟩ : Txn).cmd.toNat ≤ 0xD ∧ (⟨0x60000#20, .int 2⟩ : Txn).addr = 0x0000#16 ∧
      ¬ OperandFits 6 (.int 2)) := by
  refine ⟨by decide, by decide, by decide, ⟨by decide, ?_⟩, by decide, by decide, ?_⟩ <;> simp [OperandFits]

theorem witness_NothingElseIsRefused :
    ∃ t, step (bare.withInbox [⟨0xA0000#20, .pair 1 3⟩]) = .next t ∧
      t.reply = some (.fault (.refused .badOperand 0xA0000#20)) := ⟨_, rfl, rfl⟩

theorem witness_FaultChangesOnlyTheFaultRecord :
    ∃ t, step (bare.withInbox [⟨0x0FEA0#20, .none⟩]) = .next t ∧
      t.reply = some (.fault (.invalidAddress 0xFEA0#16 .read)) := ⟨_, rfl, rfl⟩

theorem witness_FirstFaultIsKept :
    (∃ t, step (bare.withInbox [⟨0x0FEA0#20, .none⟩]) = .next t ∧ bare.fault = none ∧
      t.fault = some (.invalidAddress 0xFEA0#16 .read)) ∧
    (∃ t, step ((bare.withFault (some (.valueOutOfRange 300))).withInbox [⟨0x0FEA0#20, .none⟩]) = .next t ∧
      (bare.withFault (some (.valueOutOfRange 300))).fault = some (.valueOutOfRange 300)) :=
  ⟨⟨_, rfl, rfl, rfl⟩, _, rfl, rfl⟩

theorem witness_WriteValueOutsideByteFaults : ¬ ByteValue (-1) ∧ ¬ ByteValue 256 := by
  unfold ByteValue; decide

theorem byteValue_ends : ByteValue 0 ∧ ByteValue 255 := by unfold ByteValue; decide

theorem witness_GapAccessFaults :
    ByteValue 0 ∧ ByteValue 255 ∧ InRange 0xFEA0 0xFEFF 0xFEA0#16 ∧ InRange 0xFEA0 0xFEFF 0xFEBF#16 ∧
      InRange 0xFEA0 0xFEFF 0xFEC0#16 ∧ InRange 0xFEA0 0xFEFF 0xFEFF#16 := by unfold ByteValue InRange; decide

theorem witness_PlainReadsReturnTheStoredByte :
    (State.reset.bootEnabled = true ∧ InRange 0x0000 0x00FF 0x0000#16 ∧ InRange 0x0000 0x00FF 0x00FF#16) ∧
    (InRange 0x8000 0x9FFF 0x8000#16 ∧ InRange 0x8000 0x9FFF 0x9FFF#16) ∧
    (InRange 0xC000 0xDFFF 0xC000#16 ∧ InRange 0xC000 0xDFFF 0xDFFF#16) ∧
    (InRange 0xFE00 0xFE7F 0xFE00#16 ∧ InRange 0xFE00 0xFE7F 0xFE7F#16) ∧
    (InRange 0xFE80 0xFE9F 0xFE80#16 ∧ InRange 0xFE80 0xFE9F 0xFE9F#16) ∧
    (InRange 0xFF00 0xFF7F 0xFF00#16 ∧ InRange 0xFF00 0xFF7F 0xFF7F#16) ∧
    (InRange 0xFF80 0xFFFF 0xFF80#16 ∧ InRange 0xFF80 0xFFFF 0xFFFF#16) := by unfold InRange; decide

theorem witness_MirrorReadsWorkingMemory :
    InRange 0xE000 0xFDFF 0xE000#16 ∧ InRange 0xE000 0xFDFF 0xEFFF#16 ∧ InRange 0xE000 0xFDFF 0xF000#16 ∧
      InRange 0xE000 0xFDFF 0xFBFF#16 ∧ InRange 0xE000 0xFDFF 0xFDFF#16 := by unfold InRange; decide

theorem witness_RomReadsReturnTheSelectedBank :
    (InRange 0x0000 0x3FFF 0x0000#16 ∧ bare.bootEnabled = false ∧ (0x0000#16 : Addr).toNat < bare.romLen) ∧
    (InRange 0x0000 0x3FFF 0x3FFF#16 ∧ 0x0100 ≤ (0x3FFF#16 : Addr).toNat ∧
      ({ bare with romLen := 0x3FFF } : State).romLen ≤ (0x3FFF#16 : Addr).toNat) ∧
    (InRange 0x4000 0x7FFF 0x4000#16 ∧ 1 * 0x4000 + ((0x4000#16 : Addr).toNat - 0x4000) < bare.romLen) ∧
    (InRange 0x4000 0x7FFF 0x7FFF#16 ∧ bare.romLen ≤ 2 * 0x4000 + ((0x7FFF#16 : Addr).toNat - 0x4000)) := by
  unfold InRange; decide

theorem witness_ExternalRamReadsAreGated :
    (InRange 0xA000 0xBFFF 0xA000#16 ∧ InRange 0xA000 0xBFFF 0xBFFF#16) ∧ bare.variant = .none ∧ mbc1.variant = .mbc1 ∧
      mbc3.variant = .mbc3 := by unfold InRange; decide

theorem witness_BusReadsHaveNoSideEffect :
    ¬ InRange 0xFEA0 0xFEFF 0x0000#16 ∧ ¬ InRange 0xFEA0 0xFEFF 0xFE9F#16 ∧ ¬ InRange 0xFEA0 0xFEFF 0xFF00#16 ∧
      ¬ InRange 0xFEA0 0xFEFF 0xFFFF#16 := by unfold InRange; decide

theorem witness_PlainWritesStoreOneByte :
    (ByteValue 0 ∧ ByteValue 255) ∧
    (InRange 0x8000 0x9FFF 0x8000#16 ∧ InRange 0x8000 0x9FFF 0x9FFF#16) ∧
    (InRange 0xC000 0xDFFF 0xC000#16 ∧ InRange 0xC000 0xDFFF 0xDFFF#16) ∧
    (InRange 0xFE00 0xFE7F 0xFE00#16 ∧ InRange 0xFE80 0xFE9F 0xFE9F#16) ∧
    (InRange 0xFF00 0xFF7F 0xFF00#16 ∧ (0xFF00#16 : Addr) ≠ 0xFF07#16 ∧ (0xFF00#16 : Addr) ≠ 0xFF46#16 ∧
      (0xFF00#16 : Addr) ≠ 0xFF50#16) ∧
    (InRange 0xFF00 0xFF7F 0xFF7F#16 ∧ (0xFF7F#16 : Addr) ≠ 0xFF07#16 ∧ (0xFF7F#16 : Addr) ≠ 0xFF46#16 ∧
      (0xFF7F#16 : Addr) ≠ 0xFF50#16) ∧
    (InRange 0xFF80 0xFFFF 0xFF80#16 ∧ InRange 0xFF80 0xFFFF 0xFFFF#16) := by unfold ByteValue InRange; decide

theorem witness_MirrorWritesWorkingMemory :
    ByteValue 255 ∧ InRange 0xE000 0xFDFF 0xE000#16 ∧ InRange 0xE000 0xFDFF 0xF800#16 ∧
      InRange 0xE000 0xFDFF 0xFDFF#16 := by unfold ByteValue InRange; decide

theorem witness_OverlayAndFixedRomWritesAreIgnored :
    (ByteValue 0 ∧ ByteValue 255) ∧ (State.reset.bootEnabled = true ∧ InRange 0x0000 0x00FF 0x00FF#16) ∧
    (State.reset.variant = .none ∧ InRange 0x0000 0x7FFF 0x0100#16 ∧ 0x0100 ≤ (0x0100#16 : Addr).toNat) ∧
    (bare.variant = .none ∧ InRange 0x0000 0x7FFF 0x0000#16 ∧ bare.bootEnabled = false) ∧
    InRange 0x0000 0x7FFF 0x7FFF#16 := by unfold ByteValue InRange; decide

theorem witness_RamEnableWrites :
    (ByteValue 0x0A ∧ ByteValue 0xFA ∧ ByteValue 0) ∧
    (InRange 0x0000 0x1FFF 0x0000#16 ∧ InRange 0x0000 0x1FFF 0x1FFF#16 ∧ mbc1.bootEnabled = false ∧
      mbc1.variant = .mbc1 ∧ mbc3.variant = .mbc3 ∧ 0x0100 ≤ (0x0100#16 : Addr).toNat) ∧
    (InRange 0x4000 0x5FFF 0x4000#16 ∧ InRange 0x4000 0x5FFF 0x5FFF#16) := by unfold ByteValue InRange; decide

theorem witness_Mbc1BankWrites :
    (ByteValue 0 ∧ ByteValue 255 ∧ mbc1.variant = .mbc1) ∧
    (InRange 0x2000 0x3FFF 0x2000#16 ∧ InRange 0x2000 0x3FFF 0x3FFF#16) ∧
    (InRange 0x4000 0x5FFF 0x4000#16 ∧ InRange 0x4000 0x5FFF 0x5FFF#16 ∧ mbc1.mbc1Mode = .highRom ∧
      (mbc1.withMbc1Mode .ram).mbc1Mode = .ram) ∧
    (InRange 0x6000 0x7FFF 0x6000#16 ∧ InRange 0x6000 0x7FFF 0x7FFF#16) := by unfold ByteValue InRange; decide

theorem witness_Mbc3BankWrites :
    (ByteValue 0x80 ∧ ByteValue 255 ∧ mbc3.variant = .mbc3) ∧
    (InRange 0x2000 0x3FFF 0x2000#16 ∧ InRange 0x2000 0x3FFF 0x3FFF#16) ∧
    (InRange 0x6000 0x7FFF 0x6000#16 ∧ InRange 0x6000 0x7FFF 0x7FFF#16) := by unfold ByteValue InRange; decide

theorem witness_ExternalRamWritesStoreAndEmit :
    (ByteValue 255 ∧ InRange 0xA000 0xBFFF 0xA000#16 ∧ InRange 0xA000 0xBFFF 0xBFFF#16) ∧ bare.variant = .none ∧
    (mbc1.variant = .mbc1 ∧ mbc1.ramEnabled = false ∧ (mbc1.withRamEnabled true).ramEnabled = true) ∧
    (mbc3.variant = .mbc3 ∧ mbc3.ramEnabled = false ∧ (mbc3.withRamEnabled true).ramEnabled = true) := by
  unfold ByteValue InRange; decide

theorem witness_IoWritesWithSideEffects : ByteValue 0 ∧ ByteValue 255 := byteValue_ends

theorem witness_HostCommandEffects :
    PowerOfTwoTo1024 1 ∧ PowerOfTwoTo1024 1024 ∧ ¬ PowerOfTwoTo1024 0 ∧ ¬ PowerOfTwoTo1024 3 ∧
      ¬ PowerOfTwoTo1024 2048 := by
  refine ⟨⟨0, by decide, rfl⟩, ⟨10, by decide, rfl⟩, ?_, ?_, ?_⟩ <;>
    (rintro ⟨k, hk, h⟩; interval_cases k <;> omega)

theorem witness_RamExportIsTheBanksInOrder :
    0 < Config.ramBanks bare.variant ∧ 3 < Config.ramBanks mbc1.variant ∧ 0x1FFF < 0x2000 := by decide

theorem witness_RamImportReplacesEveryBank :
    [1#8].length ≠ Config.ramBanks mbc1.variant * 0x2000 ∧
      (List.replicate 0x2000 (1#8 : Byte)).length = Config.ramBanks bare.variant * 0x2000 :=
  ⟨by decide, by rw [List.length_replicate]; rfl⟩

theorem witness_RamExportImportRoundTrip :
    (mbc1.withInbox []).Inv ∧ mbc1.variant = (mbc1.withInbox []).variant ∧
      ∃ bytes t, exec .ramExport (mbc1.withInbox []) = .next ((mbc1.withInbox []).withReply (.ram bytes)) ∧
        exec (.ramImport bytes) mbc1 = .next t := by
  refine ⟨inv_mbc1 [], rfl, exportedRam (mbc1.withInbox []), ?_⟩
  have h : ∃ t, execRamImport (exportedRam (mbc1.withInbox [])) mbc1 = .next t := by
    unfold execRamImport
    split
    · exact ⟨_, rfl⟩
    · exact ⟨_, rfl⟩
  obtain ⟨t, ht⟩ := h
  exact ⟨t, rfl, ht⟩

theorem witness_BusStepAdvancesTransfersAndWritesOnlyOam :
    ∀ e ∈ (bare.withDma [⟨0xC0#8, 161⟩, ⟨0xFF#8, 0⟩]).dma, e.elapsed < 162 := by decide

theorem witness_BusAndTimerStepsSplit :
    (∃ t u, exec (.busStep 100) bare = .next t ∧ exec (.busStep 62) t = .next u) ∧
    ∃ t u, exec (.timerTick 123) bare = .next t ∧ exec (.timerTick 177) t = .next u :=
  ⟨⟨_, _, rfl, rfl⟩, _, _, rfl, rfl⟩

theorem witness_DmaSourceReadsNeverFault : 0 < 0xA0 ∧ 0x9F < 0xA0 := by decide

/-- A transfer from page 0x00 of a machine whose image is empty: every source byte is a fresh draw. -/
theorem memRead_drawn {i : Nat} (h : i < 0xA0) (n : Nat) (d : List Transfer) :
    memRead (dmaSource 0x00#8 i) ((({ bare with romLen := 0 } : State).withDma d).withDraws n) =
      .ok (Config.romFill n, (({ bare with romLen := 0 } : State).withDma d).withDraws (n + 1)) := by
  have e : (dmaSource 0x00#8 i).toNat = i := (dmaSource_toNat 0x00#8 h).trans (Nat.zero_add i)
  have hw : window (dmaSource 0x00#8 i) = .rom0 := by unfold window; rw [e, if_pos (by omega)]
  unfold memRead
  rw [hw]
  show readRom0 _ _ = _
  unfold readRom0
  rw [regionRead_ok (by
    show _ < 0x4000
    simp only [Window.offset, Window.start, e]; omega)]
  rfl

theorem witness_TransferLandsByScheduleAndCompletesAt162 :
    ((bare.withDma [⟨0xC1#8, 161⟩, ⟨0xDF#8, 0⟩]).params.Legal ∧ (∀ e ∈ [(⟨0xC1#8, 161⟩ : Transfer)], e.elapsed < 162) ∧
      (bare.withDma [⟨0xC1#8, 161⟩, ⟨0xDF#8, 0⟩]).dma = [⟨0xC1#8, 161⟩] ++ [⟨0xDF#8, 0⟩] ∧ 161 ≤ 162 ∧
      (∀ i, i < 0xA0 → memRead (dmaSource 0xDF#8 i) (bare.withDma [⟨0xC1#8, 161⟩, ⟨0xDF#8, 0⟩]) =
        .ok (bare.wram.read (0xDF * 0x100 + i - 0xC000), bare.withDma [⟨0xC1#8, 161⟩, ⟨0xDF#8, 0⟩])) ∧
      (0xDF#8 : Byte) ≠ 0xFE#8) ∧
    ((bare.withDma [⟨0xC0#8, 0⟩]).dma = [] ++ [⟨0xC0#8, 0⟩] ∧ bare.params.landAt 0 = 3 ∧ bare.params.landAt 0x9F = 162) ∧
    (bare.withDma [⟨0xC0#8, 0⟩, ⟨0xFE#8, 0⟩]).dma = [⟨0xC0#8, 0⟩] ++ [⟨0xFE#8, 0⟩] ∧
    (∀ i, i < 0xA0 → memRead (dmaSource 0x00#8 i)
        ((({ bare with romLen := 0 } : State).withDma [⟨0x00#8, 0⟩]).withDraws (0 + i)) =
      .ok (Config.romFill (0 + i), (({ bare with romLen := 0 } : State).withDma [⟨0x00#8, 0⟩]).withDraws (0 + (i + 1)))) ∧
    ({ dmaLand := Config.pageByPageLand, vblankCycles := 1, ramEn2 := .flip } : Params).Legal :=
  ⟨⟨legal_default, by decide, rfl, by decide, fun _ hi => memRead_dmaSource_wram _ _ hi (by decide) (by decide),
      by decide⟩, ⟨rfl, by decide +kernel, by decide +kernel⟩, rfl, fun i hi => memRead_drawn hi (0 + i) _,
    ⟨by decide +kernel, by decide +kernel, by decide +kernel, by decide +kernel, by decide⟩⟩

theorem witness_TimaCountsReloadsAndRaises :
    (({ bare with tEnabled := true, tDivisor := 1, io := [(5, 0xFF#8)] } : State).io.read 0x05 = 0xFF#8 ∧
      (0 + 1) % 1024 % 1 = 0) ∧
    bare.io.read 0x05 ≠ 0xFF#8 ∧ bare.tEnabled = false ∧ (bare.tcount.toNat + 1) % 1024 % 16 ≠ 0 := by decide

theorem witness_TimaOverManyCycles :
    bare.tEnabled = false ∧ (bare.withTimer true 16).tEnabled = true ∧ PowerOfTwoTo1024 (bare.withTimer true 16).tDivisor ∧
      (bare.io.read 0x05).toNat + ((0 + 4095) / 16 - 0 / 16) ≤ 255 :=
  ⟨rfl, rfl, ⟨4, by decide, rfl⟩, by decide⟩

theorem witness_LyRange :
    (State.reset.withInbox []).Inv ∧ ∃ t, exec (.ppuStep 0) (State.reset.withInbox []) = .next t :=
  ⟨inv_queued [], _, rfl⟩

theorem witness_ModeTransitionsAtTheirDurations :
    (bare.ppuElapsed + 79 < modeCycles bare.params bare.ppuMode) ∧
    (bare.ppuMode = .oamRead ∧ bare.ppuElapsed + 80 = 80) ∧
    ((bare.withPpu .vramRead 171 143).ppuMode = .vramRead ∧ (bare.withPpu .vramRead 171 143).ppuElapsed + 1 = 172) ∧
    ((bare.withPpu .hblank 203 142).ppuMode = .hblank ∧ (bare.withPpu .hblank 203 142).ppuElapsed + 1 = 204 ∧
      (bare.withPpu .hblank 203 142).ppuLine < 143) ∧
    ((bare.withPpu .hblank 0 143).ppuMode = .hblank ∧ (bare.withPpu .hblank 0 143).ppuElapsed + 204 = 204 ∧
      (bare.withPpu .hblank 0 143).ppuLine = 143 ∧ 0 < bare.params.vblankCycles) ∧
    ((bare.withPpu .vblank 65663 144).ppuMode = .vblank ∧
      (bare.withPpu .vblank 65663 144).ppuElapsed + 1 = bare.params.vblankCycles) := by decide

theorem witness_RenderedLineFollowsTheTileMap :
    (bare.withPpu .vramRead 171 143).ppuMode = .vramRead ∧ (bare.withPpu .vramRead 171 143).ppuElapsed + 1 = 172 ∧
      (bare.withPpu .vramRead 171 143).ppuLine ≤ 143 ∧ 159 < 160 := by decide

theorem witness_PpuStepSplits :
    (mbc1.withInbox []).Inv ∧ ∃ t u, exec (.ppuStep 3) (mbc1.withInbox []) = .next t ∧ exec (.ppuStep 5) t = .next u :=
  ⟨inv_mbc1 [], _, _, rfl, rfl⟩

theorem witness_OneLineTakes456Cycles :
    (bare.withPpu .oamRead 0 142).ppuMode = .oamRead ∧ (bare.withPpu .oamRead 0 142).ppuElapsed = 0 ∧
      (bare.withPpu .oamRead 0 142).ppuLine < 143 := by decide

theorem witness_OneFramePublishesOnce :
    0 < bare.params.vblankCycles ∧ bare.ppuMode = .oamRead ∧ bare.ppuElapsed = 0 ∧ bare.ppuLine = 0 := by decide

theorem witness_DeviceOrderIsObservableOnlyThroughPageFF :
    (mbc3.withDma [⟨0xFE#8, 161⟩, ⟨0x00#8, 0⟩]).Inv ∧
      ∀ e ∈ (mbc3.withDma [⟨0xFE#8, 161⟩, ⟨0x00#8, 0⟩]).dma, e.page ≠ 0xFF#8 :=
  ⟨inv_dma _ (by decide), by decide⟩

theorem witness_EveryStepKeepsTheInvariant :
    (mbc1.withInbox [⟨0x12000#20, .int 0⟩]).Inv ∧ ∃ t, step (mbc1.withInbox [⟨0x12000#20, .int 0⟩]) = .next t :=
  ⟨inv_mbc1 _, _, rfl⟩

theorem witness_CartridgeAndOverlayBytesNeverChange :
    ∃ t, step (State.reset.withInbox [⟨0x10000#20, .int 0x77⟩]) = .next t := ⟨_, rfl⟩

theorem witness_OnlyTheHostReenablesTheOverlay :
    (∃ t, step (State.reset.withInbox [⟨0x1FF50#20, .int 0⟩]) = .next t ∧
      t.bootEnabled ≠ (State.reset.withInbox [⟨0x1FF50#20, .int 0⟩]).bootEnabled) ∧
    ∃ t, step (bare.withInbox [⟨0x60000#20, .int 1⟩]) = .next t ∧
      t.bootEnabled ≠ (bare.withInbox [⟨0x60000#20, .int 1⟩]).bootEnabled :=
  ⟨⟨_, rfl, by decide⟩, _, rfl, by decide⟩

theorem witness_OnlyIrqClearClearsAFlag :
    ∃ t, step ((bare.withIrq 0b10000#5).withInbox [⟨0x80000#20, .int 31⟩]) = .next t ∧
      ((bare.withIrq 0b10000#5).withInbox [⟨0x80000#20, .int 31⟩]).irq.getLsbD 4 = true ∧ t.irq.getLsbD 4 = false :=
  ⟨_, rfl, by decide, by decide⟩

theorem witness_EventsComeFromExternalRamWrites :
    ∃ t, step (bare.withInbox [⟨0x1BFFF#20, .int 255⟩]) = .next t := by
  have h : (match step (bare.withInbox [⟨0x1BFFF#20, .int 255⟩]) with
      | .next t => t.events
      | _ => []) = [⟨0, 0x1FFF, 0xFF#8⟩] := by decide +kernel
  cases hs : step (bare.withInbox [⟨0x1BFFF#20, .int 255⟩]) with
  | next t => exact ⟨t, rfl⟩
  | fault f => rw [hs] at h; cases h
  | refused r => rw [hs] at h; cases h

theorem witness_Mbc1NeverSelectsBankZero :
    (mbc1.withInbox [⟨0x12000#20, .int 0x20⟩]).Inv ∧
      ∃ t, step (mbc1.withInbox [⟨0x12000#20, .int 0x20⟩]) = .next t ∧ t.variant = .mbc1 :=
  ⟨inv_mbc1 _, _, rfl, rfl⟩

/-- An MBC1 cartridge of two banks: header byte 1. -/
def image (t : Byte) (n : Nat) : List Byte := List.replicate 0x0147 0x00#8 ++ t :: List.replicate n 0x00#8

theorem image_length (t : Byte) (n : Nat) : (image t n).length = 0x0148 + n := by
  simp only [image, List.length_append, List.length_replicate, List.length_cons]; omega

theorem getD_after (k n : Nat) (t : Byte) :
    (List.replicate k 0x00#8 ++ t :: List.replicate n 0x00#8).getD k 0x00#8 = t := by
  simp [List.getD]

theorem image_header (t : Byte) (n : Nat) : (image t n).getD 0x0147 0x00#8 = t := getD_after 0x0147 n t

/-- Regions of the required lengths, with four external RAM banks. -/
def zeroInit : InitMem :=
  ⟨List.replicate 0x2000 0x00#8, List.replicate 0x2000 0x00#8, List.replicate 0xA0 0x00#8, List.replicate 0x80 0x00#8,
    List.replicate 0x80 0x00#8, List.replicate 0x8000 0x00#8⟩

theorem witness_ConstructionBuildsTheMachine :
    Config.defaultParams.Legal ∧
      ∃ s, construct Config.defaultParams [] (List.replicate 0x0100 0x00#8) (image 1#8 0x7EB8) zeroInit = .ok s := by
  refine ⟨legal_default, ?_⟩
  have hc : classifyCart [] ((image 1#8 0x7EB8).getD Config.headerTypeOffset 0x00#8) = .ok .mbc1 := by
    rw [show Config.headerTypeOffset = 0x0147 from rfl, image_header]; decide
  refine ⟨initialState Config.defaultParams .mbc1 (List.replicate 0x0100 0x00#8) (image 1#8 0x7EB8) zeroInit, ?_⟩
  have h1 : checkLen .boot 0x0100 Config.bootLen = .ok () := by decide
  have h2 : checkHeader (0x0148 + 0x7EB8) = .ok () := by decide
  have h4 : checkImage .mbc1 (0x0148 + 0x7EB8) = .ok () := by decide
  have h5 : checkRegions .mbc1 zeroInit = .ok () := by
    unfold checkRegions zeroInit
    simp only [List.length_replicate]
    decide
  unfold construct
  rw [image_length, List.length_replicate, h1, h2, hc]
  simp only [bind, Except.bind, h4, h5]
  rfl

theorem witness_ConstructionReportsTheFirstFailure :
    ([] : List Byte).length ≠ 0x0100 ∧ (List.replicate 0x0100 (0x00#8 : Byte)).length = 0x0100 ∧
    (([] : List Byte).length < 0x0148) ∧
    (0x0148 ≤ (image 4#8 0).length ∧ ¬ ((image 4#8 0).getD 0x0147 0x00#8).toNat ≤ 3 ∧
      ¬ (15 ≤ ((image 4#8 0).getD 0x0147 0x00#8).toNat ∧ ((image 4#8 0).getD 0x0147 0x00#8).toNat ≤ 19)) ∧
    (0x0148 ≤ (image 0#8 0).length ∧ ((image 0#8 0).getD 0x0147 0x00#8).toNat = 0 ∧ (image 0#8 0).length ≠ 0x8000) ∧
    (15 ≤ ((image 19#8 0).getD 0x0147 0x00#8).toNat ∧ ((image 19#8 0).getD 0x0147 0x00#8).toNat ≤ 19 ∧
      ¬ ((image 19#8 0).length % 0x4000 = 0)) ∧
    (((image 0#8 0x7EB8).getD 0x0147 0x00#8).toNat = 0 ∧ (image 0#8 0x7EB8).length = 0x8000) ∧
    (1 ≤ ((image 3#8 0x7EB8).getD 0x0147 0x00#8).toNat ∧ ((image 3#8 0x7EB8).getD 0x0147 0x00#8).toNat ≤ 3 ∧
      (image 3#8 0x7EB8).length % 0x4000 = 0 ∧ 2 * 0x4000 ≤ (image 3#8 0x7EB8).length ∧
      (image 3#8 0x7EB8).length ≤ 128 * 0x4000) := by
  simp only [image_header, image_length, List.length_replicate]
  decide

end Sys2Proof.Tests
end

section
/-! PROOF. What a step does, one equation for each branch of `step`: an empty queue, a transaction that decodes, and a
transaction that is refused (R63, R64, R84). -/

namespace Sys2Proof.Machine

theorem step_of_inbox_nil {s : State} (h : s.inbox = []) : step s = .next s := by
  simp only [step, h]

theorem step_of_decode_ok {s : State} {t : Txn} {rest : List Txn} {i : Instr} (hq : s.inbox = t :: rest)
    (hd : decode s.mode t = .ok i) : step s = exec i (s.withInbox rest) := by
  simp only [step, hq, hd]

theorem step_of_decode_error {s : State} {t : Txn} {rest : List Txn} {r : RefuseReason} (hq : s.inbox = t :: rest)
    (hd : decode s.mode t = .error r) : step s = .next (refuse r t.word (s.withInbox rest)) := by
  simp only [step, hq, hd]

/-- Settles O5: the equations of `step` for a transaction that decodes and for the empty queue. -/
theorem stepPerformsTheNextTransaction : Obligations.StepPerformsTheNextTransaction :=
  ⟨fun _ _ _ _ hq hd => step_of_decode_ok hq hd, fun _ h => step_of_inbox_nil h⟩

end Sys2Proof.Machine
end

section
/-! PROOF. What decodes: a well-formed instruction whose row the mode selects, and whose transaction is the one decoded
(R81, R85). -/

namespace Sys2Proof

/-- The instruction stands for the transaction in this mode: it is well-formed, its row is the one the mode selects, and
its transaction is this one (R85). -/
def Instr.StandsFor (m : Mode) (t : Txn) (i : Instr) : Prop :=
  i.wellFormed = true ∧ i.selectedIn m = true ∧ encode i = t

/-- The rows of a decode are tried one after the other (R85). -/
theorem Instr.StandsFor.ite {m : Mode} {t : Txn} {c : Prop} [Decidable c] {i j : Instr} (hi : c → i.StandsFor m t)
    (hj : ¬ c → j.StandsFor m t) : (if c then i else j).StandsFor m t :=
  iteInduction (motive := Instr.StandsFor m t) hi hj

/-- A row that the mode selects stands for the transaction when the address lies in its block. -/
theorem Instr.standsFor_of_block {m : Mode} {t : Txn} {i : Instr} {lo hi : Nat} {a : Addr}
    (hw : i.wellFormed = inBlock lo hi a) (hlo : lo ≤ a.toNat) (hhi : a.toNat ≤ hi) (hs : i.selectedIn m = true)
    (he : encode i = t) : i.StandsFor m t :=
  ⟨hw.trans ((inBlock_iff lo hi a).mpr ⟨hlo, hhi⟩), hs, he⟩

/-- The READ row of an address stands for its transaction (R85). -/
theorem decodeRead_standsFor (m : Mode) (a : Addr) : (decodeRead m a).StandsFor m ⟨mkWord 0x0#4 a, .none⟩ := by
  have ha := a.isLt
  unfold decodeRead
  refine .ite (fun hs => ?_) fun hs => ?_
  · obtain ⟨hboot, hlow⟩ := (m.shadows_iff a).mp hs
    exact Instr.standsFor_of_block rfl (Nat.zero_le _) hlow hboot rfl
  have hs' : m.shadows a = false := Bool.eq_false_iff.mpr hs
  refine .ite (fun h0 => ?_) fun h0 => ?_
  · exact Instr.standsFor_of_block rfl (by omega) (by omega) (by simp only [Instr.selectedIn, hs']; rfl) rfl
  iterate 2
    refine .ite (fun h => ?_) fun h => ?_
    · exact Instr.standsFor_of_block rfl (by omega) (by omega) rfl rfl
  refine .ite (fun h => ?_) fun h => ?_
  · split
    all_goals exact Instr.standsFor_of_block rfl (by omega) (by omega) (by simp only [Instr.selectedIn, *]; rfl) rfl
  iterate 10
    refine .ite (fun h => ?_) fun h => ?_
    · exact Instr.standsFor_of_block rfl (by omega) (by omega) rfl rfl
  exact Instr.standsFor_of_block rfl (by omega) (by omega) rfl rfl

/-- The WRITE row of a ROM window outside the overlay stands for its transaction (R85 rows 2 to 10). -/
theorem decodeRomWrite_standsFor {m : Mode} {a : Addr} (v : Int) (hs : m.shadows a = false) (ha : a.toNat ≤ 0x7FFF) :
    (decodeRomWrite m a v).StandsFor m ⟨mkWord 0x1#4 a, .int v⟩ := by
  unfold decodeRomWrite
  split
  · exact Instr.standsFor_of_block rfl (by omega) ha (by simp only [Instr.selectedIn, *]; rfl) rfl
  all_goals
    iterate 3
      refine .ite (fun h => ?_) fun h => ?_
      · exact Instr.standsFor_of_block rfl (by omega) h (by simp only [Instr.selectedIn, *]; rfl) rfl
    exact Instr.standsFor_of_block rfl (by omega) ha (by simp only [Instr.selectedIn, *]; rfl) rfl

/-- The WRITE row of an IO address stands for its transaction (R85 rows 19 to 22). -/
theorem decodeIoWrite_standsFor (m : Mode) {a : Addr} (v : Int) (hlo : 0xFF00 ≤ a.toNat) (hhi : a.toNat ≤ 0xFF7F) :
    (decodeIoWrite a v).StandsFor m ⟨mkWord 0x1#4 a, .int v⟩ := by
  unfold decodeIoWrite
  iterate 3
    refine .ite (fun h => ?_) fun h => ?_
    · subst h; exact ⟨rfl, rfl, rfl⟩
  refine ⟨?_, rfl, rfl⟩
  simp only [Instr.wellFormed, Bool.and_eq_true, inBlock_iff, bne_iff_ne]
  exact ⟨⟨⟨⟨hlo, hhi⟩, ‹_›⟩, ‹_›⟩, ‹_›⟩

/-- The WRITE row of an address stands for its transaction (R85). -/
theorem decodeWrite_standsFor (m : Mode) (a : Addr) (v : Int) :
    (decodeWrite m a v).StandsFor m ⟨mkWord 0x1#4 a, .int v⟩ := by
  have ha := a.isLt
  unfold decodeWrite
  refine .ite (fun hs => ?_) fun hs => ?_
  · obtain ⟨hboot, hlow⟩ := (m.shadows_iff a).mp hs
    exact Instr.standsFor_of_block rfl (Nat.zero_le _) hlow hboot rfl
  refine .ite (fun hrom => decodeRomWrite_standsFor v (Bool.eq_false_iff.mpr hs) hrom) fun hrom => ?_
  refine .ite (fun h => Instr.standsFor_of_block rfl (by omega) h rfl rfl) fun h => ?_
  refine .ite (fun h => ?_) fun h => ?_
  · split
    all_goals exact Instr.standsFor_of_block rfl (by omega) h (by simp only [Instr.selectedIn, *]; rfl) rfl
  iterate 9
    refine .ite (fun h => Instr.standsFor_of_block rfl (by omega) h rfl rfl) fun h => ?_
  refine .ite (fun h => decodeIoWrite_standsFor m v (by omega) h) fun h => ?_
  exact Instr.standsFor_of_block rfl (by omega) (by omega) rfl rfl

/-- What a decode answers, if it answers an instruction, stands for the transaction (R81, R85). -/
def AnswersFor (m : Mode) (t : Txn) (r : Except RefuseReason Instr) : Prop := ∀ i, r = .ok i → i.StandsFor m t

theorem AnswersFor.ite {m : Mode} {t : Txn} {c : Prop} [Decidable c] {r q : Except RefuseReason Instr}
    (hr : c → AnswersFor m t r) (hq : ¬ c → AnswersFor m t q) : AnswersFor m t (if c then r else q) :=
  iteInduction (motive := AnswersFor m t) hr hq

theorem answersFor_ok {m : Mode} {t : Txn} {i : Instr} (h : i.StandsFor m t) : AnswersFor m t (.ok i) := by
  rintro j ⟨⟩; exact h

theorem answersFor_error (m : Mode) (t : Txn) (r : RefuseReason) : AnswersFor m t (.error r) := nofun

theorem answersFor_withInt {α : Type} {f : Int → Except RefuseReason α} {k : α → Instr} {m : Mode} {w : TxnWord}
    (h : ∀ v a, f v = .ok a → (k a).StandsFor m ⟨w, .int v⟩) (x : Operand) : AnswersFor m ⟨w, x⟩ (withInt f k x) := by
  intro i hi
  obtain ⟨v, a, rfl, hv, rfl⟩ := withInt_ok hi
  exact h v a hv

theorem answersFor_withNone {j : Instr} {m : Mode} {w : TxnWord} (h : j.StandsFor m ⟨w, .none⟩) (x : Operand) :
    AnswersFor m ⟨w, x⟩ (withNone j x) := by
  intro i hi
  obtain ⟨rfl, rfl⟩ := withNone_ok hi
  exact h

/-- A command of 0x2..0xD stands for its transaction, whose address field is zero (R81, R83). -/
theorem decodeCommand_answersFor (m : Mode) (c : BitVec 4) (x : Operand) :
    AnswersFor m ⟨mkWord c 0x0000#16, x⟩ (decodeCommand c x) := by
  unfold decodeCommand
  iterate 4
    refine .ite (fun h => h ▸ answersFor_withInt (fun v n hv => ?_) x) fun _ => ?_
    · rw [asNat_ok hv]; exact ⟨rfl, rfl, rfl⟩
  refine .ite (fun h => h ▸ answersFor_withInt (fun v f hv => ?_) x) fun _ => ?_
  · rw [asFlag_ok hv]; exact ⟨rfl, rfl, rfl⟩
  refine .ite (fun h => h ▸ answersFor_withNone ⟨rfl, rfl, rfl⟩ x) fun _ => ?_
  refine .ite (fun h => h ▸ answersFor_withInt (fun v k hv => ?_) x) fun _ => ?_
  · rw [asMask_ok hv]; exact ⟨rfl, rfl, rfl⟩
  refine .ite (fun h => h ▸ answersFor_withInt (fun v k hv => ?_) x) fun _ => ?_
  · rw [asIrq_ok hv]; exact ⟨rfl, rfl, rfl⟩
  refine .ite (fun h i hi => ?_) fun _ => ?_
  · obtain ⟨en, n, rfl, rfl⟩ := withConfig_ok hi
    exact h ▸ ⟨rfl, rfl, rfl⟩
  refine .ite (fun h => h ▸ answersFor_withNone ⟨rfl, rfl, rfl⟩ x) fun _ => ?_
  refine .ite (fun h i hi => ?_) fun _ => ?_
  · obtain ⟨bs, rfl, rfl⟩ := withBytes_ok hi
    exact h ▸ ⟨rfl, rfl, rfl⟩
  exact .ite (fun h => h ▸ answersFor_withNone ⟨rfl, rfl, rfl⟩ x) fun _ => answersFor_error _ _ _

/-- What decodes is a well-formed instruction whose row the mode selects, and its transaction is the one decoded: no bit
of the word and no part of the operand is dropped (R81, R85). -/
theorem decode_answersFor (m : Mode) (t : Txn) : AnswersFor m t (decode m t) := by
  unfold decode
  refine .ite (fun h => answersFor_ok ⟨rfl, rfl, (Txn.eq_of_fields h rfl rfl).symm⟩) fun _ => ?_
  refine .ite (fun h => answersFor_ok ⟨rfl, rfl, (Txn.eq_of_fields h rfl rfl).symm⟩) fun _ => ?_
  refine .ite (fun h => ?_) fun _ => .ite (fun h => ?_) fun _ => .ite (fun _ => answersFor_error _ _ _) fun h => ?_
  · have := answersFor_withNone (decodeRead_standsFor m t.addr) t.operand
    rwa [← Txn.eq_of_fields h rfl rfl] at this
  · have := answersFor_withInt (f := .ok) (k := decodeWrite m t.addr) (m := m) (w := mkWord 0x1#4 t.addr)
      (by rintro v a ⟨⟩; exact decodeWrite_standsFor m t.addr v) t.operand
    rwa [← Txn.eq_of_fields h rfl rfl] at this
  · have := decodeCommand_answersFor m t.cmd t.operand
    rwa [← Txn.eq_of_fields rfl (not_not.mp h) rfl] at this

end Sys2Proof
end

section
/-! PROOF. What a transaction can do, said once: it takes a fault, or it has one of the effects below and answers no fault
(R60, R301). Every invariant over all steps is a case split on these effects. -/

namespace Sys2Proof.Machine

/-! ## The effects -/

/-- R40 (a) and (b): what the ROM bank register may hold under a variant. -/
def RomBankLegal (v : Variant) (b : BitVec 7) : Prop :=
  (v = .mbc1 → b &&& 0x1F#7 ≠ 0#7) ∧ (v = .mbc3 → b ≠ 0#7)

/-- The effects of the rows that complete: `Effect s i t` says that the row of `i` may lead from `s` to `t`, the reply
left out. -/
inductive Effect (s : State) : Instr → State → Prop where
  /-- A read, or a write that is ignored: at most the count of draws changes. -/
  | keep (i : Instr) (n : Nat) : Effect s i (s.withDraws n)
  /-- A store outside external RAM. -/
  | store (i : Instr) {r : RegionId} {off : Nat} (b : Byte) (hr : ∀ k, r ≠ .eram k) (h : off < r.len s.variant) :
      Effect s i (s.store r off b)
  /-- A committed external RAM write, with its event (R164). -/
  | eram {i : Instr} {a : Addr} {v : Int} {k : Nat}
      (hi : i = .wrEramNone a v ∨ i = .wrEramMbc1 a v ∨ i = .wrEramMbc3 a v) (hv : ByteValue v)
      (h : Window.eram.offset a < (RegionId.eram k).len s.variant) :
      Effect s i (emit ⟨k, Window.eram.offset a, BitVec.ofInt 8 v⟩
        (s.store (.eram k) (Window.eram.offset a) (BitVec.ofInt 8 v)))
  /-- TAC: the byte and the timer (R124, R246). -/
  | tac (v : Int) (b : Byte) : Effect s (.wrIoTac v) (timerControl b (s.store .io Config.tacOff b))
  /-- DMA: the byte and a new transfer (R122, R180). -/
  | dma (v : Int) (b : Byte) : Effect s (.wrIoDma v) (dmaTrigger b (s.store .io Config.dmaOff b))
  /-- BOOT_OFF: the byte and the overlay off (R123). -/
  | bootOff (v : Int) (b : Byte) :
      Effect s (.wrIoBootoff v) ((s.store .io Config.bootOffOff b).withBootEnabled false)
  /-- The ROM bank register, kept legal (R150, R151, R157). -/
  | romBank (i : Instr) (b : BitVec 7) (h : RomBankLegal s.variant s.romBank → RomBankLegal s.variant b) :
      Effect s i (s.withRomBank b)
  | ramBank (i : Instr) (b : BitVec 2) : Effect s i (s.withRamBank b)
  | mbc1Mode (i : Instr) (m : BankingMode) : Effect s i (s.withMbc1Mode m)
  | ramEnabled (i : Instr) (b : Bool) : Effect s i (s.withRamEnabled b)
  /-- Device steps, in any order; SYS_STEP counts the order it chose (R276). -/
  | devices (i : Instr) (ds : List Device) (n k : Nat) : Effect s i (ds.foldl (deviceStep n) (s.withSysSteps k))
  | bootOverlay (f : Bool) : Effect s (.setBootOverlay f) (s.withBootEnabled f)
  | irqClear (m : BitVec 5) : Effect s (.irqClear m) (clearIrq m s)
  | irqRaise (k : Irq) : Effect s (.irqRaise k) (raiseIrq k s)
  | timer (en : Bool) {n : Nat} (h : legalDivisor n = true) : Effect s (.timerConfigure en n) (s.withTimer en n)
  | ramImport {bytes : List Byte} (h : bytes.length = eramSize s.variant) :
      Effect s (.ramImport bytes) (s.withEram (Memory.ofBytes bytes))

/-- The result is the fault taken, or an effect of the row with a reply that is no fault (R301). -/
def Performs (i : Instr) (s : State) (r : Result) : Prop :=
  (∃ f, r = .next (takeFault f s)) ∨
  ∃ t q, Effect s i t ∧ (∀ f, q ≠ .fault f) ∧ r = .next (t.withReply q)

theorem effect_self (s : State) (i : Instr) : Effect s i s := .keep i s.draws

/-! ## The shapes of a row -/

theorem performs_takeFault (i : Instr) (f : Fault) (s : State) : Performs i s (.next (takeFault f s)) := .inl ⟨f, rfl⟩

theorem performs_effect {i : Instr} {s t : State} (h : Effect s i t) {q : Reply} (hq : ∀ f, q ≠ .fault f) :
    Performs i s (.next (t.withReply q)) := .inr ⟨t, q, h, hq, rfl⟩

/-- A command that only reports. -/
theorem performs_reply (i : Instr) (s : State) {q : Reply} (hq : ∀ f, q ≠ .fault f) :
    Performs i s (.next (s.withReply q)) := performs_effect (effect_self s i) hq

theorem performs_regionRead (i : Instr) (r : RegionId) (off : Nat) (s : State) :
    Performs i s (finishRead (regionRead r off s) s) := by
  rcases regionRead_cases r off s with ⟨hoff, -⟩ | ⟨-, e⟩
  · obtain ⟨b, n, e⟩ := regionRead_state hoff
    rw [e]
    exact performs_effect (.keep i n) nofun
  · rw [e]
    exact performs_takeFault i _ s

theorem performs_readEramGated (i : Instr) (g : Bool) (k : Nat) (a : Addr) (s : State) :
    Performs i s (finishRead (readEramGated g k a s) s) := by
  unfold readEramGated
  split
  · exact performs_regionRead i _ _ s
  · exact performs_reply i s nofun

/-- A write whose rule, when it completes, has an effect of the row. -/
theorem performs_finishWrite {i : Instr} {s : State} {r : Except Fault State} (h : ∀ t, r = .ok t → Effect s i t) :
    Performs i s (finishWrite r s) := by
  cases r with
  | ok t => exact performs_effect (h t rfl) nofun
  | error f => exact performs_takeFault i f s

/-- A WRITE row: the value check, and then a rule that has an effect of the row (R101). -/
theorem performs_withData {i : Instr} {s : State} {v : Int} {rule : Byte → Except Fault State}
    (h : ByteValue v → ∀ t, rule (BitVec.ofInt 8 v) = .ok t → Effect s i t) :
    Performs i s (finishWrite (withData v rule) s) := by
  by_cases hv : ByteValue v
  · rw [withData_ok hv]
    exact performs_finishWrite (h hv)
  · rw [withData_error hv]
    exact performs_takeFault i _ s

/-- What a store answers, when it completes: the offset lay in the region (R51). -/
theorem storeByte_eq_ok {r : RegionId} {off : Nat} {b : Byte} {s t : State} (h : storeByte r off b s = .ok t) :
    off < r.len s.variant ∧ t = s.store r off b := by
  by_cases hoff : off < r.len s.variant
  · rw [storeByte_ok hoff b] at h
    cases h
    exact ⟨hoff, rfl⟩
  · rw [storeByte, regionWrite, if_neg hoff] at h
    cases h

theorem performs_writeWindow (i : Instr) (w : Window) {r : RegionId} (a : Addr) (v : Int) (s : State)
    (hr : ∀ k, r ≠ .eram k) : Performs i s (finishWrite (writeWindow w r a v s) s) :=
  performs_withData fun _ t ht => by
    obtain ⟨hoff, rfl⟩ := storeByte_eq_ok ht
    exact .store i _ hr hoff

theorem performs_writeGap (i : Instr) (a : Addr) (v : Int) (s : State) :
    Performs i s (finishWrite (writeGap a v) s) := performs_withData fun _ _ ht => by cases ht

theorem performs_writeIoThen {i : Instr} {off : Nat} {v : Int} {s : State} {effect : Byte → State → State}
    (h : ∀ b, Effect s i (effect b (s.store .io off b))) :
    Performs i s (finishWrite (writeIoThen off v s effect) s) :=
  performs_withData fun _ t ht => by
    split at ht
    · rename_i u hu
      obtain ⟨-, rfl⟩ := storeByte_eq_ok hu
      cases ht
      exact h _
    · cases ht

theorem performs_writeBankReg {i : Instr} {v : Int} {s : State} {effect : Byte → State → State}
    (h : ∀ b, Effect s i (effect b s)) : Performs i s (finishWrite (writeBankReg v s effect) s) :=
  performs_withData fun _ t ht => by cases ht; exact h _

/-- What a committed external RAM write answers, when it completes: the store and its event (R164). -/
theorem commitEram_eq_ok {k off : Nat} {b : Byte} {s t : State} (h : commitEram k off b s = .ok t) :
    off < (RegionId.eram k).len s.variant ∧ t = emit ⟨k, off, b⟩ (s.store (.eram k) off b) := by
  unfold commitEram at h
  split at h
  · rename_i u hu
    obtain ⟨hoff, rfl⟩ := storeByte_eq_ok hu
    cases h
    exact ⟨hoff, rfl⟩
  · cases h

theorem performs_writeEramGated {i : Instr} {a : Addr} {v : Int} (s : State) (g : Bool) (k : Nat)
    (hi : i = .wrEramNone a v ∨ i = .wrEramMbc1 a v ∨ i = .wrEramMbc3 a v) :
    Performs i s (finishWrite (writeEramGated g k a v s) s) :=
  performs_withData fun hv t ht => by
    split at ht
    · obtain ⟨hoff, rfl⟩ := commitEram_eq_ok ht
      exact .eram hi hv hoff
    · cases ht
      exact effect_self s i

/-! ## The bank registers -/

theorem bumpBank_low (r : BitVec 7) : bumpBank r &&& 0x1F#7 ≠ 0#7 := by decide +revert

/-- The low five bits survive a write of the upper two (R151). -/
theorem mbc1HighBank_low (old : BitVec 7) (b : Byte) : mbc1HighBank old b &&& 0x1F#7 = old &&& 0x1F#7 := by
  unfold mbc1HighBank
  generalize b.setWidth 7 &&& 0x03#7 = x
  ext i hi
  interval_cases i <;> simp

theorem mbc3Bank_ne_zero (b : Byte) : mbc3Bank b ≠ 0#7 := by
  unfold mbc3Bank
  split
  · decide
  · assumption

theorem effect_setMbc1Hi (i : Instr) {s : State} (hs : s.variant = .mbc1) (b : Byte) : Effect s i (setMbc1Hi b s) := by
  unfold setMbc1Hi
  cases s.mbc1Mode with
  | highRom =>
    refine .romBank i _ fun h => ⟨fun hv => ?_, by rw [hs]; nofun⟩
    rw [mbc1HighBank_low]
    exact h.1 hv
  | ram => exact .ramBank i _

theorem effect_setRamEnable2 (i : Instr) (s : State) (b : Byte) : Effect s i (setRamEnable2 b s) := by
  unfold setRamEnable2
  cases s.params.ramEn2 with
  | set => exact .ramEnabled i _
  | flip => exact .ramEnabled i _

/-! ## The rows -/

/-- Every row that the mode selects takes a fault or has one of the effects. -/
theorem exec_performs {i : Instr} {s : State} (hsel : i.selectedIn s.mode = true) : Performs i s (exec i s) := by
  unfold exec
  cases i
  case rdBoot | rdRom0 | rdRomx | rdVram | rdWram | rdEchoE000 | rdEchoF000 | rdEchoF800 | rdEchoFc00 | rdOamFe00
      | rdOamFe80 | rdIo | rdHram => exact performs_regionRead _ _ _ s
  case rdEramNone | rdEramMbc1 | rdEramMbc3 => exact performs_readEramGated _ _ _ _ s
  case rdGapFea0 | rdGapFec0 => exact performs_takeFault _ _ s
  case wrBoot | wrVram | wrWram | wrEchoE000 | wrEchoF000 | wrEchoF800 | wrEchoFc00 | wrOamFe00 | wrOamFe80 | wrIo
      | wrHram => exact performs_writeWindow _ _ _ _ s nofun
  case wrGapFea0 | wrGapFec0 => exact performs_writeGap _ _ _ s
  case wrEramNone a v => exact performs_writeEramGated s _ _ (.inl rfl)
  case wrEramMbc1 a v => exact performs_writeEramGated s _ _ (.inr (.inl rfl))
  case wrEramMbc3 a v => exact performs_writeEramGated s _ _ (.inr (.inr rfl))
  case wrIoTac v => exact performs_writeIoThen (.tac v)
  case wrIoDma v => exact performs_writeIoThen (.dma v)
  case wrIoBootoff v => exact performs_writeIoThen (.bootOff v)
  case wrRomNone => exact performs_writeBankReg fun _ => effect_self s _
  case wrMbc1Ramen | wrMbc3Ramen => exact performs_writeBankReg fun _ => .ramEnabled _ _
  case wrMbc1Mode => exact performs_writeBankReg fun _ => .mbc1Mode _ _
  case wrMbc3Ramb => exact performs_writeBankReg fun _ => .ramBank _ _
  case wrMbc3Ramen2 => exact performs_writeBankReg (effect_setRamEnable2 _ s)
  case wrMbc1Romlo =>
    have hs : s.variant = .mbc1 := by simpa [Instr.selectedIn] using hsel
    exact performs_writeBankReg fun b => .romBank _ _ fun _ => ⟨fun _ => bumpBank_low _, by rw [hs]; nofun⟩
  case wrMbc1Hi =>
    have hs : s.variant = .mbc1 := by simpa [Instr.selectedIn] using hsel
    exact performs_writeBankReg (effect_setMbc1Hi _ hs)
  case wrMbc3Romb =>
    have hs : s.variant = .mbc3 := by simpa [Instr.selectedIn] using hsel
    exact performs_writeBankReg fun b => .romBank _ _ fun _ => ⟨by rw [hs]; nofun, fun _ => mbc3Bank_ne_zero b⟩
  case sysStep n => exact performs_effect (.devices _ _ n _) nofun
  case busStep n => exact performs_effect (.devices _ [.bus] n s.sysSteps) nofun
  case ppuStep n => exact performs_effect (.devices _ [.ppu] n s.sysSteps) nofun
  case timerTick n => exact performs_effect (.devices _ [.timer] n s.sysSteps) nofun
  case setBootOverlay f => exact performs_effect (.bootOverlay f) nofun
  case irqClear m => exact performs_effect (.irqClear m) nofun
  case irqRaise k => exact performs_effect (.irqRaise k) nofun
  case irqRead | ramExport | frameRead => exact performs_reply _ s nofun
  case timerConfigure en n =>
    simp only [execTimerConfigure]
    split
    · exact performs_effect (.timer en ‹_›) nofun
    · exact performs_takeFault _ _ s
  case ramImport bytes =>
    simp only [execRamImport]
    split
    · exact performs_effect (.ramImport ‹_›) nofun
    · exact performs_takeFault _ _ s
  case setButtons | reserved => exact performs_takeFault _ _ s

/-- What a step can do: nothing with an empty queue (R64); else it takes the next transaction off the queue, which takes a
fault or has an effect of the row it decodes to (R63, R84). -/
theorem step_cases {s t : State} (h : step s = .next t) :
    (s.inbox = [] ∧ t = s) ∨
    ∃ x rest, s.inbox = x :: rest ∧
      ((∃ f, t = takeFault f (s.withInbox rest)) ∨
       ∃ i u q, i.StandsFor s.mode x ∧ Effect (s.withInbox rest) i u ∧ (∀ f, q ≠ .fault f) ∧ t = u.withReply q) := by
  cases hq : s.inbox with
  | nil =>
    rw [step_of_inbox_nil hq] at h
    cases h
    exact .inl ⟨rfl, rfl⟩
  | cons x rest =>
    refine .inr ⟨x, rest, rfl, ?_⟩
    cases hd : decode s.mode x with
    | error r =>
      rw [step_of_decode_error hq hd] at h
      cases h
      exact .inl ⟨_, rfl⟩
    | ok i =>
      rw [step_of_decode_ok hq hd] at h
      have hi := decode_answersFor s.mode x i hd
      rcases exec_performs (s := s.withInbox rest) hi.2.1 with ⟨f, hf⟩ | ⟨u, q, hu, hq, hf⟩
      · rw [hf] at h
        cases h
        exact .inl ⟨f, rfl⟩
      · rw [hf] at h
        cases h
        exact .inr ⟨i, u, q, hi, hu, hq, rfl⟩

end Sys2Proof.Machine
end

section
/-! PROOF. What every effect leaves unchanged (the fault record, the cartridge, the overlay's bytes, the parameters), and
which rows alone change the overlay flag and the event list (R26, R36, R37, R142). -/

namespace Sys2Proof.Machine

/-! ## Stores and device steps -/

@[simp] theorem State.store_params (s : State) (r : RegionId) (off : Nat) (b : Byte) :
    (s.store r off b).params = s.params := by cases r <;> rfl
@[simp] theorem State.store_variant (s : State) (r : RegionId) (off : Nat) (b : Byte) :
    (s.store r off b).variant = s.variant := by cases r <;> rfl
@[simp] theorem State.store_boot (s : State) (r : RegionId) (off : Nat) (b : Byte) :
    (s.store r off b).boot = s.boot := by cases r <;> rfl
@[simp] theorem State.store_rom (s : State) (r : RegionId) (off : Nat) (b : Byte) :
    (s.store r off b).rom = s.rom := by cases r <;> rfl
@[simp] theorem State.store_romLen (s : State) (r : RegionId) (off : Nat) (b : Byte) :
    (s.store r off b).romLen = s.romLen := by cases r <;> rfl
@[simp] theorem State.store_bootEnabled (s : State) (r : RegionId) (off : Nat) (b : Byte) :
    (s.store r off b).bootEnabled = s.bootEnabled := by cases r <;> rfl
@[simp] theorem State.store_events (s : State) (r : RegionId) (off : Nat) (b : Byte) :
    (s.store r off b).events = s.events := by cases r <;> rfl
@[simp] theorem State.store_fault (s : State) (r : RegionId) (off : Nat) (b : Byte) :
    (s.store r off b).fault = s.fault := by cases r <;> rfl

/-- Everything is the same but what the three devices write: OAM, the IO block, the transfers, the scanline processor, the
grids, the tick counter, the pending flags and the count of draws (R276, R336). -/
def SameButDevices (s t : State) : Prop :=
  { t with
    oam := s.oam, io := s.io, dma := s.dma, ppuMode := s.ppuMode, ppuElapsed := s.ppuElapsed, ppuLine := s.ppuLine
    scratch := s.scratch, front := s.front, frontSeq := s.frontSeq, tcount := s.tcount, irq := s.irq
    draws := s.draws } = s

theorem SameButDevices.trans {s t u : State} (h : SameButDevices s t) (h' : SameButDevices t u) :
    SameButDevices s u := by
  unfold SameButDevices at h' ⊢
  rw [← h'] at h
  exact h

theorem busStep_sameButDevices (n : Nat) (s : State) : SameButDevices s (busStep n s) := by
  induction n generalizing s with
  | zero => rfl
  | succ n ih =>
    have cycle : SameButDevices s (busCycle s) := by
      obtain ⟨o, k, e⟩ := busCycle_frame s
      rw [e]; rfl
    exact cycle.trans (ih _)

theorem deviceStep_sameButDevices (n : Nat) (s : State) (d : Device) : SameButDevices s (deviceStep n s d) := by
  cases d with
  | bus => exact busStep_sameButDevices n s
  | ppu =>
    obtain ⟨m, e, l, g, h, k, q, v, eq⟩ := ppuStep_frame n s
    rw [deviceStep, eq]; rfl
  | timer =>
    obtain ⟨c, m, q, e⟩ := timerTick_frame n s
    rw [deviceStep, e]; rfl

theorem devices_sameButDevices (ds : List Device) (n : Nat) (s : State) :
    SameButDevices s (ds.foldl (deviceStep n) s) := by
  induction ds generalizing s with
  | nil => rfl
  | cons d ds ih => exact (deviceStep_sameButDevices n s d).trans (ih _)

/-! ## The fault record -/

theorem Effect.fault {s t : State} {i : Instr} (h : Effect s i t) : t.fault = s.fault := by
  cases h
  case store | eram | tac | dma | bootOff => exact State.store_fault ..
  case devices ds n k => exact (congrArg State.fault (devices_sameButDevices ds n (s.withSysSteps k)) :)
  all_goals rfl

/-- Settles O10: the record changes only where a fault is taken, and it keeps the first. -/
theorem firstFaultIsKept : Obligations.FirstFaultIsKept := by
  intro s t h
  rcases step_cases h with ⟨-, rfl⟩ | ⟨x, rest, -, ⟨f, rfl⟩ | ⟨i, u, q, -, hu, -, rfl⟩⟩
  · exact ⟨fun _ hf => hf, fun _ hn hf => by rw [hn] at hf; cases hf⟩
  · rw [takeFault_eq]
    refine ⟨fun g hg => ?_, fun g hn hg => ?_⟩
    · simp [hg]
    · simpa [hn] using hg
  · have hfault : (u.withReply q).fault = s.fault := hu.fault
    rw [hfault]
    exact ⟨fun _ hf => hf, fun _ hn hf => by rw [hn] at hf; cases hf⟩

/-! ## The cartridge, the overlay's bytes and the parameters -/

/-- The variant, the overlay's bytes, the image and the parameters are the same (R25, R50, R142). -/
def SameCartridge (s t : State) : Prop :=
  t.variant = s.variant ∧ t.boot = s.boot ∧ t.rom = s.rom ∧ t.romLen = s.romLen ∧ t.params = s.params

theorem SameCartridge.store (s : State) (r : RegionId) (off : Nat) (b : Byte) : SameCartridge s (s.store r off b) :=
  ⟨State.store_variant .., State.store_boot .., State.store_rom .., State.store_romLen .., State.store_params ..⟩

theorem SameButDevices.sameCartridge {s t : State} (h : SameButDevices s t) : SameCartridge s t :=
  ⟨(congrArg State.variant h :), (congrArg State.boot h :), (congrArg State.rom h :), (congrArg State.romLen h :),
    (congrArg State.params h :)⟩

theorem Effect.sameCartridge {s t : State} {i : Instr} (h : Effect s i t) : SameCartridge s t := by
  cases h
  case store | eram | tac | dma | bootOff => exact SameCartridge.store ..
  case devices ds n k => exact (devices_sameButDevices ds n (s.withSysSteps k)).sameCartridge
  all_goals exact ⟨rfl, rfl, rfl, rfl, rfl⟩

/-- Settles O53: no effect and no fault reaches the cartridge. -/
theorem cartridgeAndOverlayBytesNeverChange : Obligations.CartridgeAndOverlayBytesNeverChange := by
  intro s t h
  rcases step_cases h with ⟨-, rfl⟩ | ⟨x, rest, -, ⟨f, rfl⟩ | ⟨i, u, q, -, hu, -, rfl⟩⟩
  · exact ⟨rfl, rfl, rfl, rfl, rfl⟩
  · exact ⟨rfl, rfl, rfl, rfl, rfl⟩
  · exact hu.sameCartridge

/-! ## The overlay flag -/

/-- Only WR.IO.BOOTOFF and SET_BOOT_OVERLAY change the overlay flag (R123, R277). -/
theorem Effect.bootEnabled {s t : State} {i : Instr} (h : Effect s i t) :
    t.bootEnabled = s.bootEnabled ∨ (t.bootEnabled = false ∧ ∃ v, i = .wrIoBootoff v) ∨ ∃ f, i = .setBootOverlay f := by
  cases h
  case bootOff v b => exact .inr (.inl ⟨rfl, v, rfl⟩)
  case bootOverlay f => exact .inr (.inr ⟨f, rfl⟩)
  case store | eram | tac | dma => exact .inl (State.store_bootEnabled ..)
  case devices ds n k =>
    exact .inl (congrArg State.bootEnabled (devices_sameButDevices ds n (s.withSysSteps k)) :)
  all_goals exact .inl rfl

/-- Settles O54: the two rows that change the flag have one word each. -/
theorem onlyTheHostReenablesTheOverlay : Obligations.OnlyTheHostReenablesTheOverlay := by
  intro s t h hne
  rcases step_cases h with ⟨-, rfl⟩ | ⟨x, rest, hq, ⟨f, rfl⟩ | ⟨i, u, q, ⟨-, -, hx⟩, hu, -, rfl⟩⟩
  · exact absurd rfl hne
  · exact absurd rfl hne
  · refine ⟨x, rest, hq, ?_⟩
    subst hx
    rcases hu.bootEnabled with e | ⟨hoff, v, rfl⟩ | ⟨f, rfl⟩
    · exact absurd e hne
    · exact .inl ⟨hoff, rfl⟩
    · exact .inr rfl

/-! ## The events -/

/-- The event list is the same, or a committed external RAM write stored a byte and appended its event (R164). -/
theorem Effect.events {s t : State} {i : Instr} (h : Effect s i t) :
    t.events = s.events ∨
    ∃ a v k, (i = .wrEramNone a v ∨ i = .wrEramMbc1 a v ∨ i = .wrEramMbc3 a v) ∧ ByteValue v ∧
      t.events = s.events ++ [⟨k, Window.eram.offset a, BitVec.ofInt 8 v⟩] ∧
      t.byteAt (.eram k) (Window.eram.offset a) = BitVec.ofInt 8 v := by
  cases h
  case eram a v k hv hoff hi =>
    refine .inr ⟨a, v, k, hi, hv, rfl, ?_⟩
    exact (store_storesByte s _ rfl hoff).1
  case store | tac | dma | bootOff => exact .inl (State.store_events ..)
  case devices ds n k => exact .inl (congrArg State.events (devices_sameButDevices ds n (s.withSysSteps k)) :)
  all_goals exact .inl rfl

/-- An external RAM row that stands for a transaction is a WRITE of an external RAM address (R85, R148, R154, R161). -/
theorem standsFor_wrEram {m : Mode} {x : Txn} {i : Instr} {a : Addr} {v : Int} (h : i.StandsFor m x)
    (hi : i = .wrEramNone a v ∨ i = .wrEramMbc1 a v ∨ i = .wrEramMbc3 a v) :
    x = ⟨mkWord 0x1#4 a, .int v⟩ ∧ InRange 0xA000 0xBFFF a := by
  obtain ⟨hw, -, rfl⟩ := h
  rcases hi with rfl | rfl | rfl <;> exact ⟨rfl, (inBlock_iff 0xA000 0xBFFF a).mp hw⟩

/-- Settles O56: the only effect on the event list is that of a committed external RAM write. -/
theorem eventsComeFromExternalRamWrites : Obligations.EventsComeFromExternalRamWrites := by
  intro s t h
  rcases step_cases h with ⟨-, rfl⟩ | ⟨x, rest, hq, ⟨f, rfl⟩ | ⟨i, u, q, hx, hu, -, rfl⟩⟩
  · exact .inl rfl
  · exact .inl rfl
  · rcases hu.events with e | ⟨a, v, k, hi, hv, hevents, hbyte⟩
    · exact .inl e
    · obtain ⟨rfl, hrange⟩ := standsFor_wrEram hx hi
      exact .inr ⟨a, v, rest, k, hq, hrange, hv, hevents, hbyte⟩

end Sys2Proof.Machine
end

section
/-! PROOF. The invariant of the machine (R40): each device cycle keeps it, so every effect and every step does. -/

namespace Sys2Proof.Machine

/-! ## The DMA engine -/

theorem landByte_inv {s : State} (h : s.Inv) (page : Byte) {i : Nat} (hi : i < 0xA0) : (landByte page i s).Inv := by
  obtain ⟨b, n, e⟩ := landByte_eq page hi s
  rw [e]
  exact { h with oam := Memory.write_fits b hi h.oam }

theorem dmaEntryCycle_inv {s : State} (h : s.Inv) (e : Transfer) : (dmaEntryCycle s e).Inv :=
  List.foldlRecOn _ _ h fun _ hs _ hi => landByte_inv hs e.page (landingBytes_lt hi)

theorem busCycle_inv {s : State} (h : s.Inv) : (busCycle s).Inv :=
  { List.foldlRecOn s.dma dmaEntryCycle h fun _ hs e _ => dmaEntryCycle_inv hs e with dma := dmaAge_lt h.dma }

theorem busStep_inv (n : Nat) {s : State} (h : s.Inv) : (busStep n s).Inv := by
  induction n generalizing s with
  | zero => exact h
  | succ n ih => exact ih (busCycle_inv h)

/-! ## The timer -/

theorem timerCycle_inv {s : State} (h : s.Inv) : (timerCycle s).Inv := by
  rw [timerCycle_frame]
  exact { h with io := timerCycle_io_fits h.io }

theorem timerTick_inv (n : Nat) {s : State} (h : s.Inv) : (timerTick n s).Inv := by
  induction n generalizing s with
  | zero => exact h
  | succ n ih => exact ih (timerCycle_inv h)

/-! ## The scanline processor -/

/-- R40 (e): the line of a mode. -/
def PpuLineLegal (s : State) : Prop :=
  (s.ppuMode ≠ .vblank → s.ppuLine ≤ 143) ∧ (s.ppuMode = .vblank → s.ppuLine = 144)

theorem transition_ppuLineLegal {s : State} (h : PpuLineLegal s) : PpuLineLegal (transition s) := by
  unfold transition
  cases hm : s.ppuMode with
  | oamRead => exact ⟨fun _ => h.1 (by rw [hm]; nofun), nofun⟩
  | vramRead => exact ⟨fun _ => h.1 (by rw [hm]; nofun), nofun⟩
  | hblank =>
    simp only
    split
    · rename_i hl
      exact ⟨fun _ => hl, nofun⟩
    · exact ⟨fun hn => absurd rfl hn, fun _ => rfl⟩
  | vblank => exact ⟨fun _ => Nat.zero_le _, nofun⟩

theorem ppuLoop_ppuLineLegal (k : Nat) {s : State} (h : PpuLineLegal s) : PpuLineLegal (ppuLoop k s) := by
  induction k generalizing s with
  | zero => exact h
  | succ k ih =>
    by_cases hd : PpuDone s
    · rw [ppuLoop_done hd]; exact h
    · rw [ppuLoop_turn hd]
      exact ih (transition_ppuLineLegal h)

/-- The loop runs until the elapsed count is below the mode's duration, so a PPU_STEP ends inside the invariant. -/
theorem ppuStep_inv (n : Nat) {s : State} (h : s.Inv) : (ppuStep n s).Inv := by
  obtain ⟨-, -, -, -, hvblank⟩ := h.params
  have hdone := ppuLoop_stops (ppuFuel (s.ppuElapsed + n)) (s.withPpu s.ppuMode (s.ppuElapsed + n) s.ppuLine) hvblank
    (by show s.ppuElapsed + n < 2 * (s.ppuElapsed + n) + 2; omega)
  have hline := ppuLoop_ppuLineLegal (ppuFuel (s.ppuElapsed + n))
    (s := s.withPpu s.ppuMode (s.ppuElapsed + n) s.ppuLine) ⟨h.ppuVisible, h.ppuVblank⟩
  obtain ⟨m, e, l, g, f, k, q, eq⟩ :=
    ppuLoop_frame (ppuFuel (s.ppuElapsed + n)) (s.withPpu s.ppuMode (s.ppuElapsed + n) s.ppuLine)
  unfold ppuStep
  rw [eq] at hdone hline ⊢
  exact { h with
    io := Memory.write_fits _ (by decide) h.io
    ppuElapsed := hdone, ppuVisible := hline.1, ppuVblank := hline.2 }

theorem devices_inv (ds : List Device) (n : Nat) {s : State} (h : s.Inv) : (ds.foldl (deviceStep n) s).Inv :=
  List.foldlRecOn ds (deviceStep n) h fun _ hs d _ => by
    cases d with
    | bus => exact busStep_inv n hs
    | ppu => exact ppuStep_inv n hs
    | timer => exact timerTick_inv n hs

/-! ## The effects -/

/-- A store inside a region keeps the region's form. -/
theorem store_inv {s : State} (h : s.Inv) {r : RegionId} {off : Nat} (b : Byte) (hoff : off < r.len s.variant) :
    (s.store r off b).Inv := by
  cases r with
  | boot => exact h
  | rom _ => exact h
  | vram => exact { h with vram := Memory.write_fits b hoff h.vram }
  | eram k =>
    refine { h with eram := Memory.write_fits b ?_ h.eram }
    simp only [RegionId.len, Config.ramBankSize] at hoff
    split at hoff
    · show k * 0x2000 + off < Config.ramBanks s.variant * 0x2000
      omega
    · omega
  | wram => exact { h with wram := Memory.write_fits b hoff h.wram }
  | oam => exact { h with oam := Memory.write_fits b hoff h.oam }
  | io => exact { h with io := Memory.write_fits b hoff h.io }
  | hram => exact { h with hram := Memory.write_fits b hoff h.hram }

/-- The divisors of TAC are legal (R34). -/
theorem tacDivisor_legal (b : Byte) : legalDivisor (tacDivisor b) = true := by
  unfold tacDivisor
  split <;> rfl

theorem Effect.inv {s t : State} {i : Instr} (h : s.Inv) (he : Effect s i t) : t.Inv := by
  have hio {off : Nat} (b : Byte) (hoff : off < Config.ioLen) : (s.store .io off b).Inv := store_inv h b hoff
  cases he
  case store b hr hoff => exact store_inv h b hoff
  case eram hoff _ => exact { store_inv h _ hoff with }
  case tac b => exact { hio b (by decide) with divisor := tacDivisor_legal b }
  case dma b =>
    refine { hio (off := Config.dmaOff) b (by decide) with dma := fun e he => ?_ }
    rcases List.mem_append.mp he with he | he
    · exact h.dma e he
    · rw [List.mem_singleton.mp he]; exact Nat.succ_pos 161
  case bootOff b => exact { hio (off := Config.bootOffOff) b (by decide) with }
  case romBank b hb =>
    obtain ⟨h1, h3⟩ := hb ⟨h.mbc1Bank, h.mbc3Bank⟩
    exact { h with mbc1Bank := h1, mbc3Bank := h3 }
  case devices ds n k => exact devices_inv ds n (s := s.withSysSteps k) { h with }
  case timer hd => exact { h with divisor := hd }
  case ramImport bytes hlen => exact { h with eram := hlen ▸ Memory.ofBytes_fits bytes }
  all_goals exact { h with }

theorem State.Inv.withInbox {s : State} (h : s.Inv) (ts : List Txn) : (s.withInbox ts).Inv := { h with }

theorem State.Inv.withReply {s : State} (h : s.Inv) (q : Reply) : (s.withReply q).Inv := { h with }

theorem takeFault_inv {s : State} (h : s.Inv) (f : Fault) : (takeFault f s).Inv := { h with }

/-- Settles O51: the invariant is kept by every effect, and a fault changes none of its fields. -/
theorem everyStepKeepsTheInvariant : Obligations.EveryStepKeepsTheInvariant := by
  intro s t h hstep
  rcases step_cases hstep with ⟨-, rfl⟩ | ⟨x, rest, -, ⟨f, rfl⟩ | ⟨i, u, q, -, hu, -, rfl⟩⟩
  · exact h
  · exact takeFault_inv (h.withInbox rest) f
  · exact (hu.inv (h.withInbox rest)).withReply q

/-! ## The ROM bank in effect under MBC1 -/

/-- The low five bits of a register whose mask is not zero. -/
theorem toNat_mod_32_ne_zero {b : BitVec 7} (h : b &&& 0x1F#7 ≠ 0#7) : b.toNat % 32 ≠ 0 := by
  decide +revert

/-- Under MBC1 the bank in effect has the register's low five bits in either banking mode (R144). -/
theorem effectiveRomBank_mod_32 {s : State} (h : s.variant = .mbc1) : effectiveRomBank s % 32 = s.romBank.toNat % 32 := by
  unfold effectiveRomBank
  rw [h]
  cases s.mbc1Mode with
  | highRom => rfl
  | ram =>
    generalize s.romBank = b
    decide +revert

/-- Settles O57: the invariant after the step says it of the bank register (R40 (a)). -/
theorem mbc1NeverSelectsBankZero : Obligations.Mbc1NeverSelectsBankZero := by
  intro s t h hstep hv
  rw [effectiveRomBank_mod_32 hv]
  exact toNat_mod_32_ne_zero ((everyStepKeepsTheInvariant s t h hstep).mbc1Bank hv)

end Sys2Proof.Machine
end

section
/-! PROOF. Construction (R331): what the checks ask of the arguments, and the machine they let through. -/

namespace Sys2Proof.Machine

/-! ## The checks -/

theorem checkLen_eq_ok {r : SizedRegion} {n m : Nat} {u : Unit} (h : checkLen r n m = .ok u) : n = m := by
  by_contra hne
  rw [checkLen, if_neg hne] at h
  cases h

theorem checkImage_eq_ok {v : Variant} {n : Nat} {u : Unit} (h : checkImage v n = .ok u) : imageFits v n = true := by
  by_contra hne
  rw [checkImage, if_neg hne] at h
  cases h

/-- A check that is followed by more and lets it through passed (R331). -/
theorem bind_eq_ok {α β : Type} {x : Except Fault α} {f : α → Except Fault β} {b : β} (h : (x >>= f) = .ok b) :
    ∃ a, x = .ok a ∧ f a = .ok b := by
  cases x with
  | ok a => exact ⟨a, rfl, h⟩
  | error e => cases h

/-- The supplied regions have their lengths (R24, R331 checks 5 and 6). -/
def RegionLengths (v : Variant) (init : InitMem) : Prop :=
  init.vram.length = Config.vramLen ∧ init.wram.length = Config.wramLen ∧ init.oam.length = Config.oamLen ∧
  init.io.length = Config.ioLen ∧ init.hram.length = Config.hramLen ∧ init.eram.length = eramSize v

theorem checkRegions_eq_ok {v : Variant} {init : InitMem} {u : Unit} (h : checkRegions v init = .ok u) :
    RegionLengths v init := by
  obtain ⟨_, hvram, h⟩ := bind_eq_ok h
  obtain ⟨_, hwram, h⟩ := bind_eq_ok h
  obtain ⟨_, hoam, h⟩ := bind_eq_ok h
  obtain ⟨_, hio, h⟩ := bind_eq_ok h
  obtain ⟨_, hhram, h⟩ := bind_eq_ok h
  exact ⟨checkLen_eq_ok hvram, checkLen_eq_ok hwram, checkLen_eq_ok hoam, checkLen_eq_ok hio, checkLen_eq_ok hhram,
    checkLen_eq_ok h⟩

/-- A construction that succeeds passed every check, and its machine is the initial state of its arguments (R331). -/
theorem construct_eq_ok {p : Params} {documented boot img : List Byte} {init : InitMem} {s : State}
    (h : construct p documented boot img init = .ok s) :
    ∃ v, boot.length = Config.bootLen ∧ classifyCart documented (img.getD Config.headerTypeOffset 0x00#8) = .ok v ∧
      imageFits v img.length = true ∧ RegionLengths v init ∧ s = initialState p v boot img init := by
  obtain ⟨_, hboot, h⟩ := bind_eq_ok h
  obtain ⟨_, -, h⟩ := bind_eq_ok h
  obtain ⟨v, hv, h⟩ := bind_eq_ok h
  obtain ⟨_, himage, h⟩ := bind_eq_ok h
  obtain ⟨_, hregions, h⟩ := bind_eq_ok h
  cases h
  exact ⟨v, checkLen_eq_ok hboot, hv, checkImage_eq_ok himage, checkRegions_eq_ok hregions, rfl⟩

/-! ## The initial state -/

/-- A supplied region fits the length it was checked against. -/
theorem Memory.ofBytes_fits_of_length {bs : List Byte} {len : Nat} (h : bs.length = len) :
    (Memory.ofBytes bs).fits len := h ▸ Memory.ofBytes_fits bs

/-- The initial state of arguments that pass the checks meets the invariant. -/
theorem initialState_inv {p : Params} {v : Variant} {boot img : List Byte} {init : InitMem} (hp : p.Legal)
    (hboot : boot.length = Config.bootLen) (himage : imageFits v img.length = true) (hregions : RegionLengths v init) :
    (initialState p v boot img init).Inv := by
  obtain ⟨hvram, hwram, hoam, hio, hhram, heram⟩ := hregions
  exact {
    params := hp
    image := himage
    boot := Memory.ofBytes_fits_of_length hboot
    rom := Memory.ofBytes_fits img
    vram := Memory.ofBytes_fits_of_length hvram
    eram := Memory.ofBytes_fits_of_length heram
    wram := Memory.ofBytes_fits_of_length hwram
    oam := Memory.ofBytes_fits_of_length hoam
    io := Memory.ofBytes_fits_of_length hio
    hram := Memory.ofBytes_fits_of_length hhram
    mbc1Bank := fun _ => (by decide : 0x01#7 &&& 0x1F#7 ≠ 0#7)
    mbc3Bank := fun _ => (by decide : 0x01#7 ≠ 0#7)
    dma := nofun
    ppuElapsed := Nat.succ_pos 79
    ppuVisible := fun _ => Nat.zero_le 143
    ppuVblank := nofun
    divisor := rfl }

/-- Every pixel of the zero grid is color 0, and so is every position outside it (R30). -/
theorem Grid.pixel_zero (y x : Nat) : Grid.zero.pixel y x = 0#2 := by
  unfold Grid.pixel Grid.zero
  by_cases hy : y < 144
  · by_cases hx : x < 160 <;> simp [hy, hx]
  · simp [hy]

/-- Settles O58: the checks passed, and the initial state holds the arguments and the values of R38. -/
theorem constructionBuildsTheMachine : Obligations.ConstructionBuildsTheMachine := by
  intro p documented boot img init s hp h
  obtain ⟨v, hboot, hv, himage, hregions, rfl⟩ := construct_eq_ok h
  obtain ⟨hvram, hwram, hoam, hio, hhram, heram⟩ := hregions
  exact ⟨initialState_inv hp hboot himage ⟨hvram, hwram, hoam, hio, hhram, heram⟩, rfl, rfl, hboot, hvram, hwram, hoam,
    hio, hhram, heram, himage, hv, Memory.read_ofBytes boot, Memory.read_ofBytes img, Memory.read_ofBytes init.vram,
    Memory.read_ofBytes init.wram, Memory.read_ofBytes init.oam, Memory.read_ofBytes init.io,
    Memory.read_ofBytes init.hram, Memory.read_ofBytes init.eram, rfl, rfl, rfl, rfl, rfl, rfl, rfl, rfl, rfl,
    fun y x => ⟨Grid.pixel_zero y x, Grid.pixel_zero y x⟩, rfl, rfl, rfl, rfl, rfl, rfl, rfl⟩

/-! ## The reset state -/

/-- A region of zeros lists no byte (log entry 6). -/
theorem Memory.ofBytes_replicate_blank (n : Nat) : Memory.ofBytes (List.replicate n Memory.blank) = [] := by
  have from_any (k : Nat) : Memory.ofBytesFrom k (List.replicate n Memory.blank) = [] := by
    induction n generalizing k with
    | zero => rfl
    | succ n ih => rw [List.replicate_succ, Memory.ofBytesFrom, if_pos rfl, ih]
  exact from_any 0

/-- Equal lengths pass the check. -/
theorem checkLen_self (r : SizedRegion) (n : Nat) : checkLen r n n = .ok () := if_pos rfl

/-- Settles O60: every check passes, and the all-zero arguments list no byte. -/
theorem resetIsTheZeroConstruction : Obligations.ResetIsTheZeroConstruction := by
  have hheader : (List.replicate 0x8000 (0x00#8 : Byte)).getD 0x0147 0x00#8 = 0x00#8 :=
    List.getD_replicate _ (by decide)
  unfold Obligations.ResetIsTheZeroConstruction construct checkRegions
  simp only [List.length_replicate, hheader, checkLen_self]
  refine Eq.trans (b := .ok (initialState Config.defaultParams .none _ _ _)) rfl (congrArg Except.ok ?_)
  simp only [initialState, Memory.ofBytes_replicate_blank, List.length_replicate]
  rfl

/-- The default schedule lands byte i at i + 3 (R184). -/
theorem landAt_default {i : Nat} (h : i < Config.dmaLen) : Config.defaultParams.landAt i = i + 3 := by
  simp [Params.landAt, Config.defaultParams, Config.defaultLand, h]

/-- The default parameters meet R184 (a) to (c), and VBLANK lasts. -/
theorem defaultParams_legal : Config.defaultParams.Legal := by
  refine ⟨rfl, fun i hi => ?_, fun i hi => ?_, landAt_default (by decide), by decide⟩
  · rw [landAt_default hi]
    exact ⟨Nat.succ_pos _, Nat.add_le_add_right (Nat.le_of_lt_succ hi) 3⟩
  · rw [landAt_default (by omega), landAt_default (by omega)]
    exact Nat.add_le_add_right (Nat.le_succ i) 3
/-- Settles O52: the reset state is a construction, and a construction meets the invariant. -/
theorem resetMeetsTheInvariant : Obligations.ResetMeetsTheInvariant :=
  (constructionBuildsTheMachine _ _ _ _ _ _ defaultParams_legal resetIsTheZeroConstruction).1

end Sys2Proof.Machine
end

section
/-! PROOF. The windows of the address map (R53, R54), and the bus read by window: the READ row that an address decodes to
answers what the bus read answers, and a byte is drawn only in a ROM window (R60, R100, R142). -/

namespace Sys2Proof.Machine

/-! ## The windows -/

/-- Of two windows one ends before the other begins (R54). -/
theorem Window.disjoint (w w' : Window) :
    w ≠ w' → w.start + w.length ≤ w'.start ∨ w'.start + w'.length ≤ w.start := by
  cases w <;> cases w' <;> decide

/-- An address lies in no window but its own (R54). -/
theorem window_eq_of_range {a : Addr} {w : Window} (hlo : w.start ≤ a.toNat) (hhi : a.toNat < w.start + w.length) :
    window a = w := by
  obtain ⟨hlo', hhi'⟩ := window_range a
  by_contra hne
  have := Window.disjoint _ _ hne
  omega

theorem Window.length_pos (w : Window) : 0 < w.length := by cases w <;> decide

/-- An address between the first and the last of a window lies in that window. -/
theorem window_of_inRange (w : Window) {a : Addr} (h : InRange w.start (w.start + w.length - 1) a) : window a = w :=
  window_eq_of_range h.1 (by have := h.2; have := w.length_pos; omega)

/-- Settles O19: a window holds its addresses, and two windows share none. -/
theorem windowsPartitionTheAddressSpace : Obligations.WindowsPartitionTheAddressSpace := by
  refine ⟨fun a w => ⟨?_, fun ⟨hlo, hhi⟩ => (window_eq_of_range hlo hhi).symm⟩, rfl⟩
  rintro rfl
  exact window_range a

/-! ## The bus read in each window -/

section
variable (s : State) {a : Addr}

theorem memRead_boot (h : s.mode.shadows a = true) : memRead a s = readBoot a s := by
  have hlow := ((s.mode.shadows_iff a).mp h).2
  rw [memRead, window_of_inRange .rom0 ⟨Nat.zero_le _, hlow.trans (by decide)⟩]
  exact if_pos h

theorem memRead_rom0 (hs : ¬ s.mode.shadows a = true) (h : InRange 0x0000 0x3FFF a) : memRead a s = readRom0 a s := by
  rw [memRead, window_of_inRange .rom0 h]
  exact if_neg hs

theorem memRead_romx (h : InRange 0x4000 0x7FFF a) : memRead a s = readRomx a s := by
  rw [memRead, window_of_inRange .romx h]

theorem memRead_vram (h : InRange 0x8000 0x9FFF a) : memRead a s = readVram a s := by
  rw [memRead, window_of_inRange .vram h]

theorem memRead_eram (h : InRange 0xA000 0xBFFF a) : memRead a s = readEram a s := by
  rw [memRead, window_of_inRange .eram h]

theorem memRead_wram (h : InRange 0xC000 0xDFFF a) : memRead a s = readWram a s := by
  rw [memRead, window_of_inRange .wram h]

theorem memRead_echo (h : InRange 0xE000 0xFDFF a) : memRead a s = readEcho a s := by
  rw [memRead, window_of_inRange .echo h]

theorem memRead_oam (h : InRange 0xFE00 0xFE9F a) : memRead a s = readOam a s := by
  rw [memRead, window_of_inRange .oam h]

theorem memRead_gap (h : InRange 0xFEA0 0xFEFF a) : memRead a s = readGap a := by
  rw [memRead, window_of_inRange .gap h]

theorem memRead_io (h : InRange 0xFF00 0xFF7F a) : memRead a s = readIo a s := by
  rw [memRead, window_of_inRange .io h]

theorem memRead_hram (h : InRange 0xFF80 0xFFFF a) : memRead a s = readHram a s := by
  rw [memRead, window_of_inRange .hram h]

end

/-! ## The decoded row -/

/-- The row performs the bus read of the address: same byte, same state, same fault. -/
def PerformsBusRead (s : State) (a : Addr) (i : Instr) : Prop := exec i s = finishRead (memRead a s) s

/-- The rows of a decode are tried one after the other (R85). -/
theorem PerformsBusRead.ite {s : State} {a : Addr} {c : Prop} [Decidable c] {i j : Instr}
    (hi : c → PerformsBusRead s a i) (hj : ¬ c → PerformsBusRead s a j) : PerformsBusRead s a (if c then i else j) :=
  iteInduction (motive := PerformsBusRead s a) hi hj

/-- A row performs the bus read when its rule is the read that the window gives. -/
theorem performsBusRead_of_eq {s : State} {a : Addr} {i : Instr} {r : ReadResult} (hbus : memRead a s = r)
    (hrow : exec i s = finishRead r s) : PerformsBusRead s a i := by
  rw [PerformsBusRead, hbus, hrow]

/-- The READ row an address decodes to performs the bus read of that address (R85, R100). -/
theorem decodeRead_performsBusRead (s : State) (a : Addr) : PerformsBusRead s a (decodeRead s.mode a) := by
  have ha := a.isLt
  unfold decodeRead
  refine .ite (fun hs => performsBusRead_of_eq (memRead_boot s hs) rfl) fun hs => ?_
  refine .ite (fun h => performsBusRead_of_eq (memRead_rom0 s hs ⟨Nat.zero_le _, h⟩) rfl) fun _ => ?_
  refine .ite (fun h => performsBusRead_of_eq (memRead_romx s ⟨by omega, h⟩) rfl) fun _ => ?_
  refine .ite (fun h => performsBusRead_of_eq (memRead_vram s ⟨by omega, h⟩) rfl) fun _ => ?_
  refine .ite (fun h => performsBusRead_of_eq (memRead_eram s ⟨by omega, h⟩) ?_) fun _ => ?_
  · rw [readEram, show s.mode.variant = s.variant from rfl]
    cases s.variant <;> rfl
  refine .ite (fun h => performsBusRead_of_eq (memRead_wram s ⟨by omega, h⟩) rfl) fun _ => ?_
  iterate 4
    refine .ite (fun _ => performsBusRead_of_eq (memRead_echo s ⟨by omega, by omega⟩) rfl) fun _ => ?_
  iterate 2
    refine .ite (fun _ => performsBusRead_of_eq (memRead_oam s ⟨by omega, by omega⟩) rfl) fun _ => ?_
  iterate 2
    refine .ite (fun _ => performsBusRead_of_eq (memRead_gap s ⟨by omega, by omega⟩) rfl) fun _ => ?_
  refine .ite (fun h => performsBusRead_of_eq (memRead_io s ⟨by omega, h⟩) rfl) fun _ => ?_
  exact performsBusRead_of_eq (memRead_hram s ⟨by omega, by omega⟩) rfl

/-! ## What a read draws -/

/-- A load answers the stored byte and changes nothing, or it is a draw from a ROM bank (R142). -/
theorem load_cases (s : State) (r : RegionId) (off : Nat) :
    s.load r off = (s.byteAt r off, s) ∨ (∃ k, r = .rom k) ∧ s.load r off = s.draw := by
  cases r with
  | rom k =>
    simp only [State.load]
    split
    · exact .inl rfl
    · exact .inr ⟨⟨k, rfl⟩, rfl⟩
  | _ => exact .inl rfl

/-- A region read that answers a byte changes nothing, or it is a draw from a ROM bank (R142). -/
theorem regionRead_state_or_draw {r : RegionId} {off : Nat} {s t : State} {b : Byte}
    (h : regionRead r off s = .ok (b, t)) : t = s ∨ (∃ k, r = .rom k) ∧ s.draw = (b, t) := by
  rcases regionRead_cases r off s with ⟨-, e⟩ | ⟨-, e⟩
  · have hload : s.load r off = (b, t) := Except.ok.inj (e.symm.trans h)
    rcases load_cases s r off with hl | ⟨hr, hl⟩
    · exact .inl (congrArg Prod.snd (hload.symm.trans hl))
    · exact .inr ⟨hr, hl.symm.trans hload⟩
  · cases e.symm.trans h

/-- A region read outside the ROM banks changes nothing. -/
theorem regionRead_state_eq {r : RegionId} {off : Nat} {s t : State} {b : Byte}
    (h : regionRead r off s = .ok (b, t)) (hr : ∀ k, r ≠ .rom k) : t = s :=
  (regionRead_state_or_draw h).resolve_right fun ⟨⟨k, hk⟩, _⟩ => hr k hk

/-- An external RAM read changes nothing, whatever the gate (R303). -/
theorem readEramGated_state_eq {g : Bool} {k : Nat} {a : Addr} {s t : State} {b : Byte}
    (h : readEramGated g k a s = .ok (b, t)) : t = s := by
  unfold readEramGated at h
  split at h
  · exact regionRead_state_eq h nofun
  · cases h; rfl

/-- A bus read that answers a byte changes nothing, or it is a draw in a ROM window (R60, R142). -/
theorem memRead_state_or_draw {a : Addr} {s t : State} {b : Byte} (h : memRead a s = .ok (b, t)) :
    t = s ∨ a.toNat < 0x8000 ∧ s.draw = (b, t) := by
  have hrange := (window_range a).2
  unfold memRead at h
  generalize window a = w at h hrange
  cases w
  case rom0 =>
    simp only at h
    split at h
    · exact .inl (regionRead_state_eq h nofun)
    · exact (regionRead_state_or_draw h).imp_right fun ⟨_, hd⟩ => ⟨hrange.trans (by decide), hd⟩
  case romx => exact (regionRead_state_or_draw h).imp_right fun ⟨_, hd⟩ => ⟨hrange, hd⟩
  case eram =>
    simp only [readEram] at h
    split at h <;> exact .inl (readEramGated_state_eq h)
  case gap => cases h
  all_goals exact .inl (regionRead_state_eq h nofun)

/-- Settles O17: the decoded row performs the bus read, which changes nothing or draws in a ROM window. -/
theorem busReadsHaveNoSideEffect : Obligations.BusReadsHaveNoSideEffect := by
  intro s a hgap
  obtain ⟨b, n, hread⟩ := memRead_ok s hgap
  refine ⟨b, n, by rw [decodeRead_performsBusRead s a, hread, finishRead_ok], ?_⟩
  rcases memRead_state_or_draw hread with ht | ⟨ha, hdraw⟩
  · exact .inl (congrArg State.draws ht)
  · obtain ⟨hb, ht⟩ := Prod.mk.inj hdraw
    exact .inr ⟨(congrArg State.draws ht).symm, ha, hb.symm⟩

end Sys2Proof.Machine
end

section
/-! PROOF. The decoder and the encoder are inverse to each other (R80, R81, R85): a transaction decodes to an instruction
exactly when the instruction stands for it, so every bus address selects exactly one row (R86). -/

namespace Sys2Proof

/-! ## The decoder on the words of the encoder -/

theorem decode_readWord (m : Mode) (a : Addr) : decode m ⟨mkWord 0x0#4 a, .none⟩ = .ok (decodeRead m a) := by
  simp [decode, withNone]

theorem decode_writeWord (m : Mode) (a : Addr) (v : Int) :
    decode m ⟨mkWord 0x1#4 a, .int v⟩ = .ok (decodeWrite m a v) := by
  simp [decode, withInt]

/-- A command of 0x2..0xD is refused for its address field, or decoded by its operand (R81, R83). -/
theorem decode_command (m : Mode) {t : Txn} (hc : 2 ≤ t.cmd.toNat ∧ t.cmd.toNat ≤ 0xD) :
    decode m t = if t.addr ≠ 0x0000#16 then .error .nonzeroAddrField else decodeCommand t.cmd t.operand := by
  have hne : ∀ d : BitVec 4, d.toNat < 2 ∨ 0xD < d.toNat → t.cmd ≠ d := by rintro d hd rfl; omega
  simp [decode, hne]

theorem decode_commandWord (m : Mode) {c : BitVec 4} (hc : 2 ≤ c.toNat ∧ c.toNat ≤ 0xD) (x : Operand) :
    decode m ⟨mkWord c 0x0000#16, x⟩ = decodeCommand c x := by
  rw [decode_command m (by rwa [Txn.cmd_mkWord]), Txn.addr_mkWord, Txn.cmd_mkWord, if_neg (not_not.mpr rfl)]

theorem withInt_int {α : Type} {f : Int → Except RefuseReason α} {v : Int} {b : α} (h : f v = .ok b) (k : α → Instr) :
    withInt f k (.int v) = .ok (k b) := by
  simp [withInt, h]

/-! ## Each row is the one its block selects -/

/-- Above the overlay the rows of the ROM windows and the rest are tried (R56, R85). -/
theorem Mode.ite_shadows {m : Mode} {a : Addr} (h : 0x00FF < a.toNat) {α : Type} (x y : α) :
    (if m.shadows a = true then x else y) = y :=
  if_neg (Bool.eq_false_iff.mp (m.shadows_eq_false h))

/-- Decoding the transaction of a well-formed instruction, in a mode that selects its row, gives it back (R80, R85). -/
theorem decode_encode (m : Mode) (i : Instr) (hw : i.wellFormed = true) (hs : i.selectedIn m = true) :
    decode m (encode i) = .ok i := by
  cases i
  case rdBoot a =>
    have hsh : m.shadows a = true := (m.shadows_iff a).mpr ⟨hs, ((inBlock_iff _ _ _).mp hw).2⟩
    rw [encode, decode_readWord, decodeRead, if_pos hsh]
  case rdRom0 a =>
    have ha := (inBlock_iff _ _ _).mp hw
    have hsh : ¬ m.shadows a = true := by simpa [Instr.selectedIn] using hs
    rw [encode, decode_readWord, decodeRead, if_neg hsh, if_pos ha.2]
  case rdEramNone a | rdEramMbc1 a | rdEramMbc3 a =>
    obtain ⟨hlo, hhi⟩ := (inBlock_iff _ _ _).mp hw
    have hv := eq_of_beq hs
    simp (disch := omega) only [encode, decode_readWord, decodeRead, Mode.ite_shadows, if_pos, if_neg, hv]
  case rdRomx a | rdVram a | rdWram a | rdEchoE000 a | rdEchoF000 a | rdEchoF800 a | rdEchoFc00 a | rdOamFe00 a
      | rdOamFe80 a | rdGapFea0 a | rdGapFec0 a | rdIo a | rdHram a =>
    obtain ⟨hlo, hhi⟩ := (inBlock_iff _ _ _).mp hw
    simp (disch := omega) only [encode, decode_readWord, decodeRead, Mode.ite_shadows, if_pos, if_neg]
  case wrBoot a v =>
    have hsh : m.shadows a = true := (m.shadows_iff a).mpr ⟨hs, ((inBlock_iff _ _ _).mp hw).2⟩
    rw [encode, decode_writeWord, decodeWrite, if_pos hsh]
  case wrRomNone a v | wrMbc1Ramen a v | wrMbc3Ramen a v =>
    obtain ⟨hlo, hhi⟩ := (inBlock_iff _ _ _).mp hw
    obtain ⟨hv, hsh⟩ := Bool.and_eq_true_iff.mp hs
    have hv := eq_of_beq hv
    have hsh : ¬ m.shadows a = true := by simpa using hsh
    simp (disch := omega) only [encode, decode_writeWord, decodeWrite, decodeRomWrite, if_neg hsh, if_pos, hv]
  case wrMbc1Romlo a v | wrMbc1Hi a v | wrMbc1Mode a v | wrMbc3Romb a v | wrMbc3Ramen2 a v | wrMbc3Ramb a v
      | wrEramNone a v | wrEramMbc1 a v | wrEramMbc3 a v =>
    obtain ⟨hlo, hhi⟩ := (inBlock_iff _ _ _).mp hw
    have hv := eq_of_beq hs
    simp (disch := omega) only [encode, decode_writeWord, decodeWrite, decodeRomWrite, Mode.ite_shadows, if_pos,
      if_neg, hv]
  case wrVram a v | wrWram a v | wrEchoE000 a v | wrEchoF000 a v | wrEchoF800 a v | wrEchoFc00 a v | wrOamFe00 a v
      | wrOamFe80 a v | wrGapFea0 a v | wrGapFec0 a v | wrHram a v =>
    obtain ⟨hlo, hhi⟩ := (inBlock_iff _ _ _).mp hw
    simp (disch := omega) only [encode, decode_writeWord, decodeWrite, Mode.ite_shadows, if_pos, if_neg]
  case wrIo a v =>
    simp only [Instr.wellFormed, Bool.and_eq_true, inBlock_iff, bne_iff_ne] at hw
    obtain ⟨⟨⟨⟨hlo, hhi⟩, htac⟩, hdma⟩, hboot⟩ := hw
    simp (disch := omega) only [encode, decode_writeWord, decodeWrite, decodeIoWrite, Mode.ite_shadows, if_pos,
      if_neg]
  case wrIoTac v | wrIoDma v | wrIoBootoff v =>
    rw [encode, decode_writeWord, decodeWrite, Mode.ite_shadows (by decide)]
    rfl
  case sysStep n | busStep n | ppuStep n | timerTick n =>
    exact (decode_commandWord m (by decide) _).trans (withInt_int (asNat_natCast n) _)
  case setBootOverlay f => exact (decode_commandWord m (by decide) _).trans (withInt_int (asFlag_ofBool f) _)
  case irqClear k => exact (decode_commandWord m (by decide) _).trans (withInt_int (asMask_toNat k) _)
  case irqRaise k => exact (decode_commandWord m (by decide) _).trans (withInt_int (asIrq_bit k) _)
  case irqRead | ramExport | frameRead => exact decode_commandWord m (by decide) _
  case timerConfigure en n =>
    refine (decode_commandWord m (by decide) _).trans (?_ : withConfig (.pair _ _) = _)
    simp [withConfig]
  case ramImport bytes =>
    refine (decode_commandWord m (by decide) _).trans (?_ : withBytes (.list _) = _)
    simp [withBytes]
  case setButtons a x | reserved a x => simp [encode, decode]

/-- A transaction decodes to exactly the instruction that stands for it (R85). -/
theorem decode_eq_ok_iff {m : Mode} {t : Txn} {i : Instr} : decode m t = .ok i ↔ i.StandsFor m t := by
  refine ⟨decode_answersFor m t i, ?_⟩
  rintro ⟨hw, hs, rfl⟩
  exact decode_encode m i hw hs

/-- One instruction at most stands for a transaction. -/
theorem Instr.StandsFor.unique {m : Mode} {t : Txn} {i j : Instr} (hi : i.StandsFor m t) (hj : j.StandsFor m t) : j = i :=
  Except.ok.inj ((decode_eq_ok_iff.mpr hj).symm.trans (decode_eq_ok_iff.mpr hi))

/-! ## The statements -/

/-- Settles O1: each row's block and mode lead the decoder to that row. -/
theorem decodeOfEncodeIsTheInstruction : Obligations.DecodeOfEncodeIsTheInstruction := decode_encode

/-- Settles O2: what decodes stands for its transaction. -/
theorem decodedInstructionHasItsTransaction : Obligations.DecodedInstructionHasItsTransaction := decode_answersFor

/-- Settles O3: the decoded row stands for the address, and the decoder tells every other one from it. -/
theorem busAddressSelectsExactlyOneRow : Obligations.BusAddressSelectsExactlyOneRow := by
  refine fun m a => ⟨⟨decodeRead m a, decodeRead_standsFor m a, fun j hw hs he => ?_⟩,
    fun v => ⟨decodeWrite m a v, decodeWrite_standsFor m a v, fun j hw hs he => ?_⟩⟩
  · exact (decodeRead_standsFor m a).unique ⟨hw, hs, he⟩
  · exact (decodeWrite_standsFor m a v).unique ⟨hw, hs, he⟩

/-- Settles O4: the decoder evaluated on each word. -/
theorem wordsDecodeToTheirRows : Obligations.WordsDecodeToTheirRows := by
  unfold Obligations.WordsDecodeToTheirRows
  decide

end Sys2Proof
end

section
/-! PROOF. Operands (R81, R82): an instruction's operand has its command's type, every operand of that type stands for an
instruction, and the decoder refuses a transaction for a nonzero address field or an unfit operand alone (R83, R84). -/

namespace Sys2Proof

open Sys2Proof.Machine

/-! ## Operands of the type -/

/-- An instruction's operand has the type of its command (R82). -/
theorem encode_operandFits (i : Instr) : OperandFits (encode i).cmd.toNat (encode i).operand := by
  cases i <;> simp only [encode, Txn.cmd_mkWord]
  case sysStep n | busStep n | ppuStep n | timerTick n => exact ⟨n, rfl, Int.natCast_nonneg n⟩
  case setBootOverlay f => cases f <;> simp [OperandFits]
  case irqClear k => exact ⟨k.toNat, rfl, Int.natCast_nonneg _, Int.ofNat_lt.mpr k.isLt⟩
  case irqRaise k => cases k <;> exact ⟨_, rfl, by decide, by decide⟩
  case timerConfigure en n => exact ⟨_, n, rfl, by cases en <;> decide, Int.natCast_nonneg n⟩
  case ramImport bytes =>
    refine ⟨_, rfl, fun v hv => ?_⟩
    obtain ⟨b, -, rfl⟩ := List.mem_map.mp hv
    exact ⟨Int.natCast_nonneg _, Int.ofNat_lt.mpr b.isLt⟩
  case setButtons | reserved => trivial
  case rdBoot | rdRom0 | rdRomx | rdVram | rdEramNone | rdEramMbc1 | rdEramMbc3 | rdWram | rdEchoE000 | rdEchoF000
      | rdEchoF800 | rdEchoFc00 | rdOamFe00 | rdOamFe80 | rdGapFea0 | rdGapFec0 | rdIo | rdHram | irqRead | ramExport
      | frameRead => rfl
  all_goals exact ⟨_, rfl⟩

/-- Integers of 0..255 are the numbers of bytes (R82). -/
theorem exists_bytes_of_range {xs : List Int} (h : ∀ v ∈ xs, 0 ≤ v ∧ v < 256) :
    ∃ bs : List Byte, (bs.map fun b => (b.toNat : Int)) = xs := by
  refine ⟨xs.map (BitVec.ofInt 8), ?_⟩
  rw [List.map_map]
  refine (List.map_congr_left fun v hv => ?_).trans (List.map_id xs)
  obtain ⟨h0, h1⟩ := h v hv
  exact toNat_ofInt ⟨h0, by omega⟩

theorem exists_irq_of_range {v : Int} (h : 0 ≤ v ∧ v ≤ 4) : ∃ k : Irq, (k.bit : Int) = v := by
  obtain ⟨h0, h4⟩ := h
  interval_cases v
  exacts [⟨.vblank, rfl⟩, ⟨.lcdStat, rfl⟩, ⟨.timer, rfl⟩, ⟨.serial, rfl⟩, ⟨.joypad, rfl⟩]

/-- A count stands for the instruction that takes it (R82). -/
theorem standsFor_count {m : Mode} {w : TxnWord} {x : Operand} (hx : ∃ v, x = .int v ∧ 0 ≤ v) (k : Nat → Instr)
    (hk : ∀ n : Nat, (k n).StandsFor m ⟨w, .int n⟩) : ∃ i : Instr, i.StandsFor m ⟨w, x⟩ := by
  obtain ⟨v, rfl, hv⟩ := hx
  obtain ⟨n, rfl⟩ := Int.eq_ofNat_of_zero_le hv
  exact ⟨k n, hk n⟩

/-- Every operand of a command's type stands for an instruction of that command (R81, R82). -/
theorem exists_standsFor_command (m : Mode) {k : Nat} {x : Operand} (hk : 2 ≤ k ∧ k ≤ 0xD) (hx : OperandFits k x) :
    ∃ i : Instr, i.StandsFor m ⟨mkWord (BitVec.ofNat 4 k) 0x0000#16, x⟩ := by
  match k, hk, hx with
  | 0x0, hk, _ | 0x1, hk, _ | n + 0xE, hk, _ => omega
  | 0x2, _, hx => exact standsFor_count hx .sysStep fun _ => ⟨rfl, rfl, rfl⟩
  | 0x3, _, hx => exact standsFor_count hx .busStep fun _ => ⟨rfl, rfl, rfl⟩
  | 0x4, _, hx => exact standsFor_count hx .ppuStep fun _ => ⟨rfl, rfl, rfl⟩
  | 0x5, _, hx => exact standsFor_count hx .timerTick fun _ => ⟨rfl, rfl, rfl⟩
  | 0x6, _, .inl hx => exact ⟨.setBootOverlay false, rfl, rfl, hx ▸ rfl⟩
  | 0x6, _, .inr hx => exact ⟨.setBootOverlay true, rfl, rfl, hx ▸ rfl⟩
  | 0x7, _, hx => exact ⟨.irqRead, rfl, rfl, hx ▸ rfl⟩
  | 0x8, _, hx =>
    obtain ⟨v, rfl, h0, h32⟩ := hx
    obtain ⟨n, rfl⟩ := Int.eq_ofNat_of_zero_le h0
    exact ⟨.irqClear (BitVec.ofNatLT n (Int.ofNat_lt.mp h32)), rfl, rfl, rfl⟩
  | 0x9, _, hx =>
    obtain ⟨v, rfl, hv⟩ := hx
    obtain ⟨q, rfl⟩ := exists_irq_of_range hv
    exact ⟨.irqRaise q, rfl, rfl, rfl⟩
  | 0xA, _, hx =>
    obtain ⟨e, v, rfl, he, hv⟩ := hx
    obtain ⟨n, rfl⟩ := Int.eq_ofNat_of_zero_le hv
    rcases he with rfl | rfl
    · exact ⟨.timerConfigure false n, rfl, rfl, rfl⟩
    · exact ⟨.timerConfigure true n, rfl, rfl, rfl⟩
  | 0xB, _, hx => exact ⟨.ramExport, rfl, rfl, hx ▸ rfl⟩
  | 0xC, _, hx =>
    obtain ⟨xs, rfl, hxs⟩ := hx
    obtain ⟨bs, rfl⟩ := exists_bytes_of_range hxs
    exact ⟨.ramImport bs, rfl, rfl, rfl⟩
  | 0xD, _, hx => exact ⟨.frameRead, rfl, rfl, hx ▸ rfl⟩

/-- A transaction whose operand has its command's type, and whose address field is one its command takes, stands for an
instruction (R81 to R83). -/
theorem exists_standsFor (m : Mode) {t : Txn} (hc : t.cmd.toNat < 2 ∨ t.cmd.toNat ≤ 0xD ∧ t.addr = 0x0000#16)
    (hx : OperandFits t.cmd.toNat t.operand) : ∃ i : Instr, i.StandsFor m t := by
  rw [Txn.eq_of_fields (t := t) rfl rfl rfl]
  by_cases hk : 2 ≤ t.cmd.toNat
  · obtain ⟨hle, ha⟩ : t.cmd.toNat ≤ 0xD ∧ t.addr = 0x0000#16 := hc.resolve_left (by omega)
    have := exists_standsFor_command m ⟨hk, hle⟩ hx
    rwa [BitVec.ofNat_toNat, BitVec.setWidth_eq, ← ha] at this
  obtain h | h : t.cmd = 0x0#4 ∨ t.cmd = 0x1#4 := by bv_omega
  · rw [h] at hx ⊢
    have hn : t.operand = .none := hx
    rw [hn]
    exact ⟨_, decodeRead_standsFor m t.addr⟩
  · rw [h] at hx ⊢
    obtain ⟨v, hv⟩ : ∃ v, t.operand = .int v := hx
    rw [hv]
    exact ⟨_, decodeWrite_standsFor m t.addr v⟩

/-! ## What the decoder refuses -/

/-- The only reason for which the result refuses is BAD_OPERAND. -/
def RefusesOnlyOperand {α : Type} (r : Except RefuseReason α) : Prop := ∀ e, r = .error e → e = .badOperand

theorem RefusesOnlyOperand.ite {α : Type} {c : Prop} [Decidable c] {r q : Except RefuseReason α}
    (hr : c → RefusesOnlyOperand r) (hq : ¬ c → RefusesOnlyOperand q) : RefusesOnlyOperand (if c then r else q) :=
  iteInduction (motive := RefusesOnlyOperand) hr hq

theorem refusesOnlyOperand_ok {α : Type} (b : α) : RefusesOnlyOperand (.ok b) := nofun

theorem refusesOnlyOperand_error {α : Type} : RefusesOnlyOperand (.error .badOperand : Except RefuseReason α) := by
  rintro e ⟨⟩; rfl

theorem asNat_refusesOnlyOperand (v : Int) : RefusesOnlyOperand (asNat v) :=
  .ite (fun _ => refusesOnlyOperand_ok _) fun _ => refusesOnlyOperand_error

theorem asFlag_refusesOnlyOperand (v : Int) : RefusesOnlyOperand (asFlag v) :=
  .ite (fun _ => refusesOnlyOperand_ok _) fun _ =>
    .ite (fun _ => refusesOnlyOperand_ok _) fun _ => refusesOnlyOperand_error

theorem asMask_refusesOnlyOperand (v : Int) : RefusesOnlyOperand (asMask v) :=
  .ite (fun _ => refusesOnlyOperand_ok _) fun _ => refusesOnlyOperand_error

theorem asIrq_refusesOnlyOperand (v : Int) : RefusesOnlyOperand (asIrq v) := by
  unfold asIrq
  iterate 5 refine .ite (fun _ => refusesOnlyOperand_ok _) fun _ => ?_
  exact refusesOnlyOperand_error

theorem asBytes_refusesOnlyOperand (xs : List Int) : RefusesOnlyOperand (asBytes xs) := by
  induction xs with
  | nil => exact refusesOnlyOperand_ok _
  | cons v vs ih =>
    refine .ite (fun _ => ?_) fun _ => refusesOnlyOperand_error
    split
    · exact refusesOnlyOperand_ok _
    · rename_i r hr
      rintro e ⟨⟩
      exact ih r hr

theorem withInt_refusesOnlyOperand {α : Type} {f : Int → Except RefuseReason α} (hf : ∀ v, RefusesOnlyOperand (f v))
    (k : α → Instr) (x : Operand) : RefusesOnlyOperand (withInt f k x) := by
  unfold withInt
  split
  · split
    · exact refusesOnlyOperand_ok _
    · rename_i v _ r hr
      rintro e ⟨⟩
      exact hf v r hr
  · exact refusesOnlyOperand_error

theorem withNone_refusesOnlyOperand (i : Instr) (x : Operand) : RefusesOnlyOperand (withNone i x) := by
  unfold withNone
  split
  · exact refusesOnlyOperand_ok _
  · exact refusesOnlyOperand_error

theorem withConfig_refusesOnlyOperand (x : Operand) : RefusesOnlyOperand (withConfig x) := by
  unfold withConfig
  split
  · split
    · exact refusesOnlyOperand_ok _
    · exact refusesOnlyOperand_error
  · exact refusesOnlyOperand_error

theorem withBytes_refusesOnlyOperand (x : Operand) : RefusesOnlyOperand (withBytes x) := by
  unfold withBytes
  split
  · split
    · exact refusesOnlyOperand_ok _
    · rename_i xs _ r hr
      rintro e ⟨⟩
      exact asBytes_refusesOnlyOperand xs r hr
  · exact refusesOnlyOperand_error

/-- The commands of 0x2..0xD are refused for their operand alone (R84). -/
theorem decodeCommand_refusesOnlyOperand {c : BitVec 4} (hc : 2 ≤ c.toNat ∧ c.toNat ≤ 0xD) (x : Operand) :
    RefusesOnlyOperand (decodeCommand c x) := by
  unfold decodeCommand
  iterate 4 refine .ite (fun _ => withInt_refusesOnlyOperand asNat_refusesOnlyOperand _ x) fun _ => ?_
  refine .ite (fun _ => withInt_refusesOnlyOperand asFlag_refusesOnlyOperand _ x) fun _ => ?_
  refine .ite (fun _ => withNone_refusesOnlyOperand _ x) fun _ => ?_
  refine .ite (fun _ => withInt_refusesOnlyOperand asMask_refusesOnlyOperand _ x) fun _ => ?_
  refine .ite (fun _ => withInt_refusesOnlyOperand asIrq_refusesOnlyOperand _ x) fun _ => ?_
  refine .ite (fun _ => withConfig_refusesOnlyOperand x) fun _ => ?_
  refine .ite (fun _ => withNone_refusesOnlyOperand _ x) fun _ => ?_
  refine .ite (fun _ => withBytes_refusesOnlyOperand x) fun _ => ?_
  refine .ite (fun _ => withNone_refusesOnlyOperand _ x) fun _ => ?_
  bv_omega

/-- What the decoder refuses: a command of 0x2..0xD with a nonzero address field, or an operand (R83, R84). -/
theorem decode_error_cases {m : Mode} {t : Txn} {r : RefuseReason} (h : decode m t = .error r) :
    (r = .nonzeroAddrField ∧ 2 ≤ t.cmd.toNat ∧ t.cmd.toNat ≤ 0xD ∧ t.addr ≠ 0x0000#16) ∨
    (r = .badOperand ∧ (t.cmd.toNat < 2 ∨ t.cmd.toNat ≤ 0xD ∧ t.addr = 0x0000#16)) := by
  unfold decode at h
  split at h
  · cases h
  split at h
  · cases h
  split at h
  · exact .inr ⟨withNone_refusesOnlyOperand _ _ r h, .inl (by bv_omega)⟩
  split at h
  · exact .inr ⟨withInt_refusesOnlyOperand refusesOnlyOperand_ok _ _ r h, .inl (by bv_omega)⟩
  have hc : 2 ≤ t.cmd.toNat ∧ t.cmd.toNat ≤ 0xD := by bv_omega
  split at h
  · cases h
    exact .inl ⟨rfl, hc.1, hc.2, ‹_›⟩
  · exact .inr ⟨decodeCommand_refusesOnlyOperand hc _ r h, .inr ⟨hc.2, not_not.mp ‹_›⟩⟩

/-- The decoder refuses an operand exactly when it has not its command's type, where the address field is one the command
takes (R82, R84). -/
theorem decode_badOperand_iff {m : Mode} {t : Txn} (hc : t.cmd.toNat < 2 ∨ t.cmd.toNat ≤ 0xD ∧ t.addr = 0x0000#16) :
    decode m t = .error .badOperand ↔ ¬ OperandFits t.cmd.toNat t.operand := by
  constructor
  · intro h hx
    obtain ⟨i, hi⟩ := exists_standsFor m hc hx
    cases h.symm.trans (decode_eq_ok_iff.mpr hi)
  · intro hx
    cases h : decode m t with
    | ok i =>
      obtain ⟨-, -, rfl⟩ := decode_eq_ok_iff.mp h
      exact absurd (encode_operandFits i) hx
    | error r =>
      rcases decode_error_cases h with ⟨-, hlo, -, ha⟩ | ⟨rfl, -⟩
      · exact absurd (hc.resolve_left (by omega)).2 ha
      · rfl

end Sys2Proof
end

section
/-! PROOF. Refusals (R84, R301): which rows refuse by their own rule (R84, R247, R278), that no other row does, and what a
step refuses. -/

namespace Sys2Proof.Machine

/-! ## The rows that refuse -/

/-- The refusals of a row's own rule: SET_BUTTONS (R278), the reserved command (R84) and an illegal divisor (R247). -/
inductive RowRefuses : Instr → RefuseReason → Prop where
  | buttons (a : Addr) (x : Operand) : RowRefuses (.setButtons a x) .unmodelledButtons
  | reserved (a : Addr) (x : Operand) : RowRefuses (.reserved a x) .reservedCmd
  | divisor (en : Bool) {n : Nat} (h : ¬ PowerOfTwoTo1024 n) : RowRefuses (.timerConfigure en n) .badOperand

/-- The legal divisors are the powers of two from 1 to 1024 (R31, R247). -/
theorem legalDivisor_iff (n : Nat) : legalDivisor n = true ↔ PowerOfTwoTo1024 n := by
  have hpow : legalDivisors = (List.range 11).map (2 ^ ·) := rfl
  rw [legalDivisor, List.contains_iff_mem, hpow, List.mem_map]
  simp only [PowerOfTwoTo1024, List.mem_range, Nat.lt_succ_iff, eq_comm]

theorem exec_timerConfigure_legal (en : Bool) {n : Nat} (h : PowerOfTwoTo1024 n) (s : State) :
    exec (.timerConfigure en n) s = .next ((s.withTimer en n).withReply .done) :=
  if_pos ((legalDivisor_iff n).mpr h)

/-- A row that refuses records the refusal with its word and changes nothing else (R301). -/
theorem exec_of_rowRefuses {i : Instr} {r : RefuseReason} (h : RowRefuses i r) (s : State) :
    exec i s = .next (refuse r (encode i).word s) := by
  cases h with
  | buttons a x => rfl
  | reserved a x => rfl
  | divisor en hn => exact if_neg (mt (legalDivisor_iff _).mp hn)

/-! ## The rows that do not -/

/-- The access does not end in a refusal. -/
def NoRefusal {α : Type} (x : Except Fault α) : Prop := ∀ r w, x ≠ .error (.refused r w)

theorem regionRead_noRefusal (r : RegionId) (off : Nat) (s : State) : NoRefusal (regionRead r off s) := by
  rcases regionRead_cases r off s with ⟨-, e⟩ | ⟨-, e⟩ <;> rw [e] <;> nofun

theorem readEramGated_noRefusal (g : Bool) (k : Nat) (a : Addr) (s : State) : NoRefusal (readEramGated g k a s) := by
  unfold readEramGated
  split
  · exact regionRead_noRefusal _ _ s
  · nofun

theorem storeByte_noRefusal (r : RegionId) (off : Nat) (b : Byte) (s : State) : NoRefusal (storeByte r off b s) := by
  by_cases h : off < r.len s.variant
  · rw [storeByte_ok h]; nofun
  · rw [storeByte, regionWrite, if_neg h]; nofun

theorem withData_noRefusal {v : Int} {rule : Byte → Except Fault State} (h : ∀ b, NoRefusal (rule b)) :
    NoRefusal (withData v rule) := by
  by_cases hv : ByteValue v
  · rw [withData_ok hv]; exact h _
  · rw [withData_error hv]; nofun

theorem writeWindow_noRefusal (w : Window) (r : RegionId) (a : Addr) (v : Int) (s : State) :
    NoRefusal (writeWindow w r a v s) := withData_noRefusal fun b => storeByte_noRefusal r _ b s

theorem writeGap_noRefusal (a : Addr) (v : Int) : NoRefusal (writeGap a v) := withData_noRefusal fun _ => nofun

theorem writeBankReg_noRefusal (v : Int) (s : State) (effect : Byte → State → State) :
    NoRefusal (writeBankReg v s effect) := withData_noRefusal fun _ => nofun

theorem writeIoThen_noRefusal (off : Nat) (v : Int) (s : State) (effect : Byte → State → State) :
    NoRefusal (writeIoThen off v s effect) :=
  withData_noRefusal fun b r w h => by
    split at h
    · cases h
    · rename_i f hf
      cases h
      exact storeByte_noRefusal _ _ b s r w hf

theorem commitEram_noRefusal (k off : Nat) (b : Byte) (s : State) : NoRefusal (commitEram k off b s) := by
  intro r w h
  unfold commitEram at h
  split at h
  · cases h
  · rename_i f hf
    cases h
    exact storeByte_noRefusal _ _ b s r w hf

theorem writeEramGated_noRefusal (g : Bool) (k : Nat) (a : Addr) (v : Int) (s : State) :
    NoRefusal (writeEramGated g k a v s) :=
  withData_noRefusal fun b => by
    split
    · exact commitEram_noRefusal k _ b s
    · nofun

/-- Where the result answers a refusal, it is one of the row's own rule, recorded with the row's word (R84). -/
def RefusesByRow (i : Instr) (x : Result) : Prop :=
  ∀ t r w, x = .next t → t.reply = some (.fault (.refused r w)) → RowRefuses i r ∧ w = (encode i).word

theorem refusesByRow_finishRead (i : Instr) {x : ReadResult} (hx : NoRefusal x) (s : State) :
    RefusesByRow i (finishRead x s) := by
  cases x with
  | ok p => rintro t r w ⟨⟩ ⟨⟩
  | error f => rintro t r w ⟨⟩ ⟨⟩; exact absurd rfl (hx r w)

theorem refusesByRow_finishWrite (i : Instr) {x : Except Fault State} (hx : NoRefusal x) (s : State) :
    RefusesByRow i (finishWrite x s) := by
  cases x with
  | ok u => rintro t r w ⟨⟩ ⟨⟩
  | error f => rintro t r w ⟨⟩ ⟨⟩; exact absurd rfl (hx r w)

/-- A command that replies anything but a fault. -/
theorem refusesByRow_reply (i : Instr) (s : State) {q : Reply} (hq : ∀ f, q ≠ .fault f) :
    RefusesByRow i (.next (s.withReply q)) := by
  rintro t r w ⟨⟩ ⟨⟩
  exact absurd rfl (hq _)

theorem refusesByRow_of_rowRefuses {i : Instr} {r : RefuseReason} (h : RowRefuses i r) (s : State) :
    RefusesByRow i (exec i s) := by
  rw [exec_of_rowRefuses h s]
  rintro t r w ⟨⟩ ⟨⟩
  exact ⟨h, rfl⟩

/-- No row refuses but by its own rule (R84, R247, R278). -/
theorem exec_refusesByRow (i : Instr) (s : State) : RefusesByRow i (exec i s) := by
  unfold exec
  cases i
  case setButtons a x => exact refusesByRow_of_rowRefuses (.buttons a x) s
  case reserved a x => exact refusesByRow_of_rowRefuses (.reserved a x) s
  case timerConfigure en n =>
    change RefusesByRow _ (exec (.timerConfigure en n) s)
    by_cases h : PowerOfTwoTo1024 n
    · rw [exec_timerConfigure_legal en h]
      exact refusesByRow_reply _ _ nofun
    · exact refusesByRow_of_rowRefuses (.divisor en h) s
  case rdBoot | rdRom0 | rdRomx | rdVram | rdWram | rdEchoE000 | rdEchoF000 | rdEchoF800 | rdEchoFc00 | rdOamFe00
      | rdOamFe80 | rdIo | rdHram => exact refusesByRow_finishRead _ (regionRead_noRefusal _ _ s) s
  case rdEramNone | rdEramMbc1 | rdEramMbc3 => exact refusesByRow_finishRead _ (readEramGated_noRefusal _ _ _ s) s
  case rdGapFea0 | rdGapFec0 => exact refusesByRow_finishRead _ (nofun : NoRefusal (readGap _)) s
  case wrBoot | wrVram | wrWram | wrEchoE000 | wrEchoF000 | wrEchoF800 | wrEchoFc00 | wrOamFe00 | wrOamFe80 | wrIo
      | wrHram => exact refusesByRow_finishWrite _ (writeWindow_noRefusal _ _ _ _ s) s
  case wrGapFea0 | wrGapFec0 => exact refusesByRow_finishWrite _ (writeGap_noRefusal _ _) s
  case wrEramNone | wrEramMbc1 | wrEramMbc3 => exact refusesByRow_finishWrite _ (writeEramGated_noRefusal _ _ _ _ s) s
  case wrIoTac | wrIoDma | wrIoBootoff => exact refusesByRow_finishWrite _ (writeIoThen_noRefusal _ _ s _) s
  case wrRomNone | wrMbc1Ramen | wrMbc1Romlo | wrMbc1Hi | wrMbc1Mode | wrMbc3Ramen | wrMbc3Romb | wrMbc3Ramen2
      | wrMbc3Ramb => exact refusesByRow_finishWrite _ (writeBankReg_noRefusal _ s _) s
  case ramImport bytes =>
    simp only [execRamImport]
    split
    · exact refusesByRow_reply _ _ nofun
    · rintro t r w ⟨⟩ ⟨⟩
  case sysStep | busStep | ppuStep | timerTick | setBootOverlay | irqRead | irqClear | irqRaise | ramExport
      | frameRead => exact refusesByRow_reply _ _ nofun

/-! ## The statements -/

/-- Settles O30: the two refused commands and an illegal divisor refuse by their rows' rules; the rest is the commands' own
equations. -/
theorem hostCommandEffects : Obligations.HostCommandEffects := fun s =>
  ⟨fun _ => rfl, rfl, fun en _ h => exec_timerConfigure_legal en h s, fun en _ h => exec_of_rowRefuses (.divisor en h) s,
    fun a x => exec_of_rowRefuses (.buttons a x) s, fun a x => exec_of_rowRefuses (.reserved a x) s⟩

/-- Settles O6: a refused transaction is recorded, and every row performs a fault or an effect (R301). -/
theorem everyStepAnswersNext : Obligations.EveryStepAnswersNext := by
  intro s
  cases hq : s.inbox with
  | nil => exact ⟨s, step_of_inbox_nil hq⟩
  | cons x rest =>
    cases hd : decode s.mode x with
    | error r => exact ⟨_, step_of_decode_error hq hd⟩
    | ok i =>
      obtain ⟨-, hsel, -⟩ := decode_eq_ok_iff.mp hd
      rw [step_of_decode_ok hq hd]
      rcases exec_performs (s := s.withInbox rest) hsel with ⟨_, h⟩ | ⟨_, _, -, -, h⟩
      · exact ⟨_, h⟩
      · exact ⟨_, h⟩

/-- A transaction whose row refuses is recorded with its word (R301). -/
theorem step_of_rowRefuses {s : State} {x : Txn} {rest : List Txn} {i : Instr} {r : RefuseReason}
    (hq : s.inbox = x :: rest) (hi : i.StandsFor s.mode x) (hr : RowRefuses i r) :
    step s = .next (takeFault (.refused r x.word) (s.withInbox rest)) := by
  have he : encode i = x := hi.2.2
  rw [step_of_decode_ok hq (decode_eq_ok_iff.mpr hi), exec_of_rowRefuses hr, he, refuse]

/-- Settles O7: the reserved command and SET_BUTTONS are refused by their rows, the rest by the decoder. -/
theorem refusedTransactionsRecordTheirReason : Obligations.RefusedTransactionsRecordTheirReason := by
  refine fun s t rest hq => ⟨fun hc => ?_, fun hc => ?_, fun hlo hhi ha => ?_, fun hc hx => ?_⟩
  · have he : encode (.reserved t.addr t.operand) = t := (Txn.eq_of_fields hc rfl rfl).symm
    exact step_of_rowRefuses hq ⟨rfl, rfl, he⟩ (.reserved t.addr t.operand)
  · have he : encode (.setButtons t.addr t.operand) = t := (Txn.eq_of_fields hc rfl rfl).symm
    exact step_of_rowRefuses hq ⟨rfl, rfl, he⟩ (.buttons t.addr t.operand)
  · exact step_of_decode_error hq ((decode_command s.mode ⟨hlo, hhi⟩).trans (if_pos ha))
  · exact step_of_decode_error hq ((decode_badOperand_iff hc).mpr hx)

/-- Settles O8: a refusal is the decoder's, or it is of a row that refuses by its own rule. -/
theorem nothingElseIsRefused : Obligations.NothingElseIsRefused := by
  intro s t x rest r w hq hstep hreply
  cases hd : decode s.mode x with
  | error e =>
    rw [step_of_decode_error hq hd] at hstep
    cases hstep
    cases hreply
    refine ⟨rfl, ?_⟩
    rcases decode_error_cases hd with haddr | ⟨rfl, hc⟩
    · exact .inr (.inr (.inl haddr))
    · exact .inr (.inr (.inr (.inl ⟨rfl, (decode_badOperand_iff hc).mp hd⟩)))
  | ok i =>
    rw [step_of_decode_ok hq hd] at hstep
    obtain ⟨hrow, rfl⟩ := exec_refusesByRow i _ t r w hstep hreply
    obtain ⟨-, -, rfl⟩ := decode_eq_ok_iff.mp hd
    refine ⟨rfl, ?_⟩
    cases hrow with
    | buttons a y => exact .inr (.inl ⟨rfl, Txn.cmd_mkWord _ _ _⟩)
    | reserved a y => exact .inl ⟨rfl, Txn.cmd_mkWord _ _ _⟩
    | divisor en hn =>
      refine .inr (.inr (.inr (.inr ⟨rfl, Txn.cmd_mkWord _ _ _, en.toNat, _, ?_, hn⟩)))
      cases en <;> rfl

end Sys2Proof.Machine
end

section
/-! PROOF. The row that a bus address decodes to (R85): the one row whose block holds the address and whose state
condition the mode meets. -/

namespace Sys2Proof.Machine

/-- Outside the enabled overlay the rows of the ROM windows are tried (R56, R85). -/
theorem mode_shadows_eq_false {s : State} {a : Addr} (h : s.bootEnabled = false ∨ 0x0100 ≤ a.toNat) :
    s.mode.shadows a = false := by
  rcases h with h | h
  · rw [Mode.shadows, State.mode_bootEnabled, h, Bool.false_and]
  · exact s.mode.shadows_eq_false h

/-- The READ row of an address in the block of a row that the mode selects. -/
theorem decodeRead_eq_of_block {m : Mode} {i : Instr} {lo hi : Nat} {a : Addr} (hw : i.wellFormed = inBlock lo hi a)
    (ha : InRange lo hi a) (hs : i.selectedIn m = true) (he : encode i = ⟨mkWord 0x0#4 a, .none⟩) :
    decodeRead m a = i :=
  (Instr.standsFor_of_block hw ha.1 ha.2 hs he).unique (decodeRead_standsFor m a)

theorem decodeWrite_eq_of_standsFor {m : Mode} {i : Instr} {a : Addr} {v : Int}
    (h : i.StandsFor m ⟨mkWord 0x1#4 a, .int v⟩) : decodeWrite m a v = i :=
  h.unique (decodeWrite_standsFor m a v)

/-- The WRITE row of an address in the block of a row that the mode selects. -/
theorem decodeWrite_eq_of_block {m : Mode} {i : Instr} {lo hi : Nat} {a : Addr} {v : Int}
    (hw : i.wellFormed = inBlock lo hi a) (ha : InRange lo hi a) (hs : i.selectedIn m = true)
    (he : encode i = ⟨mkWord 0x1#4 a, .int v⟩) : decodeWrite m a v = i :=
  decodeWrite_eq_of_standsFor (Instr.standsFor_of_block hw ha.1 ha.2 hs he)

/-- The WRITE row of an IO byte without a side effect (R121). -/
theorem decodeWrite_io (m : Mode) {a : Addr} (v : Int) (ha : InRange 0xFF00 0xFF7F a) (htac : a ≠ 0xFF07#16)
    (hdma : a ≠ 0xFF46#16) (hboot : a ≠ 0xFF50#16) : decodeWrite m a v = .wrIo a v := by
  refine decodeWrite_eq_of_standsFor ⟨?_, rfl, rfl⟩
  simp only [Instr.wellFormed, Bool.and_eq_true, inBlock_iff, bne_iff_ne]
  exact ⟨⟨⟨ha, htac⟩, hdma⟩, hboot⟩

/-- The offset of an address of a block inside a window is below the window's length (R53). -/
theorem Window.offset_lt (w : Window) {lo hi : Nat} {a : Addr} (h : InRange lo hi a)
    (hin : w.start ≤ lo ∧ hi < w.start + w.length) : w.offset a < w.length := by
  obtain ⟨hlo, hhi⟩ := h
  rw [Window.offset]
  omega

end Sys2Proof.Machine
end

section
/-! PROOF. The READ rows (R102 to R112): a window outside the ROM answers its stored byte, and a ROM window a byte of the
image or a fresh draw (R142). -/

namespace Sys2Proof.Machine

/-! ## Region reads -/

/-- A READ of a window whose region is outside the ROM answers the stored byte and changes nothing else. -/
theorem finishRead_stored (s : State) (w : Window) (r : RegionId) {a : Addr} (hoff : w.offset a < r.len s.variant)
    (hr : ∀ k, r ≠ .rom k) :
    finishRead (regionRead r (w.offset a) s) s = .next (s.withReply (.byte (s.byteAt r (w.offset a)))) := by
  have hload : s.load r (w.offset a) = (s.byteAt r (w.offset a), s) :=
    (load_cases s r _).resolve_right fun ⟨⟨k, hk⟩, _⟩ => hr k hk
  rw [regionRead_ok hoff, hload, finishRead_ok]

/-- A READ of position `p` of the ROM answers the image's byte, or at or beyond the image a fresh draw (R142). -/
theorem finishRead_rom {s : State} {b off p : Nat} (hb : b < Config.romBanks s.variant) (hoff : off < 0x4000)
    (hp : p = b * 0x4000 + off) :
    (p < s.romLen → finishRead (regionRead (.rom b) off s) s = .next (s.withReply (.byte (s.rom.read p)))) ∧
    (s.romLen ≤ p → finishRead (regionRead (.rom b) off s) s =
      .next ((s.withDraws (s.draws + 1)).withReply (.byte (Config.romFill s.draws)))) := by
  have hlen : off < (RegionId.rom b).len s.variant := hoff.trans_eq (if_pos hb).symm
  rw [regionRead_ok hlen, State.load, hp]
  refine ⟨fun h => ?_, fun h => ?_⟩
  · rw [if_pos h]; rfl
  · rw [if_neg (Nat.not_lt.mpr h)]; rfl

/-- Bank 0 exists under every variant (R142). -/
theorem romBanks_pos (v : Variant) : 0 < Config.romBanks v := by cases v <;> decide

/-- The bank in effect in RAM banking mode is the register's low five bits (R144). -/
theorem effectiveRomBank_eq (s : State) :
    effectiveRomBank s = (match s.variant, s.mbc1Mode with
      | .none, _ => 1
      | .mbc1, .highRom => s.romBank.toNat
      | .mbc1, .ram => s.romBank.toNat % 32
      | .mbc3, _ => s.romBank.toNat) := by
  have hlow : (s.romBank &&& 0x1F#7).toNat = s.romBank.toNat % 32 := Nat.and_two_pow_sub_one_eq_mod _ 5
  unfold effectiveRomBank
  cases s.variant with
  | none | mbc3 => rfl
  | mbc1 =>
    cases s.mbc1Mode with
    | highRom => rfl
    | ram => exact hlow

/-! ## The statements -/

/-- Settles O13: each block lies in its window, whose region is as long as the window. The reads are elaborated without
the expected type, `( :)`: unified with the row first, the offset would be counted down from the address. -/
theorem plainReadsReturnTheStoredByte : Obligations.PlainReadsReturnTheStoredByte := by
  refine fun s a => ⟨fun hb h => ⟨decodeRead_eq_of_block rfl h hb rfl, ?_⟩,
    fun h => ⟨decodeRead_eq_of_block rfl h rfl rfl, ?_⟩, fun h => ⟨decodeRead_eq_of_block rfl h rfl rfl, ?_⟩,
    fun h => ⟨decodeRead_eq_of_block rfl h rfl rfl, ?_⟩, fun h => ⟨decodeRead_eq_of_block rfl h rfl rfl, ?_⟩,
    fun h => ⟨decodeRead_eq_of_block rfl h rfl rfl, ?_⟩, fun h => ⟨decodeRead_eq_of_block rfl h rfl rfl, ?_⟩⟩
  · exact finishRead_stored s .rom0 .boot (Nat.lt_succ_of_le h.2) nofun
  · exact (finishRead_stored s .vram .vram (Window.vram.offset_lt h (by decide)) nofun :)
  · exact (finishRead_stored s .wram .wram (Window.wram.offset_lt h (by decide)) nofun :)
  · exact (finishRead_stored s .oam .oam (Window.oam.offset_lt h (by decide)) nofun :)
  · exact (finishRead_stored s .oam .oam (Window.oam.offset_lt h (by decide)) nofun :)
  · exact (finishRead_stored s .io .io (Window.io.offset_lt h (by decide)) nofun :)
  · exact (finishRead_stored s .hram .hram (Window.hram.offset_lt h (by decide)) nofun :)

/-- Settles O14: the four rows share one read, of working memory at the mirror's offset. -/
theorem mirrorReadsWorkingMemory : Obligations.MirrorReadsWorkingMemory := by
  intro s a h
  have hoff : Window.echo.offset a < 0x1E00 := Window.echo.offset_lt h (by decide)
  have hread : finishRead (readEcho a s) s = .next (s.withReply (.byte (s.wram.read (a.toNat - 0xE000)))) :=
    finishRead_stored s .echo .wram (hoff.trans (by decide : 0x1E00 < 0x2000)) nofun
  refine ⟨hoff, ?_, hread, hread, hread, hread⟩
  obtain ⟨hlo, hhi⟩ := h
  split_ifs
  all_goals exact decodeRead_eq_of_block rfl ⟨by omega, by omega⟩ rfl rfl

/-- Settles O15: both windows read the ROM, at bank 0 and at the bank in effect. -/
theorem romReadsReturnTheSelectedBank : Obligations.RomReadsReturnTheSelectedBank := by
  refine ⟨fun s a h hout => ⟨?_, ?_⟩, fun s a b p h hb hp => ⟨?_, ?_⟩⟩
  · have hsel : (Instr.rdRom0 a).selectedIn s.mode = true := by
      rw [Instr.selectedIn, mode_shadows_eq_false hout, Bool.not_false]
    exact decodeRead_eq_of_block rfl h hsel rfl
  · exact finishRead_rom (romBanks_pos _) (Window.rom0.offset_lt h (by decide)) (Nat.zero_add _).symm
  · exact decodeRead_eq_of_block rfl h rfl rfl
  · have hbank : b = effectiveRomBank s := hb.trans (effectiveRomBank_eq s).symm
    subst hbank
    exact finishRead_rom (effectiveRomBank_lt s) (Window.romx.offset_lt h (by decide)) hp

/-- Settles O18: the decoded row performs the bus read, whose answer ends the READ. -/
theorem engineReadAgreesWithTheDecodedRow : Obligations.EngineReadAgreesWithTheDecodedRow := by
  intro s a
  rw [decodeRead_performsBusRead s a]
  cases memRead a s with
  | ok p => rfl
  | error f => rfl

end Sys2Proof.Machine
end

section
/-! PROOF. The WRITE rows of the router (R113, R115 to R125): the value check comes first (R101), and an in-range byte is
stored in the region of the row's window, with the one side effect of TAC, DMA and BOOT_OFF. -/

namespace Sys2Proof.Machine

/-! ## The value check -/

/-- The row faults on this value before anything else (R101, R304). -/
def FaultsOnValue (s : State) (v : Int) (i : Instr) : Prop := exec i s = .next (takeFault (.valueOutOfRange v) s)

/-- The rows of a decode are tried one after the other (R85). -/
theorem FaultsOnValue.ite {s : State} {v : Int} {c : Prop} [Decidable c] {i j : Instr} (hi : c → FaultsOnValue s v i)
    (hj : ¬ c → FaultsOnValue s v j) : FaultsOnValue s v (if c then i else j) :=
  iteInduction (motive := FaultsOnValue s v) hi hj

/-- A row whose rule begins with the value check. -/
theorem faultsOnValue_of_withData {i : Instr} {v : Int} {s : State} (hv : ¬ ByteValue v)
    {rule : Byte → Except Fault State} (hrow : exec i s = finishWrite (withData v rule) s) : FaultsOnValue s v i := by
  rw [FaultsOnValue, hrow, withData_error hv, finishWrite_error]

/-- Every WRITE row of the ROM windows checks the value first. -/
theorem decodeRomWrite_faultsOnValue (m : Mode) (a : Addr) (s : State) {v : Int} (hv : ¬ ByteValue v) :
    FaultsOnValue s v (decodeRomWrite m a v) := by
  unfold decodeRomWrite
  split
  · exact faultsOnValue_of_withData hv rfl
  all_goals
    iterate 3
      refine .ite (fun _ => faultsOnValue_of_withData hv rfl) fun _ => ?_
    exact faultsOnValue_of_withData hv rfl

/-- Every WRITE row of the IO block checks the value first. -/
theorem decodeIoWrite_faultsOnValue (a : Addr) (s : State) {v : Int} (hv : ¬ ByteValue v) :
    FaultsOnValue s v (decodeIoWrite a v) := by
  unfold decodeIoWrite
  iterate 3
    refine .ite (fun _ => faultsOnValue_of_withData hv rfl) fun _ => ?_
  exact faultsOnValue_of_withData hv rfl

/-- Settles O11: every row that a WRITE decodes to begins with the value check. -/
theorem writeValueOutsideByteFaults : Obligations.WriteValueOutsideByteFaults := by
  intro s a v hv
  change FaultsOnValue s v (decodeWrite s.mode a v)
  unfold decodeWrite
  refine .ite (fun _ => faultsOnValue_of_withData hv rfl) fun _ => ?_
  refine .ite (fun _ => decodeRomWrite_faultsOnValue s.mode a s hv) fun _ => ?_
  refine .ite (fun _ => faultsOnValue_of_withData hv rfl) fun _ => ?_
  refine .ite (fun _ => ?_) fun _ => ?_
  · split <;> exact faultsOnValue_of_withData hv rfl
  iterate 9
    refine .ite (fun _ => faultsOnValue_of_withData hv rfl) fun _ => ?_
  exact .ite (fun _ => decodeIoWrite_faultsOnValue a s hv) fun _ => faultsOnValue_of_withData hv rfl

/-! ## The gap -/

theorem finishWrite_writeGap {v : Int} (hv : ByteValue v) (a : Addr) (s : State) :
    finishWrite (writeGap a v) s = .next (takeFault (.invalidAddress a .write) s) := by
  rw [writeGap, withData_ok hv, finishWrite_error]

/-- Settles O12: the rules of the gap rows fault, and their two blocks make up the gap. -/
theorem gapAccessFaults : Obligations.GapAccessFaults := by
  refine fun s a v hv => ⟨rfl, rfl, finishWrite_writeGap hv a s, finishWrite_writeGap hv a s, fun ⟨hlo, hhi⟩ => ?_⟩
  split_ifs
  all_goals
    exact ⟨decodeRead_eq_of_block rfl ⟨by omega, by omega⟩ rfl rfl,
      decodeWrite_eq_of_block rfl ⟨by omega, by omega⟩ rfl rfl⟩

/-! ## Stores -/

/-- The reply is no stored byte and no register. -/
theorem StoresByte.withReply {r : RegionId} {off : Nat} {b : Byte} {s t : State} (h : StoresByte r off b s t)
    (q : Reply) : StoresByte r off b s (t.withReply q) := h

/-- An in-range write inside a region ends with its store (R51, R101). -/
theorem finishWrite_writeWindow {w : Window} {r : RegionId} {a : Addr} {v : Int} {s : State} (hv : ByteValue v)
    (hoff : w.offset a < r.len s.variant) :
    finishWrite (writeWindow w r a v s) s = .next ((s.store r (w.offset a) (BitVec.ofInt 8 v)).withReply .done) := by
  rw [writeWindow, withData_ok hv, storeByte_ok hoff, finishWrite_ok]

/-- An in-range write inside a read/write region is done and stores its byte there, and nothing else. -/
theorem finishWrite_stores {w : Window} {r : RegionId} {a : Addr} {v : Int} {s : State} (hv : ByteValue v)
    (hr : r.readOnly = false) (hoff : w.offset a < r.len s.variant) :
    ∃ t, finishWrite (writeWindow w r a v s) s = .next t ∧ t.reply = some .done ∧
      StoresByte r (w.offset a) (BitVec.ofInt 8 v) s t :=
  ⟨_, finishWrite_writeWindow hv hoff, rfl, (store_storesByte s _ hr hoff).withReply .done⟩

/-- Settles O20: each block lies in its window, whose region is as long as the window. -/
theorem plainWritesStoreOneByte : Obligations.PlainWritesStoreOneByte := by
  refine fun s a v hv => ⟨fun h => ⟨decodeWrite_eq_of_block rfl h rfl rfl, ?_⟩,
    fun h => ⟨decodeWrite_eq_of_block rfl h rfl rfl, ?_⟩, fun h => ⟨decodeWrite_eq_of_block rfl h rfl rfl, ?_⟩,
    fun h => ⟨decodeWrite_eq_of_block rfl h rfl rfl, ?_⟩,
    fun h htac hdma hboot => ⟨decodeWrite_io s.mode v h htac hdma hboot, ?_⟩,
    fun h => ⟨decodeWrite_eq_of_block rfl h rfl rfl, ?_⟩⟩
  · exact finishWrite_stores hv rfl (Window.vram.offset_lt h (by decide))
  · exact finishWrite_stores hv rfl (Window.wram.offset_lt h (by decide))
  · exact finishWrite_stores hv rfl (Window.oam.offset_lt h (by decide))
  · exact finishWrite_stores hv rfl (Window.oam.offset_lt h (by decide))
  · exact finishWrite_stores hv rfl (Window.io.offset_lt h (by decide))
  · exact finishWrite_stores hv rfl (Window.hram.offset_lt h (by decide))

/-- Settles O21: the four rows share one write, of working memory at the mirror's offset. -/
theorem mirrorWritesWorkingMemory : Obligations.MirrorWritesWorkingMemory := by
  intro s a v hv h
  have hoff : Window.echo.offset a < 0x1E00 := Window.echo.offset_lt h (by decide)
  obtain ⟨t, hwrite, hreply, hstore⟩ :=
    finishWrite_stores (r := .wram) (s := s) hv rfl (hoff.trans (by decide : 0x1E00 < 0x2000))
  refine ⟨?_, t, hwrite, hwrite, hwrite, hwrite, hreply, hstore⟩
  obtain ⟨hlo, hhi⟩ := h
  split_ifs
  all_goals exact decodeWrite_eq_of_block rfl ⟨by omega, by omega⟩ rfl rfl

/-! ## Writes without an effect -/

/-- An in-range write of a bank register ends with its effect (R163). -/
theorem finishWrite_writeBankReg {v : Int} (hv : ByteValue v) (s : State) (effect : Byte → State → State) :
    finishWrite (writeBankReg v s effect) s = .next ((effect (BitVec.ofInt 8 v) s).withReply .done) := by
  rw [writeBankReg, withData_ok hv, finishWrite_ok]

/-- Settles O22: the overlay is a read-only region, and the rule of WR.ROM.NONE changes nothing. -/
theorem overlayAndFixedRomWritesAreIgnored : Obligations.OverlayAndFixedRomWritesAreIgnored := by
  refine fun s a v hv => ⟨fun hb h => ⟨decodeWrite_eq_of_block rfl h hb rfl, ?_⟩, fun hvar h hout => ⟨?_, ?_⟩⟩
  · have hoff : Window.rom0.offset a < RegionId.boot.len s.variant := Nat.lt_succ_of_le h.2
    have hwrite := finishWrite_writeWindow (s := s) hv hoff
    rwa [store_readOnly s _ _ rfl] at hwrite
  · have hsel : (Instr.wrRomNone a v).selectedIn s.mode = true := by
      rw [Instr.selectedIn, State.mode_variant, hvar, mode_shadows_eq_false hout]; rfl
    exact decodeWrite_eq_of_block rfl h hsel rfl
  · exact finishWrite_writeBankReg hv s _

/-! ## Writes with a side effect -/

/-- An in-range write of a register with a side effect ends with the store and then the effect (R122 to R124). -/
theorem finishWrite_writeIoThen {off : Nat} {v : Int} (hv : ByteValue v) (hoff : off < Config.ioLen) (s : State)
    (effect : Byte → State → State) :
    finishWrite (writeIoThen off v s effect) s =
      .next ((effect (BitVec.ofInt 8 v) (s.store .io off (BitVec.ofInt 8 v))).withReply .done) := by
  have hlen : off < RegionId.io.len s.variant := hoff
  rw [writeIoThen, withData_ok hv, storeByte_ok hlen, finishWrite_ok]

/-- A bit of the byte of an in-range value. -/
theorem getLsbD_ofInt {v : Int} (hv : ByteValue v) (i : Nat) :
    (BitVec.ofInt 8 v).getLsbD i = decide (v / 2 ^ i % 2 = 1) := by
  have hbit : (BitVec.ofInt 8 v).getLsbD i = decide ((BitVec.ofInt 8 v).toNat / 2 ^ i % 2 = 1) :=
    Nat.testBit_eq_decide_div_mod_eq
  have hnat := toNat_ofInt hv
  rw [hbit, decide_eq_decide]
  generalize (BitVec.ofInt 8 v).toNat = n at hnat ⊢
  subst hnat
  norm_cast

/-- TAC bits 1:0 of an in-range value (R34, R246). -/
theorem tacDivisor_ofInt {v : Int} (hv : ByteValue v) :
    tacDivisor (BitVec.ofInt 8 v) =
      if v % 4 = 0 then 1024 else if v % 4 = 1 then 16 else if v % 4 = 2 then 64 else 256 := by
  unfold tacDivisor
  split
  all_goals
    rename_i h1 h0
    rw [getLsbD_ofInt hv] at h1 h0
    simp only [decide_eq_true_eq, decide_eq_false_iff_not] at h1 h0
    simp (disch := omega) only [if_pos, if_neg]

/-- Settles O27: each register's row stores its byte in the IO block and has its own effect. -/
theorem ioWritesWithSideEffects : Obligations.IoWritesWithSideEffects := by
  intro s v hv
  have stores (off : Nat) (hoff : off < Config.ioLen) := store_storesByte (r := .io) s (BitVec.ofInt 8 v) rfl hoff
  refine ⟨⟨decodeWrite_eq_of_standsFor ⟨rfl, rfl, rfl⟩, ?_⟩, ⟨decodeWrite_eq_of_standsFor ⟨rfl, rfl, rfl⟩, ?_⟩,
    ⟨decodeWrite_eq_of_standsFor ⟨rfl, rfl, rfl⟩, ?_⟩⟩
  · exact ⟨_, finishWrite_writeIoThen hv (by decide) s timerControl, rfl, getLsbD_ofInt hv 2, tacDivisor_ofInt hv,
      stores Config.tacOff (by decide)⟩
  · exact ⟨_, finishWrite_writeIoThen hv (by decide) s dmaTrigger, rfl, rfl, stores Config.dmaOff (by decide)⟩
  · exact ⟨_, finishWrite_writeIoThen hv (by decide) s fun _ s' => s'.withBootEnabled false, rfl, rfl,
      stores Config.bootOffOff (by decide)⟩

end Sys2Proof.Machine
end

section
/-! PROOF. The rows of the bank controllers (R146 to R164): external RAM behind its gate, and the bank registers, each
under the variant that has it. -/

namespace Sys2Proof.Machine

/-! ## The variant's rows -/

/-- The variant's own rows are selected (R85). -/
theorem mode_variant_beq {s : State} {v : Variant} (h : s.variant = v) : (s.mode.variant == v) = true :=
  beq_iff_eq.mpr h

/-- Outside the enabled overlay the variant's rows of the first ROM window are selected (R56, R85). -/
theorem mode_variant_beq_and_not_shadows {s : State} {v : Variant} {a : Addr} (h : s.variant = v)
    (hout : s.bootEnabled = false ∨ 0x0100 ≤ a.toNat) : (s.mode.variant == v && !s.mode.shadows a) = true := by
  rw [mode_variant_beq h, mode_shadows_eq_false hout]; rfl

/-! ## External RAM reads -/

/-- Bank 0 of external RAM exists under every variant (R147, D21). -/
theorem ramBanks_pos (v : Variant) : 0 < Config.ramBanks v := by cases v <;> decide

theorem ramBanks_mbc1 {s : State} (h : s.variant = .mbc1) : Config.ramBanks s.variant = 4 := by rw [h]; rfl

theorem ramBanks_mbc3 {s : State} (h : s.variant = .mbc3) : Config.ramBanks s.variant = 4 := by rw [h]; rfl

/-- The MBC1 RAM bank in effect by the banking mode (R145). -/
theorem mbc1RamBank_eq (s : State) : mbc1RamBank s = if s.mbc1Mode = .ram then s.ramBank.toNat else 0 := by
  unfold mbc1RamBank
  cases s.mbc1Mode <;> rfl

/-- A READ of a bank that exists: the stored byte, or 0xFF while the gate is closed (R147, R153, R160). -/
theorem finishRead_readEramGated {k : Nat} {a : Addr} {s : State} (g : Bool) (hk : k < Config.ramBanks s.variant)
    (ha : InRange 0xA000 0xBFFF a) :
    finishRead (readEramGated g k a s) s =
      .next (s.withReply (.byte (if g = false then 0xFF#8 else s.byteAt (.eram k) (a.toNat - 0xA000)))) := by
  rw [readEramGated_eq g k a s hk ha, finishRead_ok]
  cases g <;> rfl

/-- Settles O16: each row reads its variant's bank behind its variant's gate, and NONE has no gate. -/
theorem externalRamReadsAreGated : Obligations.ExternalRamReadsAreGated := by
  refine fun s a h => ⟨fun hv => ⟨decodeRead_eq_of_block rfl h (mode_variant_beq hv) rfl, ?_⟩,
    fun hv => ⟨decodeRead_eq_of_block rfl h (mode_variant_beq hv) rfl, ?_⟩,
    fun hv => ⟨decodeRead_eq_of_block rfl h (mode_variant_beq hv) rfl, ?_⟩⟩
  · exact finishRead_readEramGated true (ramBanks_pos _) h
  · have hread := finishRead_readEramGated s.ramEnabled ((mbc1RamBank_lt s).trans_eq (ramBanks_mbc1 hv).symm) h
    have hbyte : s.byteAt (.eram (mbc1RamBank s)) (a.toNat - 0xA000) =
        if s.mbc1Mode = .ram then s.byteAt (.eram s.ramBank.toNat) (a.toNat - 0xA000)
        else s.byteAt (.eram 0) (a.toNat - 0xA000) := by
      rw [mbc1RamBank_eq, apply_ite RegionId.eram, apply_ite (s.byteAt · _)]
    rwa [hbyte] at hread
  · exact finishRead_readEramGated s.ramEnabled (s.ramBank.isLt.trans_eq (ramBanks_mbc3 hv).symm) h

/-! ## External RAM writes -/

/-- A write while the gate is closed is dropped (R154, R161). -/
theorem finishWrite_writeEramGated_closed {g : Bool} (hg : g = false) {v : Int} (hv : ByteValue v) (k : Nat) (a : Addr)
    (s : State) : finishWrite (writeEramGated g k a v s) s = .next (s.withReply .done) := by
  rw [writeEramGated, withData_ok hv, hg, if_neg Bool.false_ne_true, finishWrite_ok]

/-- What a committed external RAM write does: one byte stored in bank `k`, and one event for it (R148, R154, R161,
R164). -/
def CommitsEram (k off : Nat) (b : Byte) (s t : State) : Prop :=
  t.reply = some .done ∧ t.events = s.events ++ [⟨k, off, b⟩] ∧ StoresByte (.eram k) off b s (t.withEvents s.events)

/-- A write of a bank that exists is committed while the gate is open. -/
theorem finishWrite_writeEramGated_open {g : Bool} (hg : g = true) {k : Nat} {a : Addr} {v : Int} {s : State}
    (hv : ByteValue v) (hk : k < Config.ramBanks s.variant) (ha : InRange 0xA000 0xBFFF a) :
    ∃ t, finishWrite (writeEramGated g k a v s) s = .next t ∧
      CommitsEram k (a.toNat - 0xA000) (BitVec.ofInt 8 v) s t := by
  have hoff : Window.eram.offset a < (RegionId.eram k).len s.variant :=
    (Window.eram.offset_lt ha (by decide)).trans_eq (if_pos hk).symm
  have hexec : finishWrite (writeEramGated g k a v s) s = .next ((emit ⟨k, Window.eram.offset a, BitVec.ofInt 8 v⟩
      (s.store (.eram k) (Window.eram.offset a) (BitVec.ofInt 8 v))).withReply .done) := by
    rw [writeEramGated, withData_ok hv, if_pos hg, commitEram, storeByte_ok hoff, finishWrite_ok]
  exact ⟨_, hexec, rfl, rfl, (store_storesByte s _ rfl hoff).withReply .done⟩

/-- Settles O26: each row writes its variant's bank behind its variant's gate, and NONE has no gate. -/
theorem externalRamWritesStoreAndEmit : Obligations.ExternalRamWritesStoreAndEmit := by
  refine fun s a v hv h => ⟨fun hvar => ⟨decodeWrite_eq_of_block rfl h (mode_variant_beq hvar) rfl, ?_⟩,
    fun hvar => ⟨decodeWrite_eq_of_block rfl h (mode_variant_beq hvar) rfl, fun hg => ?_, fun hg k hk => ?_⟩,
    fun hvar => ⟨decodeWrite_eq_of_block rfl h (mode_variant_beq hvar) rfl, fun hg => ?_, fun hg => ?_⟩⟩
  · exact finishWrite_writeEramGated_open rfl hv (ramBanks_pos _) h
  · exact finishWrite_writeEramGated_closed hg hv (mbc1RamBank s) a s
  · obtain rfl : k = mbc1RamBank s := hk.trans (mbc1RamBank_eq s).symm
    exact finishWrite_writeEramGated_open hg hv ((mbc1RamBank_lt s).trans_eq (ramBanks_mbc1 hvar).symm) h
  · exact finishWrite_writeEramGated_closed hg hv s.ramBank.toNat a s
  · exact finishWrite_writeEramGated_open hg hv (s.ramBank.isLt.trans_eq (ramBanks_mbc3 hvar).symm) h

/-! ## The bank registers -/

/-- An in-range value is a byte. -/
theorem exists_byte_of_byteValue {v : Int} (hv : ByteValue v) :
    ∃ b : Byte, v = b.toNat ∧ BitVec.ofInt 8 v = b :=
  ⟨BitVec.ofInt 8 v, (toNat_ofInt hv).symm, rfl⟩

/-- The low nibble of an in-range value enables external RAM (R149). -/
theorem enablesRam_ofInt {v : Int} (hv : ByteValue v) : enablesRam (BitVec.ofInt 8 v) = decide (v % 16 = 10) := by
  obtain ⟨b, rfl, hb⟩ := exists_byte_of_byteValue hv
  have hlow : (b &&& 0x0F#8).toNat = b.toNat % 16 := Nat.and_two_pow_sub_one_eq_mod _ 4
  have hnibble : b &&& 0x0F#8 = 0x0A#8 ↔ (b.toNat : Int) % 16 = 10 := by
    rw [← BitVec.toNat_inj, hlow, BitVec.toNat_ofNat]
    omega
  rw [hb, enablesRam, Bool.eq_iff_iff, beq_iff_eq, decide_eq_true_iff, hnibble]

/-- Settles O23: the enable is written from the low nibble, or flipped under FLIP. -/
theorem ramEnableWrites : Obligations.RamEnableWrites := by
  have sets {s : State} {v : Int} (hv : ByteValue v) : finishWrite (writeBankReg v s setRamEnable) s =
      .next ((s.withRamEnabled (decide (v % 16 = 10))).withReply .done) := by
    rw [finishWrite_writeBankReg hv, setRamEnable, enablesRam_ofInt hv]
  refine fun s a v hv => ⟨fun h hout => ⟨fun hvar => ⟨?_, sets hv⟩, fun hvar => ⟨?_, sets hv⟩⟩,
    fun h hvar => ⟨?_, (finishWrite_writeBankReg hv s setRamEnable2).trans ?_⟩⟩
  · exact decodeWrite_eq_of_block rfl h (mode_variant_beq_and_not_shadows hvar hout) rfl
  · exact decodeWrite_eq_of_block rfl h (mode_variant_beq_and_not_shadows hvar hout) rfl
  · exact decodeWrite_eq_of_block rfl h (mode_variant_beq hvar) rfl
  · unfold setRamEnable2
    cases s.params.ramEn2 with
    | set => rw [setRamEnable, enablesRam_ofInt hv]
    | flip => rfl

/-- A 7-bit register keeps its upper two bits and takes the low five of a request. -/
theorem toNat_upper_or_low (old x : BitVec 7) :
    ((old &&& 0x60#7) ||| (x &&& 0x1F#7)).toNat = old.toNat / 32 * 32 + x.toNat % 32 := by
  have hupper : (old &&& 0x60#7).toNat = 2 ^ 5 * (old.toNat / 32) := by decide +revert
  have hlow : (x &&& 0x1F#7).toNat = x.toNat % 32 := Nat.and_two_pow_sub_one_eq_mod _ 5
  rw [BitVec.toNat_or, hupper, hlow, ← Nat.two_pow_add_eq_or_of_lt (Nat.mod_lt _ (by decide)), Nat.mul_comm]

/-- The bump turns a zero low field into 1 and keeps the upper bits (R150). -/
theorem toNat_bumpBank (r : BitVec 7) :
    (bumpBank r).toNat = r.toNat / 32 * 32 + if r.toNat % 32 = 0 then 1 else r.toNat % 32 := by
  decide +revert

/-- The register after an MBC1 write of its low field (R150). -/
theorem toNat_mbc1LowBank (old : BitVec 7) (b : Byte) :
    (mbc1LowBank old b).toNat = old.toNat / 32 * 32 + if b.toNat % 32 = 0 then 1 else b.toNat % 32 := by
  have hmerge := toNat_upper_or_low old (b.setWidth 7)
  rw [BitVec.toNat_setWidth] at hmerge
  have hlow : (old.toNat / 32 * 32 + b.toNat % 2 ^ 7 % 32) % 32 = b.toNat % 32 := by omega
  rw [mbc1LowBank, toNat_bumpBank, hmerge, hlow]
  omega

/-- The register after an MBC1 write of its upper bits (R151). -/
theorem toNat_mbc1HighBank (old : BitVec 7) (b : Byte) :
    (mbc1HighBank old b).toNat = b.toNat % 4 * 32 + old.toNat % 32 := by
  have hhigh : ∀ x : BitVec 7, ((x &&& 0x03#7) <<< 5).toNat = 2 ^ 5 * (x.toNat % 4) := by decide
  have hlow : (old &&& 0x1F#7).toNat = old.toNat % 32 := Nat.and_two_pow_sub_one_eq_mod _ 5
  rw [mbc1HighBank, BitVec.or_comm, BitVec.toNat_or, hhigh, hlow,
    ← Nat.two_pow_add_eq_or_of_lt (Nat.mod_lt _ (by decide)), BitVec.toNat_setWidth]
  omega

theorem toNat_mbc3Bank (b : Byte) :
    (mbc3Bank b).toNat = if b.toNat % 128 = 0 then 1 else b.toNat % 128 := by
  have hwidth : (b.setWidth 7).toNat = b.toNat % 128 := BitVec.toNat_setWidth ..
  have hzero : b.setWidth 7 = 0#7 ↔ b.toNat % 128 = 0 := by rw [← BitVec.toNat_inj, hwidth]; rfl
  simp only [mbc3Bank, apply_ite BitVec.toNat, hwidth, hzero, BitVec.toNat_ofNat]

theorem toNat_ramBankOf (b : Byte) : (ramBankOf b).toNat = b.toNat % 4 := BitVec.toNat_setWidth ..

/-- Bit 0 of an in-range value selects the banking mode (R152). -/
theorem bankingModeOf_ofInt {v : Int} (hv : ByteValue v) :
    bankingModeOf (BitVec.ofInt 8 v) = if v % 2 = 1 then .ram else .highRom := by
  rw [bankingModeOf, getLsbD_ofInt hv]
  simp

/-- Settles O24: the three writes are fields of the value, put into the register that the banking mode names. -/
theorem mbc1BankWrites : Obligations.Mbc1BankWrites := by
  refine fun s a v hvar hv => ⟨fun h => ⟨decodeWrite_eq_of_block rfl h (mode_variant_beq hvar) rfl, _,
      finishWrite_writeBankReg hv s _, rfl, ?_⟩,
    fun h => ⟨decodeWrite_eq_of_block rfl h (mode_variant_beq hvar) rfl, _, finishWrite_writeBankReg hv s setMbc1Hi,
      fun hmode => ?_, fun hmode => ?_⟩,
    fun h => ⟨decodeWrite_eq_of_block rfl h (mode_variant_beq hvar) rfl, ?_⟩⟩
  · obtain ⟨b, rfl, hb⟩ := exists_byte_of_byteValue hv
    rw [hb, State.withReply_romBank, State.withRomBank_romBank, toNat_mbc1LowBank]
    split_ifs <;> omega
  · obtain ⟨b, rfl, hb⟩ := exists_byte_of_byteValue hv
    rw [hb, setMbc1Hi, hmode]
    refine ⟨rfl, (toNat_mbc1HighBank s.romBank b).trans ?_⟩
    omega
  · obtain ⟨b, rfl, hb⟩ := exists_byte_of_byteValue hv
    rw [hb, setMbc1Hi, hmode]
    refine ⟨rfl, (toNat_ramBankOf b).trans ?_⟩
    omega
  · refine (finishWrite_writeBankReg hv s fun b s' => s'.withMbc1Mode (bankingModeOf b)).trans ?_
    rw [bankingModeOf_ofInt hv]

/-- Settles O25: both registers take a field of the value. -/
theorem mbc3BankWrites : Obligations.Mbc3BankWrites := by
  refine fun s a v hvar hv => ⟨fun h => ⟨decodeWrite_eq_of_block rfl h (mode_variant_beq hvar) rfl, _,
      finishWrite_writeBankReg hv s _, rfl, ?_⟩,
    fun h => ⟨decodeWrite_eq_of_block rfl h (mode_variant_beq hvar) rfl, _, finishWrite_writeBankReg hv s _, rfl, ?_⟩⟩
  · obtain ⟨b, rfl, hb⟩ := exists_byte_of_byteValue hv
    rw [hb, State.withReply_romBank, State.withRomBank_romBank, toNat_mbc3Bank]
    split_ifs <;> omega
  · obtain ⟨b, rfl, hb⟩ := exists_byte_of_byteValue hv
    rw [hb, State.withReply_ramBank, State.withRamBank_ramBank, toNat_ramBankOf]
    omega

end Sys2Proof.Machine
end

section
/-! PROOF. RAM_EXPORT and RAM_IMPORT (R165, R166): the exported bytes are the banks in order, and an import of them
gives the same memory back. -/

namespace Sys2Proof.Machine

@[simp] theorem Memory.length_bytes (m : Memory) (n : Nat) : (m.bytes n).length = n := by
  rw [Memory.bytes, List.length_map, List.length_range]

/-- Byte i of the listed bytes is byte i of the memory. -/
theorem Memory.getElem?_bytes (m : Memory) {i n : Nat} (h : i < n) : (m.bytes n)[i]? = some (m.read i) := by
  rw [Memory.bytes, List.getElem?_map, List.getElem?_range h, Option.map_some]

/-- An offset that no entry lists reads as blank. -/
theorem Memory.read_eq_blank {m : Memory} {k : Nat} (h : ∀ c ∈ m, c.1 ≠ k) : m.read k = Memory.blank := by
  induction m with
  | nil => rfl
  | cons c cs ih =>
    rw [Memory.read_cons, if_neg (h c List.mem_cons_self)]
    exact ih fun d hd => h d (List.mem_cons_of_mem _ hd)

/-- The bytes of a region of length `n` make the region again. -/
theorem Memory.ofBytes_bytes {m : Memory} {n : Nat} (h : m.fits n) : Memory.ofBytes (m.bytes n) = m := by
  obtain ⟨hwf, hlt⟩ := h
  refine Memory.ext_of_read (Memory.ofBytes_wf _) hwf fun k => ?_
  rw [Memory.read_ofBytes, List.getD_eq_getElem?_getD]
  rcases Nat.lt_or_ge k n with hk | hk
  · rw [Memory.getElem?_bytes m hk, Option.getD_some]
  · rw [List.getElem?_eq_none ((Memory.length_bytes m n).trans_le hk), Option.getD_none,
      Memory.read_eq_blank fun c hc => ((hlt c hc).trans_le hk).ne]

/-- Byte `off` of bank k lies inside the exported bytes (R165). -/
theorem eram_offset_lt {v : Variant} {k off : Nat} (hk : k < Config.ramBanks v) (hoff : off < 0x2000) :
    k * 0x2000 + off < eramSize v := by
  rw [eramSize, Config.ramBankSize]
  omega

/-- Settles O31: the exported bytes list external RAM in order, and bank k is the part of it at `k * 0x2000`. -/
theorem ramExportIsTheBanksInOrder : Obligations.RamExportIsTheBanksInOrder := fun s =>
  ⟨exportedRam s, rfl, Memory.length_bytes _ _,
    fun _ _ hk hoff => Memory.getElem?_bytes s.eram (eram_offset_lt hk hoff)⟩

theorem execRamImport_wrong_length {bytes : List Byte} {s : State} (h : bytes.length ≠ eramSize s.variant) :
    exec (.ramImport bytes) s = .next (takeFault (.sizeMismatch .eram bytes.length (some (eramSize s.variant))) s) :=
  if_neg h

theorem execRamImport_right_length {bytes : List Byte} {s : State} (h : bytes.length = eramSize s.variant) :
    exec (.ramImport bytes) s = .next ((s.withEram (Memory.ofBytes bytes)).withReply .done) :=
  if_pos h

/-- Settles O32: the length decides, and the imported list reads as the banks in order. -/
theorem ramImportReplacesEveryBank : Obligations.RamImportReplacesEveryBank := by
  refine fun s bytes => ⟨execRamImport_wrong_length, fun h =>
    ⟨_, execRamImport_right_length h, rfl, fun k off hk hoff => ?_⟩⟩
  have hlt : k * 0x2000 + off < bytes.length := (eram_offset_lt hk hoff).trans_eq h.symm
  refine (List.getElem?_eq_getElem hlt).trans (congrArg some ?_)
  exact ((Memory.read_ofBytes bytes _).trans (List.getD_eq_getElem _ _ hlt)).symm

/-- Settles O33: external RAM fits its banks, so its bytes make it again. -/
theorem ramExportImportRoundTrip : Obligations.RamExportImportRoundTrip := by
  intro s u t hinv hvar bytes hexport himport
  obtain rfl : exportedRam s = bytes :=
    Reply.ram.inj (Option.some.inj (congrArg State.reply (Host.Outcome.next.inj hexport)))
  have hlen : (exportedRam s).length = eramSize u.variant := by rw [exportedRam, Memory.length_bytes, hvar]
  rw [execRamImport_right_length hlen] at himport
  rw [← Host.Outcome.next.inj himport]
  exact Memory.ofBytes_bytes hinv.eram

end Sys2Proof.Machine
end

section
/-! PROOF. BUS_STEP as a list of landings (R182, R183, R186): which bytes of which pages land, in which order; what the
list leaves in OAM; and what R184 (a) to (c) say of the list of a transfer that has just been triggered. -/

namespace Sys2Proof.Machine

/-! ## The transfers in flight -/

/-- One cycle later: each transfer a cycle older, but those that are complete (R185). -/
theorem mem_dmaAge {d : List Transfer} {e : Transfer} :
    e ∈ dmaAge d ↔ ∃ e' ∈ d, e.page = e'.page ∧ e.elapsed = e'.elapsed + 1 ∧ e.elapsed ≠ 162 := by
  simp only [dmaAge, List.mem_filter, List.mem_map, bne_iff_ne, Config.dmaCycles]
  constructor
  · rintro ⟨⟨e', he', rfl⟩, hne⟩
    exact ⟨e', he', rfl, rfl, hne⟩
  · rintro ⟨e', he', hpage, helapsed, hne⟩
    exact ⟨⟨e', he', by rw [← hpage, ← helapsed]⟩, hne⟩

theorem dmaAge_append (d d' : List Transfer) : dmaAge (d ++ d') = dmaAge d ++ dmaAge d' := by
  rw [dmaAge, List.map_append, List.filter_append]
  rfl

/-- A transfer that has cycles left is a cycle older. -/
theorem dmaAge_singleton {page : Byte} {k : Nat} (h : k + 1 ≠ 162) : dmaAge [⟨page, k⟩] = [⟨page, k + 1⟩] :=
  List.filter_cons_of_pos (bne_iff_ne.mpr h)

/-- Every transfer is a cycle older. -/
theorem le_elapsed_of_mem_dmaAge {d : List Transfer} {k : Nat} (h : ∀ e ∈ d, k ≤ e.elapsed) :
    ∀ e ∈ dmaAge d, k + 1 ≤ e.elapsed := by
  intro e he
  obtain ⟨e', he', -, helapsed, -⟩ := mem_dmaAge.mp he
  have := h e' he'
  omega

/-- The transfers after n cycles: each n cycles older, but those that are complete (R185). -/
theorem iterate_dmaAge {d : List Transfer} (h : ∀ e ∈ d, e.elapsed < 162) (n : Nat) :
    dmaAge^[n] d =
      (d.map fun e => (⟨e.page, e.elapsed + n⟩ : Transfer)).filter fun e => decide (e.elapsed < 162) := by
  induction n with
  | zero =>
    refine ((List.filter_eq_self.mpr fun e he => ?_).trans (List.map_id d)).symm
    obtain ⟨e', he', rfl⟩ := List.mem_map.mp he
    exact decide_eq_true (h e' he')
  | succ n ih =>
    rw [Function.iterate_succ_apply', ih, dmaAge]
    simp only [List.filter_map, List.map_map, List.filter_filter, Function.comp_def, Config.dmaCycles]
    refine congrArg _ (List.filter_congr fun e _ => ?_)
    rw [Bool.eq_iff_iff, Bool.and_eq_true, bne_iff_ne, decide_eq_true_iff, decide_eq_true_iff]
    omega

/-! ## Landings -/

/-- A landing: byte `x.2` of page `x.1` (R183). -/
abbrev Landing := Byte × Nat

/-- A landing performed. -/
def land (s : State) (x : Landing) : State := landByte x.1 x.2 s

/-- The landings of one cycle of one transfer (R182). -/
def landingsOf (p : Params) (e : Transfer) : List Landing := (landingBytes p (e.elapsed + 1)).map (Prod.mk e.page)

/-- The landings of n cycles, cycle by cycle, and in a cycle transfer by transfer in trigger order (R182, R186). -/
def landings (p : Params) : Nat → List Transfer → List Landing
  | 0, _ => []
  | n + 1, d => d.flatMap (landingsOf p) ++ landings p n (dmaAge d)

theorem mem_landingsOf {p : Params} {e : Transfer} {x : Landing} :
    x ∈ landingsOf p e ↔ x.1 = e.page ∧ x.2 < 0xA0 ∧ p.landAt x.2 = e.elapsed + 1 := by
  obtain ⟨page, i⟩ := x
  simp only [landingsOf, List.mem_map, mem_landingBytes, Prod.mk.injEq]
  constructor
  · rintro ⟨i', hi, rfl, rfl⟩
    exact ⟨rfl, hi⟩
  · rintro ⟨rfl, hi⟩
    exact ⟨i, hi, rfl, rfl⟩

/-- A byte that lands within n cycles is one that the schedule gives a transfer in them (R184). -/
theorem mem_landings {p : Params} {n : Nat} {d : List Transfer} {x : Landing} (h : x ∈ landings p n d) :
    x.2 < 0xA0 ∧ ∃ e ∈ d, x.1 = e.page ∧ e.elapsed < p.landAt x.2 ∧ p.landAt x.2 ≤ e.elapsed + n := by
  induction n generalizing d with
  | zero => cases h
  | succ n ih =>
    rcases List.mem_append.mp h with h | h
    · obtain ⟨e, he, hx⟩ := List.mem_flatMap.mp h
      obtain ⟨hpage, hlt, hland⟩ := mem_landingsOf.mp hx
      exact ⟨hlt, e, he, hpage, by omega, by omega⟩
    · obtain ⟨hlt, e, he, hpage, hlo, hhi⟩ := ih h
      obtain ⟨e', he', hpage', helapsed, -⟩ := mem_dmaAge.mp he
      exact ⟨hlt, e', he', hpage.trans hpage', by omega, by omega⟩

/-- A byte that transfers `k` cycles old land is one that lands later than `k`. -/
theorem lt_landAt_of_mem_landings {p : Params} {n k : Nat} {d : List Transfer} {x : Landing}
    (hd : ∀ e ∈ d, k ≤ e.elapsed) (h : x ∈ landings p n d) : k < p.landAt x.2 := by
  obtain ⟨-, e, he, -, hlate, -⟩ := mem_landings h
  exact (hd e he).trans_lt hlate

@[simp] theorem landings_nil (p : Params) (n : Nat) : landings p n [] = [] := by
  induction n with
  | zero => rfl
  | succ n ih => exact ih

theorem dmaEntryCycle_eq (s : State) (e : Transfer) : dmaEntryCycle s e = (landingsOf s.params e).foldl land s :=
by
  rw [landingsOf, List.foldl_map]
  rfl

theorem dmaEntryCycle_params (s : State) (e : Transfer) : (dmaEntryCycle s e).params = s.params := by
  obtain ⟨o, n, h⟩ := dmaEntryCycle_frame s e
  rw [h]; rfl

theorem foldl_dmaEntryCycle (d : List Transfer) (s : State) :
    d.foldl dmaEntryCycle s = (d.flatMap (landingsOf s.params)).foldl land s := by
  induction d generalizing s with
  | nil => rfl
  | cons e d ih =>
    rw [List.foldl_cons, ih, List.flatMap_cons, List.foldl_append, dmaEntryCycle_params, dmaEntryCycle_eq]

/-- A landing writes the byte that the bus read answers (R183). -/
theorem landByte_of_memRead {page : Byte} {i n : Nat} {s : State} {b : Byte}
    (h : memRead (dmaSource page i) s = .ok (b, s.withDraws n)) :
    landByte page i s = (s.withOam (s.oam.write i b)).withDraws n := by
  rw [landByte, h]; rfl

/-- A landing does not see the transfers in flight. -/
theorem land_withDma {x : Landing} (hx : x.2 < 0xA0) (s : State) (d : List Transfer) :
    land (s.withDma d) x = (land s x).withDma d := by
  obtain ⟨b, n, h⟩ := memRead_ok s (dmaSource_not_gap x.1 hx)
  have h' : memRead (dmaSource x.1 x.2) (s.withDma d) = .ok (b, (s.withDma d).withDraws n) := by
    rw [memRead_withDma, h]; rfl
  rw [land, land, landByte_of_memRead h, landByte_of_memRead h']; rfl

theorem foldl_land_withDma {l : List Landing} (hl : ∀ x ∈ l, x.2 < 0xA0) (s : State) (d : List Transfer) :
    l.foldl land (s.withDma d) = (l.foldl land s).withDma d := by
  induction l generalizing s with
  | nil => rfl
  | cons x l ih =>
    obtain ⟨hx, hl⟩ := List.forall_mem_cons.mp hl
    rw [List.foldl_cons, land_withDma hx, ih hl, List.foldl_cons]

/-- BUS_STEP performs its landings one after the other and ages the transfers (R182). -/
theorem busStep_eq (n : Nat) (s : State) :
    busStep n s = ((landings s.params n s.dma).foldl land s).withDma (dmaAge^[n] s.dma) := by
  induction n generalizing s with
  | zero => rfl
  | succ n ih =>
    obtain ⟨o, k, hframe⟩ := busCycle_frame s
    have hparams : (busCycle s).params = s.params := by rw [hframe]; rfl
    have hdma : (busCycle s).dma = dmaAge s.dma := by rw [hframe]; rfl
    rw [busStep_succ, ih, hparams, hdma, busCycle, foldl_dmaEntryCycle,
      foldl_land_withDma fun _ hx => (mem_landings hx).1, landings, List.foldl_append, Function.iterate_succ_apply]
    rfl

/-- A list of landings changes OAM and the count of draws alone; the count never falls, and a byte that does not land
keeps its value. -/
theorem foldl_land {l : List Landing} (hl : ∀ x ∈ l, x.2 < 0xA0) (s : State) :
    ∃ o n, l.foldl land s = (s.withOam o).withDraws n ∧ s.draws ≤ n ∧
      ∀ i, (∀ x ∈ l, x.2 ≠ i) → o.read i = s.oam.read i := by
  induction l generalizing s with
  | nil => exact ⟨s.oam, s.draws, rfl, Nat.le_refl _, fun _ _ => rfl⟩
  | cons x l ih =>
    obtain ⟨hx, hl⟩ := List.forall_mem_cons.mp hl
    obtain ⟨b, n, h⟩ := memRead_ok s (dmaSource_not_gap x.1 hx)
    obtain ⟨o, n', hfold, hle, hkeep⟩ := ih hl (land s x)
    rw [land, landByte_of_memRead h] at hfold hle hkeep
    refine ⟨o, n', by rw [List.foldl_cons, land, landByte_of_memRead h, hfold]; rfl, (memRead_draws_le h).trans hle,
      fun i hi => ?_⟩
    obtain ⟨hxi, hli⟩ := List.forall_mem_cons.mp hi
    exact (hkeep i hli).trans (Memory.read_write_other _ _ hxi.symm)

/-- The last landing of byte i leaves its source byte there: the bus read, at a count of draws between the first and the
last (R142, R183). -/
theorem foldl_land_last {page : Byte} (hp : page ≠ 0xFE#8) {i : Nat} (hi : i < 0xA0) {l l' : List Landing}
    (hl : ∀ x ∈ l, x.2 < 0xA0) (hl' : ∀ x ∈ l', x.2 < 0xA0) (hlast : ∀ x ∈ l', x.2 ≠ i) (s : State) :
    ∃ k s', s.draws ≤ k ∧
      memRead (dmaSource page i) (s.withDraws k) = .ok (((l ++ (page, i) :: l').foldl land s).oam.read i, s') ∧
      s'.draws ≤ ((l ++ (page, i) :: l').foldl land s).draws := by
  obtain ⟨o, k, hfold, hle, -⟩ := foldl_land hl s
  obtain ⟨b, n, hread⟩ := memRead_ok (s.withDraws k) (dmaSource_not_gap page hi)
  have hread' : memRead (dmaSource page i) ((s.withOam o).withDraws k) =
      .ok (b, ((s.withOam o).withDraws k).withDraws n) := by
    refine (memRead_withOam (dmaSource_not_oam hp hi) (s.withDraws k) o).trans ?_
    rw [hread]; rfl
  obtain ⟨o', n', hfold', hle', hkeep⟩ := foldl_land hl' (land ((s.withOam o).withDraws k) (page, i))
  rw [List.foldl_append, List.foldl_cons, hfold, hfold']
  rw [land, landByte_of_memRead hread'] at hle' hkeep
  have hbyte : o'.read i = b := (hkeep i hlast).trans (Memory.read_write_same _ _ _)
  refine ⟨k, (s.withDraws k).withDraws n, hle, ?_, hle'⟩
  rw [hread]
  exact congrArg (fun c => Except.ok (c, _)) hbyte.symm

/-! ## Transfers from OAM itself -/

/-- The states are the same but for how OAM lists its bytes. -/
def SameOamReads (s t : State) : Prop := ∃ o, t = s.withOam o ∧ ∀ i, o.read i = s.oam.read i

/-- A source read sees OAM by its bytes alone. -/
theorem memRead_dmaSource_withOam (page : Byte) {i : Nat} (hi : i < 0xA0) {s : State} {o : Memory}
    (ho : ∀ i, o.read i = s.oam.read i) :
    ∃ b n, memRead (dmaSource page i) s = .ok (b, s.withDraws n) ∧
      memRead (dmaSource page i) (s.withOam o) = .ok (b, (s.withOam o).withDraws n) := by
  by_cases hp : page = 0xFE#8
  · subst hp
    exact ⟨s.oam.read i, s.draws, memRead_dmaSource_oam s hi,
      (memRead_dmaSource_oam (s.withOam o) hi).trans (congrArg (fun c => Except.ok (c, _)) (ho i))⟩
  · obtain ⟨b, n, h⟩ := memRead_ok s (dmaSource_not_gap page hi)
    exact ⟨b, n, h, by rw [memRead_withOam (dmaSource_not_oam hp hi), h]; rfl⟩

theorem SameOamReads.land_both {s t : State} (h : SameOamReads s t) {x : Landing} (hx : x.2 < 0xA0) :
    SameOamReads (land s x) (land t x) := by
  obtain ⟨o, rfl, ho⟩ := h
  obtain ⟨b, n, hs, ht⟩ := memRead_dmaSource_withOam x.1 hx ho
  refine ⟨o.write x.2 b, ?_, fun i => ?_⟩
  · rw [land, land, landByte_of_memRead hs, landByte_of_memRead ht]; rfl
  · rw [land, landByte_of_memRead hs]
    simp only [State.withDraws_oam, State.withOam_oam, Memory.read_write, ho]

/-- A landing from page 0xFE writes back the byte that is there (R188). -/
theorem SameOamReads.landOam_left {s t : State} (h : SameOamReads s t) {i : Nat} (hi : i < 0xA0) :
    SameOamReads (land s (0xFE#8, i)) t := by
  obtain ⟨o, rfl, ho⟩ := h
  refine ⟨o, ?_, fun j => (ho j).trans ?_⟩
  · rw [land, landByte_oam s hi]; rfl
  · rw [land, landByte_oam s hi, State.withOam_oam, Memory.read_write]
    split
    · rename_i hj; rw [hj]
    · rfl

/-- Landings from page 0xFE can be left out (R188). -/
theorem foldl_land_filter {l : List Landing} (hl : ∀ x ∈ l, x.2 < 0xA0) {s t : State} (h : SameOamReads s t) :
    SameOamReads (l.foldl land s) ((l.filter fun x => x.1 != 0xFE#8).foldl land t) := by
  induction l generalizing s t with
  | nil => exact h
  | cons x l ih =>
    obtain ⟨hx, hl⟩ := List.forall_mem_cons.mp hl
    by_cases hp : x.1 = 0xFE#8
    · rw [List.filter_cons_of_neg (by simpa using hp)]
      have hxp : x = (0xFE#8, x.2) := Prod.ext hp rfl
      exact ih hl (hxp ▸ h.landOam_left hx)
    · rw [List.filter_cons_of_pos (by simpa using hp)]
      exact ih hl (h.land_both hx)

theorem filter_landingsOf (p : Params) (e : Transfer) :
    (landingsOf p e).filter (fun x => x.1 != 0xFE#8) = if e.page != 0xFE#8 then landingsOf p e else [] := by
  split
  · exact List.filter_eq_self.mpr fun x hx => (mem_landingsOf.mp hx).1 ▸ ‹_›
  · exact List.filter_eq_nil_iff.mpr fun x hx => (mem_landingsOf.mp hx).1 ▸ ‹_›

/-- The landings from the other pages are those of the transfers from the other pages. -/
theorem filter_landings (p : Params) (n : Nat) (d : List Transfer) :
    (landings p n d).filter (fun x => x.1 != 0xFE#8) = landings p n (d.filter fun e => e.page != 0xFE#8) := by
  induction n generalizing d with
  | zero => rfl
  | succ n ih =>
    have hcycle : (d.flatMap (landingsOf p)).filter (fun x => x.1 != 0xFE#8) =
        (d.filter fun e => e.page != 0xFE#8).flatMap (landingsOf p) := by
      induction d with
      | nil => rfl
      | cons e d ihd =>
        rw [List.flatMap_cons, List.filter_append, ihd, filter_landingsOf, List.filter_cons]
        split <;> rfl
    have hage : (dmaAge d).filter (fun e => e.page != 0xFE#8) = dmaAge (d.filter fun e => e.page != 0xFE#8) := by
      rw [dmaAge, dmaAge, List.filter_comm, List.filter_map]
      rfl
    rw [landings, List.filter_append, hcycle, ih, hage, landings]

/-- OAM after BUS_STEP is as the transfers from the other pages leave it (R188). -/
theorem busStep_oam_read (n : Nat) (s : State) (i : Nat) :
    (busStep n s).oam.read i =
      ((landings s.params n (s.dma.filter fun e => e.page != 0xFE#8)).foldl land s).oam.read i := by
  obtain ⟨o, hfold, ho⟩ := foldl_land_filter (l := landings s.params n s.dma) (fun _ hx => (mem_landings hx).1)
    (⟨s.oam, rfl, fun _ => rfl⟩ : SameOamReads s s)
  rw [filter_landings] at hfold
  rw [busStep_eq, hfold]
  exact (ho i).symm

/-! ## A transfer that has just been triggered -/

/-- In the cycle that lands byte i of a transfer, that transfer lands it once. -/
theorem landingsOf_split {p : Params} {e : Transfer} {i : Nat} (hi : i < 0xA0) (hnow : p.landAt i = e.elapsed + 1) :
    ∃ l l', landingsOf p e = l ++ (e.page, i) :: l' ∧ ∀ x ∈ l', x.2 ≠ i := by
  have hmem : (e.page, i) ∈ landingsOf p e := mem_landingsOf.mpr ⟨rfl, hi, hnow⟩
  have hnodup : ((landingsOf p e).map Prod.snd).Nodup := by
    rw [landingsOf, List.map_map]
    exact (List.map_id (landingBytes p (e.elapsed + 1))).symm ▸ List.nodup_range.filter _
  obtain ⟨l, l', hl⟩ := List.append_of_mem hmem
  refine ⟨l, l', hl, ?_⟩
  rintro x hx rfl
  rw [hl, List.map_append, List.map_cons, List.nodup_middle, List.nodup_cons] at hnodup
  exact hnodup.1 (List.mem_append_right _ (List.mem_map.mpr ⟨x, hx, rfl⟩))

/-- The landings up to byte i of the youngest transfer, and after it no landing of byte i: an older transfer has landed
the byte before, or earlier in the same cycle (R186). -/
theorem landings_youngest (p : Params) {n : Nat} {older : List Transfer} {page : Byte} {k i : Nat}
    (holder : ∀ e ∈ older, k ≤ e.elapsed) (hi : i < 0xA0) (hlo : k < p.landAt i) (hhi : p.landAt i ≤ k + n)
    (hn : p.landAt i ≤ 162) :
    ∃ l l', landings p n (older ++ [⟨page, k⟩]) = l ++ (page, i) :: l' ∧ ∀ x ∈ l', x.2 ≠ i := by
  induction n generalizing older k with
  | zero => omega
  | succ n ih =>
    have hcycle : (older ++ [(⟨page, k⟩ : Transfer)]).flatMap (landingsOf p) =
        older.flatMap (landingsOf p) ++ landingsOf p ⟨page, k⟩ := by
      rw [List.flatMap_append, List.flatMap_singleton]
    rw [landings, hcycle]
    by_cases hnow : p.landAt i = k + 1
    · obtain ⟨l, l', hl, hlast⟩ := landingsOf_split (e := ⟨page, k⟩) hi hnow
      have hlate : ∀ x ∈ landings p n (dmaAge (older ++ [⟨page, k⟩])), x.2 ≠ i := by
        rintro x hx rfl
        have hage : ∀ e ∈ dmaAge (older ++ [⟨page, k⟩]), k + 1 ≤ e.elapsed :=
          le_elapsed_of_mem_dmaAge (List.forall_mem_append.mpr ⟨holder, by simp⟩)
        exact (lt_landAt_of_mem_landings hage hx).ne' hnow
      exact ⟨older.flatMap (landingsOf p) ++ l, l' ++ landings p n (dmaAge (older ++ [⟨page, k⟩])),
        by simp only [hl, List.append_assoc, List.cons_append], List.forall_mem_append.mpr ⟨hlast, hlate⟩⟩
    · rw [dmaAge_append, dmaAge_singleton (by omega)]
      obtain ⟨l, l', hl, hlast⟩ := ih (le_elapsed_of_mem_dmaAge holder) (by omega) (by omega)
      exact ⟨(older.flatMap (landingsOf p) ++ landingsOf p ⟨page, k⟩) ++ l, l',
        by simp only [hl, List.append_assoc], hlast⟩

/-- The schedule rises (R184 (b)). -/
theorem landAt_mono {p : Params} (hp : p.Legal) {i j : Nat} (hij : i ≤ j) (hj : j < 0xA0) :
    p.landAt i ≤ p.landAt j := by
  obtain ⟨-, -, hmono, -, -⟩ := hp
  induction j, hij using Nat.le_induction with
  | base => exact Nat.le_refl _
  | succ j _ ih => exact (ih (by omega)).trans (hmono j (Nat.lt_pred_of_succ_lt hj))

theorem landAt_pos {p : Params} (hp : p.Legal) {i : Nat} (hi : i < 0xA0) : 0 < p.landAt i := (hp.2.1 i hi).1

theorem landAt_le_162 {p : Params} (hp : p.Legal) {i : Nat} (hi : i < 0xA0) : p.landAt i ≤ 162 :=
  (hp.2.1 i hi).2

/-- The bytes of one transfer land in address order (R184 (b)). -/
theorem landings_sorted {p : Params} (hp : p.Legal) (n : Nat) (page : Byte) (k : Nat) :
    ((landings p n [⟨page, k⟩]).map Prod.snd).Pairwise (· < ·) := by
  induction n generalizing k with
  | zero => exact .nil
  | succ n ih =>
    have hcycle : ([(⟨page, k⟩ : Transfer)].flatMap (landingsOf p)).map Prod.snd = landingBytes p (k + 1) := by
      rw [List.flatMap_singleton, landingsOf, List.map_map]
      exact List.map_id _
    have hrest : ((landings p n (dmaAge [⟨page, k⟩])).map Prod.snd).Pairwise (· < ·) := by
      by_cases hk : k + 1 = 162
      · have hdone : dmaAge [⟨page, k⟩] = [] := List.filter_cons_of_neg (by rw [bne_iff_ne]; exact not_not_intro hk)
        rw [hdone, landings_nil]
        exact .nil
      · rw [dmaAge_singleton hk]
        exact ih (k + 1)
    rw [landings, List.map_append, hcycle]
    refine List.pairwise_append.mpr ⟨List.pairwise_lt_range.filter _, hrest, fun i hi j hj => ?_⟩
    obtain ⟨hi, hnow⟩ := mem_landingBytes.mp hi
    obtain ⟨x, hx, rfl⟩ := List.mem_map.mp hj
    have hlate : k + 1 < p.landAt x.2 :=
      lt_landAt_of_mem_landings (le_elapsed_of_mem_dmaAge (by simp)) hx
    by_contra hle
    have := landAt_mono hp (Nat.not_lt.mp hle) hi
    omega

/-- The numbers below `b` that meet a condition which every smaller number meets too are those below some `m`. -/
theorem exists_lt_iff_of_downward {c : Nat → Prop} (b : Nat) (hc : ∀ i j, i ≤ j → j < b → c j → c i) :
    ∃ m ≤ b, ∀ i < b, c i ↔ i < m := by
  induction b with
  | zero => exact ⟨0, Nat.le_refl _, nofun⟩
  | succ b ih =>
    by_cases hb : c b
    · exact ⟨b + 1, Nat.le_refl _, fun i hi => ⟨fun _ => hi, fun _ => hc i b (by omega) (by omega) hb⟩⟩
    · obtain ⟨m, hm, hiff⟩ := ih fun i j hij hj => hc i j hij (by omega)
      refine ⟨m, by omega, fun i hi => ?_⟩
      rcases Nat.lt_succ_iff_lt_or_eq.mp hi with hi | rfl
      · exact hiff i hi
      · exact ⟨fun h => absurd h hb, fun h => by omega⟩

/-- With no older transfer the bytes that n cycles land are a first part of the transfer, in address order (R184). -/
theorem landings_triggered {p : Params} (hp : p.Legal) (n : Nat) (page : Byte) :
    ∃ m ≤ 0xA0, landings p n [⟨page, 0⟩] = (List.range m).map (Prod.mk page) ∧ ∀ i < 0xA0, p.landAt i ≤ n ↔ i < m := by
  obtain ⟨m, hm, hiff⟩ := exists_lt_iff_of_downward (c := fun i => p.landAt i ≤ n) 0xA0
    fun i j hij hj h => (landAt_mono hp hij hj).trans h
  have hbytes : (landings p n [⟨page, 0⟩]).map Prod.snd = List.range m := by
    refine (landings_sorted hp n page 0).eq_of_mem_iff List.pairwise_lt_range fun i => ?_
    rw [List.mem_range, List.mem_map]
    constructor
    · rintro ⟨x, hx, rfl⟩
      obtain ⟨hlt, e, he, -, -, hle⟩ := mem_landings hx
      obtain rfl := List.mem_singleton.mp he
      exact (hiff _ hlt).mp (by simpa using hle)
    · intro hi
      have hlt : i < 0xA0 := hi.trans_le hm
      obtain ⟨l, l', hl, -⟩ := landings_youngest p (n := n) (older := []) (page := page) nofun hlt (landAt_pos hp hlt)
        (by rw [Nat.zero_add]; exact (hiff i hlt).mpr hi) (landAt_le_162 hp hlt)
      exact ⟨(page, i), by rw [← List.nil_append [_], hl]; exact List.mem_append_right l List.mem_cons_self, rfl⟩
  refine ⟨m, hm, ?_, hiff⟩
  rw [← hbytes, List.map_map]
  refine ((List.map_congr_left fun x hx => ?_).trans (List.map_id _)).symm
  obtain ⟨-, e, he, hpage, -⟩ := mem_landings hx
  rw [List.mem_singleton.mp he] at hpage
  exact Prod.ext hpage.symm rfl

/-- Successive bus reads in address order, each from the count of draws that the one before left, are the bytes that a
first part of a transfer lands (R183). -/
theorem foldl_land_successive {page : Byte} (hp : page ≠ 0xFE#8) {s : State} {src : Nat → Byte} {d : Nat → Nat}
    (hd : d 0 = s.draws)
    (hsrc : ∀ i, i < 0xA0 → memRead (dmaSource page i) (s.withDraws (d i)) = .ok (src i, s.withDraws (d (i + 1))))
    {m : Nat} (hm : m ≤ 0xA0) :
    ∃ o, ((List.range m).map (Prod.mk page)).foldl land s = (s.withOam o).withDraws (d m) ∧
      ∀ i < m, o.read i = src i := by
  induction m with
  | zero => exact ⟨s.oam, by rw [hd]; rfl, nofun⟩
  | succ m ih =>
    obtain ⟨o, hfold, ho⟩ := ih (by omega)
    have hread : memRead (dmaSource page m) ((s.withOam o).withDraws (d m)) =
        .ok (src m, ((s.withOam o).withDraws (d m)).withDraws (d (m + 1))) := by
      refine (memRead_withOam (dmaSource_not_oam hp (by omega)) (s.withDraws (d m)) o).trans ?_
      rw [hsrc m (by omega)]; rfl
    refine ⟨o.write m (src m), ?_, fun i hi => ?_⟩
    · rw [List.range_succ, List.map_append, List.foldl_append, hfold]
      exact landByte_of_memRead hread
    · rw [Memory.read_write]
      split
      · rename_i him; rw [him]
      · exact ho i (by omega)

/-! ## The statement -/

section
variable {s : State} {older : List Transfer} {page : Byte} {n i : Nat}

/-- A byte whose landing cycle has been reached holds its source byte, read at a count of draws between the first and
the last (R182, R186). -/
theorem busStep_landed (hp : s.params.Legal) (hdma : s.dma = older ++ [⟨page, 0⟩]) (hpage : page ≠ 0xFE#8)
    (hi : i < 0xA0) (hland : s.params.landAt i ≤ n) :
    ∃ k s', s.draws ≤ k ∧ memRead (dmaSource page i) (s.withDraws k) = .ok ((busStep n s).oam.read i, s') ∧
      s'.draws ≤ (busStep n s).draws := by
  obtain ⟨l, l', hl, hlast⟩ := landings_youngest s.params (n := n) (older := older) (page := page)
    (fun _ _ => Nat.zero_le _) hi (landAt_pos hp hi) (by rwa [Nat.zero_add]) (landAt_le_162 hp hi)
  have hbound : ∀ x ∈ l ++ (page, i) :: l', x.2 < 0xA0 := fun x hx => (mem_landings (hl ▸ hx)).1
  rw [busStep_eq, hdma, hl]
  exact foldl_land_last hpage hi (fun x hx => hbound x (List.mem_append_left _ hx))
    (fun x hx => hbound x (List.mem_append_right _ (List.mem_cons_of_mem _ hx))) hlast s

/-- Where the bus reads draw nothing, that is the source byte itself. -/
theorem busStep_landed_drawless (hp : s.params.Legal) (hdma : s.dma = older ++ [⟨page, 0⟩]) (hpage : page ≠ 0xFE#8)
    (hi : i < 0xA0) (hland : s.params.landAt i ≤ n) {b : Byte} (hsrc : memRead (dmaSource page i) s = .ok (b, s)) :
    (busStep n s).oam.read i = b := by
  obtain ⟨k, s', -, hread, -⟩ := busStep_landed hp hdma hpage hi hland
  exact (Prod.mk.inj (Except.ok.inj (hread.symm.trans (memRead_withDraws k hsrc)))).1

/-- A transfer from OAM itself leaves every OAM byte as the older transfers alone would (R188). -/
theorem busStep_oam_page (hdma : s.dma = older ++ [⟨0xFE#8, 0⟩]) (n i : Nat) :
    (busStep n s).oam.read i = (busStep n (s.withDma older)).oam.read i := by
  have hfilter : s.dma.filter (fun e => e.page != 0xFE#8) = older.filter fun e => e.page != 0xFE#8 := by
    rw [hdma, List.filter_append, List.filter_cons_of_neg (by simp), List.filter_nil, List.append_nil]
  rw [busStep_oam_read, busStep_oam_read, hfilter]
  exact congrArg (·.oam.read i) (foldl_land_withDma (fun _ hx => (mem_landings hx).1) s older).symm

/-- With no older transfer the bytes that have landed are the successive bus reads (R182, R184 (b)). -/
theorem busStep_successive (hp : s.params.Legal) (hdma : s.dma = [⟨page, 0⟩]) {src : Nat → Byte} {d : Nat → Nat}
    (hd : d 0 = s.draws)
    (hsrc : ∀ i, i < 0xA0 → memRead (dmaSource page i) (s.withDraws (d i)) = .ok (src i, s.withDraws (d (i + 1))))
    (hi : i < 0xA0) (hland : s.params.landAt i ≤ n) : (busStep n s).oam.read i = src i := by
  by_cases hpage : page = 0xFE#8
  · subst hpage
    have hsrc' : s.oam.read i = src i :=
      (Prod.mk.inj (Except.ok.inj ((memRead_dmaSource_oam (s.withDraws (d i)) hi).symm.trans (hsrc i hi)))).1
    rw [busStep_oam_page (older := []) hdma, busStep_idle n (s.withDma []) rfl]
    exact hsrc'
  · obtain ⟨m, hm, hlandings, hiff⟩ := landings_triggered hp n page
    obtain ⟨o, hfold, ho⟩ := foldl_land_successive hpage hd hsrc hm
    rw [busStep_eq, hdma, hlandings, hfold]
    exact ho i ((hiff i hi).mp hland)

/-- With no older transfer a byte whose landing cycle has not been reached keeps its value (R183). -/
theorem busStep_not_landed (hdma : s.dma = [⟨page, 0⟩]) (hland : n < s.params.landAt i) :
    (busStep n s).oam.read i = s.oam.read i := by
  obtain ⟨o, k, hfold, -, hkeep⟩ := foldl_land (l := landings s.params n s.dma) (fun _ hx => (mem_landings hx).1) s
  rw [busStep_eq, hfold]
  refine hkeep i ?_
  rintro x hx rfl
  obtain ⟨-, e, he, -, -, hle⟩ := mem_landings hx
  rw [hdma] at he
  obtain rfl := List.mem_singleton.mp he
  simp only at hle
  omega

/-- The transfers after a BUS_STEP (R182, R185). -/
theorem busStep_dma (h : ∀ e ∈ s.dma, e.elapsed < 162) (n : Nat) :
    (busStep n s).dma =
      (s.dma.map fun e => (⟨e.page, e.elapsed + n⟩ : Transfer)).filter fun e => decide (e.elapsed < 162) := by
  rw [busStep_eq, State.withDma_dma, iterate_dmaAge h]

end

/-- Settles O37: the landings of the run, of which the youngest transfer's are the last of their bytes. -/
theorem transferLandsByScheduleAndCompletesAt162 : Obligations.TransferLandsByScheduleAndCompletesAt162 := by
  intro s older page n hp holder hdma hn
  have hinflight : ∀ e ∈ s.dma, e.elapsed < 162 := fun e he => by
    rcases List.mem_append.mp (hdma ▸ he) with he | he
    · exact holder e he
    · rw [List.mem_singleton.mp he]
      exact Nat.succ_pos 161
  have hage := busStep_dma hinflight n
  refine ⟨(busStep n s).withReply .done, rfl, fun hn161 => ?_, fun hn162 => ?_,
    fun hpage i hi hland => busStep_landed hp hdma hpage hi hland,
    fun hpage src hsrc i hi hland => busStep_landed_drawless hp hdma hpage hi hland (hsrc i hi),
    fun hpage => ?_, fun hold src d hd hsrc i hi hland => ?_, fun hold i hi hland => ?_⟩
  · have hyoungest : n < 162 := by omega
    simp [hage, hdma, hyoungest]
  · rw [State.withReply_dma, hage, hn162]
    refine List.filter_eq_nil_iff.mpr fun e he => ?_
    obtain ⟨e', -, rfl⟩ := List.mem_map.mp he
    simp
  · subst hpage
    exact ⟨_, rfl, busStep_oam_page hdma n⟩
  · subst hold
    exact busStep_successive hp hdma hd hsrc hi hland
  · subst hold
    exact busStep_not_landed hdma hland

end Sys2Proof.Machine
end

section
/-! PROOF. Construction that fails (R331): each check reports its own failure, and the checks before it passed. -/

namespace Sys2Proof.Machine

/-! ## The checks that fail -/

theorem checkLen_error {r : SizedRegion} {n m : Nat} (h : n ≠ m) :
    checkLen r n m = .error (.sizeMismatch r n (some m)) := if_neg h

theorem checkHeader_ok {n : Nat} (h : 0x0148 ≤ n) : checkHeader n = .ok () := if_pos h

theorem checkHeader_error {n : Nat} (h : n < 0x0148) : checkHeader n = .error (.sizeMismatch .rom n (some 0x0148)) :=
  if_neg (Nat.not_le.mpr h)

theorem checkImage_ok {v : Variant} {n : Nat} (h : imageFits v n = true) : checkImage v n = .ok () := if_pos h

theorem checkImage_error {v : Variant} {n : Nat} (h : ¬ imageFits v n = true) :
    checkImage v n = .error (.sizeMismatch .rom n (requiredImage v)) := if_neg h

/-- The header byte of the variant NONE (R140). -/
theorem classifyCart_none {documented : List Byte} {b : Byte} (h : b.toNat = 0) :
    classifyCart documented b = .ok .none := if_pos (BitVec.eq_of_toNat_eq h)

/-- The header bytes of the banked variants (R140). -/
theorem classifyCart_banked {documented : List Byte} {b : Byte}
    (h : 1 ≤ b.toNat ∧ b.toNat ≤ 3 ∨ 15 ≤ b.toNat ∧ b.toNat ≤ 19) :
    ∃ v, v ≠ .none ∧ classifyCart documented b = .ok v := by
  have hne : b ≠ 0x00#8 := fun hb => by rw [hb, BitVec.toNat_ofNat] at h; omega
  rw [classifyCart, if_neg hne]
  rcases h with h | h
  · exact ⟨.mbc1, nofun, if_pos h⟩
  · rw [if_neg (by omega)]
    exact ⟨.mbc3, nofun, if_pos h⟩

/-- Every other header byte is reported, as a documented type or as none (R140). -/
theorem classifyCart_error {documented : List Byte} {b : Byte} (h1 : ¬ b.toNat ≤ 3)
    (h3 : ¬ (15 ≤ b.toNat ∧ b.toNat ≤ 19)) :
    classifyCart documented b = .error (if b ∈ documented then .unsupportedCart b else .invalidCart b) := by
  have hne : b ≠ 0x00#8 := fun hb => by rw [hb, BitVec.toNat_ofNat] at h1; omega
  rw [classifyCart, if_neg hne, if_neg (by omega), if_neg h3, apply_ite Except.error]

/-- The image lengths that suit a banked variant (R141). -/
theorem imageFits_banked {v : Variant} (hv : v ≠ .none) (n : Nat) :
    imageFits v n = true ↔ n % 0x4000 = 0 ∧ 2 * 0x4000 ≤ n ∧ n ≤ 128 * 0x4000 := by
  cases v with
  | none => exact absurd rfl hv
  | mbc1 | mbc3 => simp only [imageFits, Bool.and_eq_true, beq_iff_eq, decide_eq_true_eq, and_assoc]

theorem requiredImage_banked {v : Variant} (hv : v ≠ .none) : requiredImage v = none := by
  cases v with
  | none => exact absurd rfl hv
  | mbc1 | mbc3 => rfl

theorem eramSize_banked {v : Variant} (hv : v ≠ .none) : eramSize v = 4 * 0x2000 := by
  cases v with
  | none => exact absurd rfl hv
  | mbc1 | mbc3 => rfl

/-! ## The regions' lengths -/

/-- A supplied region with its length and its required length. -/
abbrev SuppliedLength := SizedRegion × Nat × Nat

/-- The first region of a list that has the wrong length is reported (R331). -/
def checkLens (l : List SuppliedLength) : Except Fault Unit :=
  match l.find? (fun c => c.2.1 != c.2.2) with
  | some c => .error (.sizeMismatch c.1 c.2.1 (some c.2.2))
  | none => .ok ()

/-- The check of a list is the check of its first region and then of the others. -/
theorem checkLens_cons (r : SizedRegion) (n m : Nat) (l : List SuppliedLength) :
    checkLens ((r, n, m) :: l) = (do checkLen r n m; checkLens l) := by
  by_cases h : n = m
  · subst h
    rw [checkLen_self, checkLens, List.find?_cons_of_neg (by simp)]
    rfl
  · rw [checkLen_error h, checkLens, List.find?_cons_of_pos (by simpa using h)]
    rfl

theorem checkLens_singleton (r : SizedRegion) (n m : Nat) : checkLens [(r, n, m)] = checkLen r n m := by
  rw [checkLens_cons]
  exact bind_pure (checkLen r n m)

/-- The initial regions in the order of their checks, external RAM required to be `eram` bytes (R331 checks 5 and 6). -/
def regionLens (init : InitMem) (eram : Nat) : List SuppliedLength :=
  [(.vram, init.vram.length, 0x2000), (.wram, init.wram.length, 0x2000), (.oam, init.oam.length, 0xA0),
    (.io, init.io.length, 0x80), (.hram, init.hram.length, 0x80), (.eram, init.eram.length, eram)]

/-- The regions are checked in their order. -/
theorem checkRegions_eq (v : Variant) (init : InitMem) :
    checkRegions v init = checkLens (regionLens init (eramSize v)) := by
  rw [regionLens, checkLens_cons, checkLens_cons, checkLens_cons, checkLens_cons, checkLens_cons, checkLens_singleton]
  rfl

/-! ## The construction up to a check -/

section
variable {p : Params} {documented boot img : List Byte} {init : InitMem}

/-- Past the overlay's length and the image's least length the header byte is classified. -/
theorem construct_classify (hboot : boot.length = 0x0100) (himg : 0x0148 ≤ img.length) :
    construct p documented boot img init = (do
      let v ← classifyCart documented (img.getD 0x0147 0x00#8)
      checkImage v img.length
      checkRegions v init
      return initialState p v boot img init) := by
  rw [construct, hboot, checkLen_self, checkHeader_ok himg]
  rfl

/-- With a variant found the image's length and then the regions' lengths are checked. -/
theorem construct_of_variant {v : Variant} (hboot : boot.length = 0x0100) (himg : 0x0148 ≤ img.length)
    (hv : classifyCart documented (img.getD 0x0147 0x00#8) = .ok v) :
    construct p documented boot img init = (do
      checkImage v img.length
      checkRegions v init
      return initialState p v boot img init) := by
  rw [construct_classify hboot himg, hv]
  rfl

/-- An image of the wrong length for its variant is reported (R141). -/
theorem construct_image_error {v : Variant} (hboot : boot.length = 0x0100) (himg : 0x0148 ≤ img.length)
    (hv : classifyCart documented (img.getD 0x0147 0x00#8) = .ok v) (hfit : ¬ imageFits v img.length = true) :
    construct p documented boot img init = .error (.sizeMismatch .rom img.length (requiredImage v)) := by
  rw [construct_of_variant hboot himg hv, checkImage_error hfit]
  rfl

/-- With an image that suits its variant the regions' lengths decide, in their order. -/
theorem construct_of_image {v : Variant} (hboot : boot.length = 0x0100) (himg : 0x0148 ≤ img.length)
    (hv : classifyCart documented (img.getD 0x0147 0x00#8) = .ok v) (hfit : imageFits v img.length = true) :
    match (regionLens init (eramSize v)).find? (fun c => c.2.1 != c.2.2) with
    | some c => construct p documented boot img init = .error (.sizeMismatch c.1 c.2.1 (some c.2.2))
    | none => ∃ s, construct p documented boot img init = .ok s := by
  rw [construct_of_variant hboot himg hv, checkImage_ok hfit, checkRegions_eq, checkLens]
  generalize (regionLens init (eramSize v)).find? _ = wrong
  cases wrong with
  | some c => rfl
  | none => exact ⟨_, rfl⟩

end

/-- Settles O59: each clause is one check that fails, and the checks before it pass. -/
theorem constructionReportsTheFirstFailure : Obligations.ConstructionReportsTheFirstFailure := by
  rintro p documented boot img init t rfl
  refine ⟨fun hboot => ?_, fun hboot himg => ?_, fun hboot himg h1 h3 => ?_, fun hboot himg ht hlen => ?_,
    fun hboot himg ht hfit => ?_, fun hboot himage => ?_⟩
  · rw [construct, checkLen_error hboot]
    rfl
  · rw [construct, hboot, checkLen_self, checkHeader_error himg]
    rfl
  · rw [construct_classify hboot himg, classifyCart_error h1 h3, BitVec.ofNat_toNat, BitVec.setWidth_eq]
    rfl
  · exact construct_image_error hboot himg (classifyCart_none ht) (by simpa [imageFits] using hlen)
  · obtain ⟨v, hv, hclass⟩ := classifyCart_banked (documented := documented) ht
    rw [construct_image_error hboot himg hclass (by rwa [imageFits_banked hv]), requiredImage_banked hv]
  · rcases himage with ⟨ht, hlen⟩ | ⟨ht, hfit⟩
    · rw [if_pos ht]
      exact construct_of_image hboot (by omega) (classifyCart_none ht) (beq_iff_eq.mpr hlen)
    · obtain ⟨v, hv, hclass⟩ := classifyCart_banked (documented := documented) ht
      have h := construct_of_image (p := p) (init := init) hboot (by omega) hclass ((imageFits_banked hv _).mpr hfit)
      rw [eramSize_banked hv] at h
      rw [if_neg (by omega)]
      exact h

end Sys2Proof.Machine
end

section
/-! PROOF. BUS_STEP and TIMER_TICK as wholes: what a BUS_STEP changes (R182, R185, R336), that both commands split into
batches of cycles (R182, R248), and that a source read of the engine never faults (R181, R188). -/

namespace Sys2Proof.Machine

/-- A BUS_STEP changes OAM, the transfer list and the count of draws alone, and OAM only where a schedule lands a byte
within its cycles (R182, R336). -/
theorem busStep_frame (n : Nat) (s : State) :
    busStep n s = ((s.withOam (busStep n s).oam).withDma (busStep n s).dma).withDraws (busStep n s).draws ∧
      ∀ i, (∀ e ∈ s.dma, ¬ (e.elapsed < s.params.landAt i ∧ s.params.landAt i ≤ e.elapsed + n)) →
        (busStep n s).oam.read i = s.oam.read i := by
  obtain ⟨o, k, hfold, -, hkeep⟩ := foldl_land (l := landings s.params n s.dma) (fun _ hx => (mem_landings hx).1) s
  rw [busStep_eq, hfold]
  refine ⟨rfl, fun i hi => hkeep i ?_⟩
  rintro x hx rfl
  obtain ⟨-, e, he, -, hlate, hreached⟩ := mem_landings hx
  exact hi e he ⟨hlate, hreached⟩

/-- Settles O34: the frame of the landings, and the transfers aged one cycle n times. -/
theorem busStepAdvancesTransfersAndWritesOnlyOam : Obligations.BusStepAdvancesTransfersAndWritesOnlyOam := by
  intro n s hinflight
  obtain ⟨hframe, hkeep⟩ := busStep_frame n s
  exact ⟨_, rfl, congrArg (·.withReply .done) hframe, busStep_dma hinflight n, hkeep⟩

/-! ## Batches of cycles -/

theorem busStep_add (a b : Nat) (s : State) : busStep (a + b) s = busStep b (busStep a s) := by
  induction a generalizing s with
  | zero => rw [Nat.zero_add, busStep_zero]
  | succ a ih => rw [Nat.succ_add, busStep_succ, ih, busStep_succ]

theorem timerTick_add (a b : Nat) (s : State) : timerTick (a + b) s = timerTick b (timerTick a s) := by
  induction a generalizing s with
  | zero => rw [Nat.zero_add, timerTick_zero]
  | succ a ih => rw [Nat.succ_add, timerTick_succ, ih, timerTick_succ]

/-- A device whose cycles add up and that does not see the reply splits as a command that replies `done`. -/
theorem withReply_done_split {step : Nat → State → State} (hadd : ∀ a b s, step (a + b) s = step b (step a s))
    (hreply : ∀ n s, step n (s.withReply .done) = (step n s).withReply .done) (a b : Nat) (s : State) :
    (step b ((step a s).withReply .done)).withReply .done = (step (a + b) s).withReply .done := by
  rw [hreply, hadd]
  rfl

/-- Settles O35: the cycles add up, and neither device sees the reply of the first batch. -/
theorem busAndTimerStepsSplit : Obligations.BusAndTimerStepsSplit := by
  constructor
  · rintro a b s t u ⟨⟩ ⟨⟩
    exact congrArg Host.Outcome.next (withReply_done_split busStep_add
      (fun n s => busStep_blind (dmaBlind_withReply .done) n s (.inr fun _ => rfl)) a b s).symm
  · rintro a b s t u ⟨⟩ ⟨⟩
    exact congrArg Host.Outcome.next (withReply_done_split timerTick_add
      (timerTick_blind (timerBlind_withReply .done)) a b s).symm

/-- Settles O36: a source address is never in the gap, and a bus read outside the gap answers a byte. -/
theorem dmaSourceReadsNeverFault : Obligations.DmaSourceReadsNeverFault := fun s page _ hi =>
  ⟨dmaSource_toNat page hi, dmaSource_not_gap page hi, memRead_ok s (dmaSource_not_gap page hi)⟩

end Sys2Proof.Machine
end

section
/-! PROOF. The scanline processor's loop, each fact said once: what one transition does, that the loop's bound is never
met, that runs of cycles add up, what a PPU_STEP leaves unchanged, and that rendering does not see the LY byte (R201 to
R207, R211, R212, R218). -/

namespace Sys2Proof.Machine

/-! ## One transition (R202 to R206) -/

section
variable (s : State)

theorem transition_oamRead (hm : s.ppuMode = .oamRead) : transition s = s.withPpu .vramRead s.ppuElapsed s.ppuLine := by
  simp only [transition, hm]

theorem transition_vramRead (hm : s.ppuMode = .vramRead) :
    transition s = (renderLine s.ppuLine s).withPpu .hblank s.ppuElapsed s.ppuLine := by
  simp only [transition, hm]

theorem transition_hblank_of_lt (hm : s.ppuMode = .hblank) (hl : s.ppuLine < 143) :
    transition s = s.withPpu .oamRead s.ppuElapsed (s.ppuLine + 1) := by
  simp only [transition, hm]
  exact if_pos hl

theorem transition_hblank_of_not_lt (hm : s.ppuMode = .hblank) (hl : ¬ s.ppuLine < 143) :
    transition s = (publish (raiseIrq .vblank s)).withPpu .vblank s.ppuElapsed 144 := by
  simp only [transition, hm]
  exact if_neg hl

theorem transition_vblank (hm : s.ppuMode = .vblank) : transition s = s.withPpu .oamRead s.ppuElapsed 0 := by
  simp only [transition, hm]

end

/-! ## The bound of the loop, for every VBLANK_CYCLES -/

/-- One turn of the loop of R201: subtract the mode's duration and take its transition. -/
def ppuTurn (s : State) : State :=
  transition (s.withPpu s.ppuMode (s.ppuElapsed - modeCycles s.params s.ppuMode) s.ppuLine)

theorem ppuLoop_succ_of_not_done {s : State} (h : ¬ PpuDone s) (k : Nat) : ppuLoop (k + 1) s = ppuLoop k (ppuTurn s) :=
  ppuLoop_turn h k

/-- A bound on the turns that are left: a turn out of a visible mode uses up cycles, and one out of VBLANK leads to a
visible mode even when VBLANK lasts no cycle (the assumption log's entry 19). -/
def turnBound (s : State) : Nat := 2 * s.ppuElapsed + if s.ppuMode = .vblank then 1 else 0

theorem turnBound_of_vblank {s : State} (hm : s.ppuMode = .vblank) : turnBound s = 2 * s.ppuElapsed + 1 :=
  congrArg (2 * s.ppuElapsed + ·) (if_pos hm)

theorem turnBound_of_visible {s : State} (hm : s.ppuMode ≠ .vblank) : turnBound s = 2 * s.ppuElapsed :=
  congrArg (2 * s.ppuElapsed + ·) (if_neg hm)

theorem turnBound_le (s : State) : turnBound s ≤ 2 * s.ppuElapsed + 1 := by
  unfold turnBound
  split <;> omega

theorem turnBound_ppuTurn_lt {s : State} (h : ¬ PpuDone s) : turnBound (ppuTurn s) < turnBound s := by
  have hle : modeCycles s.params s.ppuMode ≤ s.ppuElapsed := Nat.not_lt.mp h
  have helapsed : (ppuTurn s).ppuElapsed = s.ppuElapsed - modeCycles s.params s.ppuMode := transition_ppuElapsed _
  have hturn := turnBound_le (ppuTurn s)
  by_cases hm : s.ppuMode = .vblank
  · have hnext : (ppuTurn s).ppuMode = .oamRead := by rw [ppuTurn, transition_vblank _ (by exact hm)]; rfl
    rw [turnBound_of_vblank hm, turnBound_of_visible (by rw [hnext]; nofun)]
    omega
  · have hpos : 0 < modeCycles s.params s.ppuMode := by
      cases hc : s.ppuMode with
      | vblank => exact absurd hc hm
      | oamRead | vramRead | hblank => exact Nat.succ_pos _
    rw [turnBound_of_visible hm]
    omega

/-- Beyond the bound more turns change nothing. -/
theorem ppuLoop_eq_of_turnBound_lt {k j : Nat} {s : State} (hk : turnBound s < k) (hj : turnBound s < j) :
    ppuLoop k s = ppuLoop j s := by
  induction k generalizing j s with
  | zero => omega
  | succ k ih =>
    by_cases hd : PpuDone s
    · rw [ppuLoop_done hd, ppuLoop_done hd]
    · obtain ⟨j, rfl⟩ : ∃ i, j = i + 1 := ⟨j - 1, by omega⟩
      have hlt := turnBound_ppuTurn_lt hd
      rw [ppuLoop_succ_of_not_done hd, ppuLoop_succ_of_not_done hd]
      exact ih (by omega) (by omega)

/-! ## Runs of cycles -/

/-- `S.ppu_elapsed <- S.ppu_elapsed + n`, before any transition (R201). -/
def countCycles (n : Nat) (s : State) : State := s.withPpu s.ppuMode (s.ppuElapsed + n) s.ppuLine

/-- A PPU_STEP before it stores LY. -/
def ppuRun (n : Nat) (s : State) : State := ppuLoop (ppuFuel (s.ppuElapsed + n)) (countCycles n s)

theorem writeLy_eq_withIo (s : State) :
    writeLy s = s.withIo (s.io.write 0x44 (BitVec.ofNat 8 (visibleLine s))) := rfl

theorem ppuStep_eq_writeLy (n : Nat) (s : State) : ppuStep n s = writeLy (ppuRun n s) := rfl

/-- Every large enough bound gives the run. -/
theorem ppuRun_eq_ppuLoop {n k : Nat} {s : State} (hk : turnBound (countCycles n s) < k) :
    ppuRun n s = ppuLoop k (countCycles n s) :=
  ppuLoop_eq_of_turnBound_lt (Nat.lt_succ_of_le (turnBound_le (countCycles n s))) hk

theorem countCycles_countCycles (a b : Nat) (s : State) : countCycles b (countCycles a s) = countCycles (a + b) s :=
  congrArg (fun e => s.withPpu s.ppuMode e s.ppuLine) (Nat.add_assoc ..)

/-- A transition does not look at the elapsed count. -/
theorem transition_withElapsed (s : State) (e : Nat) :
    transition (s.withPpu s.ppuMode e s.ppuLine) =
      (transition s).withPpu (transition s).ppuMode e (transition s).ppuLine := by
  cases hm : s.ppuMode with
  | oamRead => rw [transition_oamRead s hm, transition_oamRead _ rfl]; rfl
  | vramRead => rw [transition_vramRead s hm, transition_vramRead _ rfl]; rfl
  | hblank =>
    by_cases hl : s.ppuLine < 143
    · rw [transition_hblank_of_lt s hm hl, transition_hblank_of_lt _ (by rfl) (by exact hl)]; rfl
    · rw [transition_hblank_of_not_lt s hm hl, transition_hblank_of_not_lt _ (by rfl) (by exact hl)]; rfl
  | vblank => rw [transition_vblank s hm, transition_vblank _ rfl]; rfl

/-- Cycles counted before a turn are left over by it. -/
theorem ppuTurn_countCycles {s : State} (h : ¬ PpuDone s) (n : Nat) :
    ppuTurn (countCycles n s) = countCycles n (ppuTurn s) := by
  have hle : modeCycles s.params s.ppuMode ≤ s.ppuElapsed := Nat.not_lt.mp h
  have hrest : s.ppuElapsed + n - modeCycles s.params s.ppuMode = s.ppuElapsed - modeCycles s.params s.ppuMode + n := by
    omega
  calc ppuTurn (countCycles n s)
      = transition (s.withPpu s.ppuMode (s.ppuElapsed + n - modeCycles s.params s.ppuMode) s.ppuLine) := rfl
    _ = countCycles n (ppuTurn s) := by
      rw [hrest, ppuTurn, transition_withElapsed, transition_withElapsed]
      rfl

theorem countCycles_not_done {s : State} (h : ¬ PpuDone s) (n : Nat) : ¬ PpuDone (countCycles n s) := fun hd =>
  h (Nat.lt_of_le_of_lt (Nat.le_add_right ..) hd)

/-- Turns taken early change nothing: cycles that come after them find the same state. -/
theorem ppuLoop_countCycles_ppuLoop {k n : Nat} (j : Nat) {s : State} (hk : turnBound (countCycles n s) < k) :
    ppuLoop k (countCycles n (ppuLoop j s)) = ppuLoop k (countCycles n s) := by
  induction j generalizing s with
  | zero => rfl
  | succ j ih =>
    by_cases hd : PpuDone s
    · rw [ppuLoop_done hd]
    · have hnd := countCycles_not_done hd n
      have hlt := turnBound_ppuTurn_lt hnd
      rw [ppuLoop_succ_of_not_done hd, ih (by rw [← ppuTurn_countCycles hd]; omega), ← ppuTurn_countCycles hd,
        ← ppuLoop_succ_of_not_done hnd]
      exact ppuLoop_eq_of_turnBound_lt (by omega) hk

/-- Runs add up (R218). -/
theorem ppuRun_add (a b : Nat) (s : State) : ppuRun (a + b) s = ppuRun b (ppuRun a s) := by
  obtain ⟨k, hwhole, hrest⟩ :
      ∃ k, turnBound (countCycles (a + b) s) < k ∧ turnBound (countCycles b (ppuRun a s)) < k :=
    ⟨turnBound (countCycles (a + b) s) + turnBound (countCycles b (ppuRun a s)) + 1, by omega, by omega⟩
  calc ppuRun (a + b) s
      = ppuLoop k (countCycles b (countCycles a s)) := by rw [countCycles_countCycles, ppuRun_eq_ppuLoop hwhole]
    _ = ppuLoop k (countCycles b (ppuRun a s)) :=
      (ppuLoop_countCycles_ppuLoop _ (by rwa [countCycles_countCycles])).symm
    _ = ppuRun b (ppuRun a s) := (ppuRun_eq_ppuLoop hrest).symm

/-! ## What a PPU_STEP leaves unchanged -/

@[simp] theorem transition_io (s : State) : (transition s).io = s.io := by
  obtain ⟨m, e, l, g, h, n, q, eq⟩ := transition_frame s
  rw [eq]

@[simp] theorem ppuRun_io (n : Nat) (s : State) : (ppuRun n s).io = s.io := by
  obtain ⟨m, e, l, g, h, k, q, eq⟩ := ppuLoop_frame (ppuFuel (s.ppuElapsed + n)) (countCycles n s)
  rw [ppuRun, eq]
  rfl

/-- The loop keeps the pending flags or raises VBLANK (R216). -/
theorem ppuLoop_irq (k : Nat) (s : State) :
    (ppuLoop k s).irq = s.irq ∨ (ppuLoop k s).irq = s.irq ||| irqMask .vblank := by
  induction k generalizing s with
  | zero => exact .inl rfl
  | succ k ih =>
    by_cases hd : PpuDone s
    · exact .inl (by rw [ppuLoop_done hd])
    · rw [ppuLoop_succ_of_not_done hd]
      have hturn : (ppuTurn s).irq = s.irq ∨ (ppuTurn s).irq = s.irq ||| irqMask .vblank := transition_irq _
      rcases ih (ppuTurn s) with h | h <;> rcases hturn with ht | ht <;> rw [h, ht]
      · exact .inl rfl
      · exact .inr rfl
      · exact .inr rfl
      · exact .inr (by rw [BitVec.or_assoc, BitVec.or_self])

theorem ppuStep_irq (n : Nat) (s : State) :
    (ppuStep n s).irq = s.irq ∨ (ppuStep n s).irq = s.irq ||| irqMask .vblank :=
  ppuLoop_irq _ (countCycles n s)

/-! ## The LY byte -/

/-- LY(S), by mode (R211). -/
theorem visibleLine_eq (s : State) :
    visibleLine s = if s.ppuMode = .vblank then 144 + 10 * s.ppuElapsed / s.params.vblankCycles else s.ppuLine := by
  unfold visibleLine
  cases s.ppuMode <;> rfl

/-! Storing LY changes the IO block alone (R212). -/

@[simp] theorem writeLy_ppuMode (s : State) : (writeLy s).ppuMode = s.ppuMode := rfl
@[simp] theorem writeLy_ppuElapsed (s : State) : (writeLy s).ppuElapsed = s.ppuElapsed := rfl
@[simp] theorem writeLy_ppuLine (s : State) : (writeLy s).ppuLine = s.ppuLine := rfl
@[simp] theorem writeLy_scratch (s : State) : (writeLy s).scratch = s.scratch := rfl
@[simp] theorem writeLy_front (s : State) : (writeLy s).front = s.front := rfl
@[simp] theorem writeLy_frontSeq (s : State) : (writeLy s).frontSeq = s.frontSeq := rfl
@[simp] theorem writeLy_irq (s : State) : (writeLy s).irq = s.irq := rfl

theorem writeLy_ly (s : State) : (writeLy s).io.read 0x44 = BitVec.ofNat 8 (visibleLine s) :=
  Memory.read_write_same _ _ _

/-- A PPU_STEP ends with the LY byte at LY(S) (R212). -/
theorem ppuStep_ly (n : Nat) (s : State) :
    (ppuStep n s).io.read 0x44 = BitVec.ofNat 8 (visibleLine (ppuStep n s)) :=
  writeLy_ly (ppuRun n s)

theorem ppuStep_io_other (n : Nat) (s : State) {off : Nat} (h : off ≠ 0x44) :
    (ppuStep n s).io.read off = s.io.read off := by
  rw [ppuStep_eq_writeLy, writeLy_eq_withIo, State.withIo_io, Memory.read_write_other _ _ h, ppuRun_io]

@[simp] theorem ppuStep_params (n : Nat) (s : State) : (ppuStep n s).params = s.params := by
  obtain ⟨m, e, l, g, h, k, q, v, eq⟩ := ppuStep_frame n s
  rw [eq]

/-- Two IO blocks that differ at LY at most. -/
def SameIoButLy (m m' : Memory) : Prop := ∀ off, off ≠ 0x44 → m.read off = m'.read off

section
variable {m : Memory}

/-- Rendering does not see the LY byte (R207). -/
theorem renderedLine_withIo {s : State} (h : SameIoButLy m s.io) (l : Nat) :
    renderedLine l (s.withIo m) = renderedLine l s := by
  unfold renderedLine renderPixel
  simp only [State.withIo_io, State.withIo_vram]
  rw [h Config.lcdcOff (by decide), h Config.scyOff (by decide), h Config.scxOff (by decide)]

theorem transition_withIo {s : State} (h : SameIoButLy m s.io) :
    transition (s.withIo m) = (transition s).withIo m := by
  cases hm : s.ppuMode with
  | oamRead => rw [transition_oamRead s hm, transition_oamRead (s.withIo m) hm]; rfl
  | vramRead =>
    rw [transition_vramRead s hm, transition_vramRead (s.withIo m) hm, renderLine, State.withIo_ppuLine,
      renderedLine_withIo h]
    rfl
  | hblank =>
    by_cases hl : s.ppuLine < 143
    · rw [transition_hblank_of_lt s hm hl, transition_hblank_of_lt (s.withIo m) hm hl]; rfl
    · rw [transition_hblank_of_not_lt s hm hl, transition_hblank_of_not_lt (s.withIo m) hm hl]; rfl
  | vblank => rw [transition_vblank s hm, transition_vblank (s.withIo m) hm]; rfl

theorem ppuLoop_withIo (k : Nat) {s : State} (h : SameIoButLy m s.io) :
    ppuLoop k (s.withIo m) = (ppuLoop k s).withIo m := by
  induction k generalizing s with
  | zero => rfl
  | succ k ih =>
    by_cases hd : PpuDone s
    · rw [ppuLoop_done hd, ppuLoop_done (s := s.withIo m) hd]
    · have hturn : ppuTurn (s.withIo m) = (ppuTurn s).withIo m :=
        transition_withIo (s := s.withPpu s.ppuMode (s.ppuElapsed - modeCycles s.params s.ppuMode) s.ppuLine) h
      rw [ppuLoop_succ_of_not_done hd, ppuLoop_succ_of_not_done (s := s.withIo m) hd, hturn]
      exact ih (by rwa [ppuTurn, transition_io])

theorem ppuRun_withIo (n : Nat) {s : State} (h : SameIoButLy m s.io) : ppuRun n (s.withIo m) = (ppuRun n s).withIo m :=
  ppuLoop_withIo _ (s := countCycles n s) h

end

/-- The later LY is the one that counts. -/
theorem writeLy_withIo_write {s : State} (h : s.io.wf) (v : Byte) :
    writeLy (s.withIo (s.io.write 0x44 v)) = writeLy s :=
  congrArg s.withIo (Memory.write_write h 0x44 v _)

/-- PPU_STEPs add up (R218). -/
theorem ppuStep_add (a b : Nat) {s : State} (h : s.io.wf) : ppuStep (a + b) s = ppuStep b (ppuStep a s) := by
  have hly : SameIoButLy ((ppuRun a s).io.write 0x44 (BitVec.ofNat 8 (visibleLine (ppuRun a s)))) (ppuRun a s).io :=
    fun _ hoff => Memory.read_write_other _ _ hoff
  have hio : (ppuRun a s).io = (ppuRun b (ppuRun a s)).io := (ppuRun_io b _).symm
  rw [ppuStep_eq_writeLy, ppuStep_eq_writeLy, ppuStep_eq_writeLy, writeLy_eq_withIo (ppuRun a s), ppuRun_withIo b hly,
    hio, writeLy_withIo_write (by rwa [ppuRun_io, ppuRun_io]), ppuRun_add]

end Sys2Proof.Machine
end

section
/-! PROOF. PPU_STEP (R200 to R218): its frame and its LY byte, each mode's end at its duration, one rendered line, a split
step, one line of 456 cycles and one frame. -/

namespace Sys2Proof.Machine

theorem irqMask_vblank : irqMask .vblank = 0b00001#5 := rfl

/-- Settles O41: the frame of the loop, and the one IO byte that is stored at its end. -/
theorem ppuStepWritesOnlyItsState : Obligations.PpuStepWritesOnlyItsState := by
  intro n s
  have hframe : ppuStep n s =
      ((((s.withPpu (ppuStep n s).ppuMode (ppuStep n s).ppuElapsed (ppuStep n s).ppuLine).withScratch
        (ppuStep n s).scratch).withFront (ppuStep n s).front (ppuStep n s).frontSeq).withIrq (ppuStep n s).irq).withIo
        (ppuStep n s).io := by
    obtain ⟨m, e, l, g, h, k, q, v, eq⟩ := ppuStep_frame n s
    rw [eq]
    rfl
  refine ⟨_, rfl, congrArg (·.withReply .done) hframe, fun off hoff => ppuStep_io_other n s hoff, ?_, ppuStep_irq n s⟩
  have hly := ppuStep_ly n s
  rw [visibleLine_eq, ppuStep_params] at hly
  exact hly

/-- A machine that meets the invariant has LY(S) in 0..143 outside VBLANK and in 144..153 in it (R211). -/
theorem visibleLine_range {s : State} (h : s.Inv) :
    (s.ppuMode ≠ .vblank → visibleLine s ≤ 143) ∧
      (s.ppuMode = .vblank → 144 ≤ visibleLine s ∧ visibleLine s ≤ 153) := by
  rw [visibleLine_eq]
  refine ⟨fun hm => ?_, fun hm => ?_⟩
  · rw [if_neg hm]
    exact h.ppuVisible hm
  · have helapsed : s.ppuElapsed < s.params.vblankCycles := by simpa [hm, modeCycles] using h.ppuElapsed
    have hstep : 10 * s.ppuElapsed / s.params.vblankCycles < 10 := Nat.div_lt_of_lt_mul (by omega)
    rw [if_pos hm]
    exact ⟨Nat.le_add_right .., Nat.add_le_add_left (Nat.le_of_lt_succ hstep) 144⟩

/-- Settles O42: a PPU_STEP ends inside the invariant, with the LY byte at LY(S). -/
theorem lyRange : Obligations.LyRange := by
  rintro n s t hs ⟨⟩
  obtain ⟨hvisible, hvblank⟩ := visibleLine_range (ppuStep_inv n hs)
  have hly : ((ppuStep n s).io.read 0x44).toNat = visibleLine (ppuStep n s) % 256 := by
    rw [ppuStep_ly, BitVec.toNat_ofNat]
  refine ⟨fun hm => ?_, fun hm => ?_⟩
  · have := hvisible hm
    show ((ppuStep n s).io.read 0x44).toNat ≤ 143
    omega
  · have := hvblank hm
    show 144 ≤ ((ppuStep n s).io.read 0x44).toNat ∧ ((ppuStep n s).io.read 0x44).toNat ≤ 153
    omega

/-! ## The end of each mode -/

section
variable {n : Nat} (s : State)

/-- Below the duration a run only counts (R201). -/
theorem ppuRun_of_lt (h : s.ppuElapsed + n < modeCycles s.params s.ppuMode) : ppuRun n s = countCycles n s :=
  ppuLoop_done (s := countCycles n s) h _

/-- A run that reaches the duration exactly is the one transition, when the mode it leads to lasts at all (R201). -/
theorem ppuRun_of_eq (h : s.ppuElapsed + n = modeCycles s.params s.ppuMode)
    (hnext : PpuDone (transition (s.withPpu s.ppuMode 0 s.ppuLine))) :
    ppuRun n s = transition (s.withPpu s.ppuMode 0 s.ppuLine) := by
  have hturn : ppuTurn (countCycles n s) = transition (s.withPpu s.ppuMode 0 s.ppuLine) :=
    congrArg (fun e => transition (s.withPpu s.ppuMode e s.ppuLine)) (Nat.sub_eq_zero_of_le (Nat.le_of_eq h))
  rw [ppuRun, ppuFuel, ppuLoop_succ_of_not_done (Nat.not_lt.mpr (Nat.le_of_eq h.symm)), hturn, ppuLoop_done hnext]

/-- OAM_READ lasts 80 cycles (R202). -/
theorem ppuRun_oamRead (hm : s.ppuMode = .oamRead) (h : s.ppuElapsed + n = 80) :
    ppuRun n s = s.withPpu .vramRead 0 s.ppuLine := by
  have ht : transition (s.withPpu s.ppuMode 0 s.ppuLine) = s.withPpu .vramRead 0 s.ppuLine := transition_oamRead _ hm
  rw [ppuRun_of_eq s (by rw [hm]; exact h) (by rw [ht]; exact Nat.succ_pos _), ht]

/-- VRAM_READ lasts 172 cycles and ends with the line rendered (R203). -/
theorem ppuRun_vramRead (hm : s.ppuMode = .vramRead) (h : s.ppuElapsed + n = 172) :
    ppuRun n s = (renderLine s.ppuLine s).withPpu .hblank 0 s.ppuLine := by
  have ht : transition (s.withPpu s.ppuMode 0 s.ppuLine) = (renderLine s.ppuLine s).withPpu .hblank 0 s.ppuLine :=
    transition_vramRead _ hm
  rw [ppuRun_of_eq s (by rw [hm]; exact h) (by rw [ht]; exact Nat.succ_pos _), ht]

/-- HBLANK lasts 204 cycles; before the last line it leads to the next line (R204). -/
theorem ppuRun_hblank_of_lt (hm : s.ppuMode = .hblank) (h : s.ppuElapsed + n = 204) (hl : s.ppuLine < 143) :
    ppuRun n s = s.withPpu .oamRead 0 (s.ppuLine + 1) := by
  have ht : transition (s.withPpu s.ppuMode 0 s.ppuLine) = s.withPpu .oamRead 0 (s.ppuLine + 1) :=
    transition_hblank_of_lt _ hm hl
  rw [ppuRun_of_eq s (by rw [hm]; exact h) (by rw [ht]; exact Nat.succ_pos _), ht]

/-- On the last line HBLANK raises VBLANK and publishes (R205). -/
theorem ppuRun_hblank_last (hm : s.ppuMode = .hblank) (h : s.ppuElapsed + n = 204) (hl : s.ppuLine = 143)
    (hv : 0 < s.params.vblankCycles) : ppuRun n s = (publish (raiseIrq .vblank s)).withPpu .vblank 0 144 := by
  have ht : transition (s.withPpu s.ppuMode 0 s.ppuLine) = (publish (raiseIrq .vblank s)).withPpu .vblank 0 144 :=
    transition_hblank_of_not_lt _ hm (Nat.not_lt.mpr (Nat.le_of_eq hl.symm))
  rw [ppuRun_of_eq s (by rw [hm]; exact h) (by rw [ht]; exact hv), ht]

/-- VBLANK lasts VBLANK_CYCLES and leads to line 0 (R206). -/
theorem ppuRun_vblank (hm : s.ppuMode = .vblank) (h : s.ppuElapsed + n = s.params.vblankCycles) :
    ppuRun n s = s.withPpu .oamRead 0 0 := by
  have ht : transition (s.withPpu s.ppuMode 0 s.ppuLine) = s.withPpu .oamRead 0 0 := transition_vblank _ hm
  rw [ppuRun_of_eq s (by rw [hm]; exact h) (by rw [ht]; exact Nat.succ_pos _), ht]

end

/-- Settles O43: below the duration the run only counts, and at the duration it is the mode's one transition. -/
theorem modeTransitionsAtTheirDurations : Obligations.ModeTransitionsAtTheirDurations := by
  intro n s
  refine ⟨(writeLy (ppuRun n s)).withReply .done, rfl, fun h => ?_, fun hm h => ?_, fun hm h => ?_, fun hm h hl => ?_,
    fun hm h hl hv => ?_, fun hm h => ?_⟩
  · simp [ppuRun_of_lt s h, countCycles]
  · simp [ppuRun_oamRead s hm h]
  · simp [ppuRun_vramRead s hm h, renderLine]
  · simp [ppuRun_hblank_of_lt s hm h hl]
  · simp [ppuRun_hblank_last s hm h hl hv, publish, raiseIrq, irqMask_vblank]
  · simp [ppuRun_vblank s hm h]

/-! ## One rendered line -/

/-- The other lines of a grid keep their pixels. -/
theorem Grid.pixel_setIfInBounds_ne (g : Grid) {l y : Nat} (row : Line) (x : Nat) (h : y ≠ l) :
    Grid.pixel (g.setIfInBounds l row) y x = g.pixel y x := by
  unfold Grid.pixel
  rw [Vector.getElem?_setIfInBounds_ne h.symm]

/-- A line of the grid has the pixels that it was set to. -/
theorem Grid.pixel_setIfInBounds_ofFn (g : Grid) {l x : Nat} (f : Fin 160 → Pixel) (hl : l < 144) (hx : x < 160) :
    Grid.pixel (g.setIfInBounds l (Vector.ofFn f)) l x = f ⟨x, hx⟩ := by
  unfold Grid.pixel
  rw [Vector.getElem?_setIfInBounds_self_of_lt hl]
  simp [hx]

theorem pixelColor_toNat (lo hi : Byte) (c : Nat) :
    (pixelColor lo hi c).toNat = 2 * (hi.getLsbD (7 - c)).toNat + (lo.getLsbD (7 - c)).toNat := by
  unfold pixelColor
  cases hi.getLsbD (7 - c) <;> cases lo.getLsbD (7 - c) <;> rfl

/-- `MapBase(lcdc)` as an offset in VRAM (R208). -/
theorem mapBase_sub (lcdc : Byte) : mapBase lcdc - 0x8000 = if lcdc.getLsbD 3 then 0x1C00 else 0x1800 := by
  unfold mapBase
  split <;> rfl

/-- `TileAddr(idx, lcdc)` as an offset in VRAM (R209). -/
theorem tileAddr_sub (idx lcdc : Byte) :
    tileAddr idx lcdc - 0x8000 =
      if lcdc.getLsbD 4 then idx.toNat * 16 else 0x0800 + (idx.toNat + 128) % 256 * 16 := by
  unfold tileAddr
  split <;> omega

/-- The row or column of the tile map that holds a coordinate (R207). -/
theorem shiftRight_three_mod {y : Nat} (h : y < 256) : (y >>> 3) % 32 = y / 8 := by
  rw [Nat.shiftRight_eq_div_pow]
  omega

/-- Settles O44: the run that ends VRAM_READ sets one line of the scratch grid, to the rendered pixels. -/
theorem renderedLineFollowsTheTileMap : Obligations.RenderedLineFollowsTheTileMap := by
  intro n s hm h hl
  refine ⟨(writeLy (ppuRun n s)).withReply .done, rfl, ?_⟩
  have hscratch : ((writeLy (ppuRun n s)).withReply .done).scratch =
      s.scratch.setIfInBounds s.ppuLine (renderedLine s.ppuLine s) := by
    rw [ppuRun_vramRead s hm h]
    rfl
  rw [hscratch]
  refine ⟨fun y x hy => Grid.pixel_setIfInBounds_ne _ _ x hy, ?_⟩
  rintro x hx y xx idx base row hy hxx rfl rfl rfl
  have hrow : (y >>> 3) % 32 = y / 8 := shiftRight_three_mod (by omega)
  have hcol : (xx >>> 3) % 32 = xx / 8 := shiftRight_three_mod (by omega)
  rw [renderedLine, Grid.pixel_setIfInBounds_ofFn _ _ (by omega) hx]
  simp only [renderPixel, pixelColor_toNat, mapBase_sub, tileAddr_sub, ← hy, ← hxx, hrow, hcol, Nat.add_assoc]

/-! ## Splits, lines and frames -/

/-- Settles O45: PPU_STEPs add up, and the processor does not see the reply of the first. -/
theorem ppuStepSplits : Obligations.PpuStepSplits := by
  rintro a b s t u hs ⟨⟩ ⟨⟩
  obtain ⟨hio, -⟩ := hs.io
  have hreply : ppuStep b ((ppuStep a s).withReply .done) = (ppuStep b (ppuStep a s)).withReply .done :=
    ppuStep_blind (ppuBlind_withReply .done) b _
  show Host.Outcome.next _ = Host.Outcome.next _
  rw [hreply, ← ppuStep_add a b hio]
  rfl

/-- From the start of a line, 455 cycles render it and lead to the last cycle of its HBLANK (R202, R203). -/
theorem ppuRun_455 (s : State) (hm : s.ppuMode = .oamRead) (he : s.ppuElapsed = 0) :
    ppuRun 455 s = (renderLine s.ppuLine s).withPpu .hblank 203 s.ppuLine := by
  have hvram : ppuRun 80 s = s.withPpu .vramRead 0 s.ppuLine := ppuRun_oamRead s hm (by omega)
  have hhblank : ppuRun 172 (s.withPpu .vramRead 0 s.ppuLine) =
      (renderLine s.ppuLine s).withPpu .hblank 0 s.ppuLine :=
    ppuRun_vramRead (s.withPpu .vramRead 0 s.ppuLine) rfl (Nat.zero_add 172)
  rw [show 455 = 80 + (172 + 203) from rfl, ppuRun_add, ppuRun_add, hvram, hhblank,
    ppuRun_of_lt _ (by exact Nat.lt_succ_self 203)]
  rfl

/-- A line before the last takes 456 cycles (R201). -/
theorem ppuRun_456 (s : State) (hm : s.ppuMode = .oamRead) (he : s.ppuElapsed = 0) (hl : s.ppuLine < 143) :
    ppuRun 456 s = (renderLine s.ppuLine s).withPpu .oamRead 0 (s.ppuLine + 1) := by
  rw [show 456 = 455 + 1 from rfl, ppuRun_add, ppuRun_455 s hm he,
    ppuRun_hblank_of_lt _ (by rfl) (by rfl) (by exact hl)]
  rfl

/-- Settles O46: the three modes of one line. -/
theorem oneLineTakes456Cycles : Obligations.OneLineTakes456Cycles := by
  intro s hm he hl
  refine ⟨(writeLy (ppuRun 456 s)).withReply .done, rfl, ?_⟩
  simp [ppuRun_456 s hm he hl, writeLy_ly, visibleLine_eq, renderLine]

section
variable {s : State} (hm : s.ppuMode = .oamRead) (he : s.ppuElapsed = 0) (hl : s.ppuLine = 0)
include hm he hl

/-- From the start of line 0, l lines change the scratch grid and the line alone (R204). -/
theorem ppuRun_lines {l : Nat} (hle : l ≤ 143) :
    ∃ g, ppuRun (456 * l) s = (s.withScratch g).withPpu .oamRead 0 l := by
  induction l with
  | zero =>
    refine ⟨s.scratch, ?_⟩
    rw [ppuRun_of_lt s (by rw [hm, he]; exact Nat.succ_pos 79), countCycles, hm, he, hl]
    rfl
  | succ l ih =>
    obtain ⟨g, hg⟩ := ih (by omega)
    rw [Nat.mul_succ, ppuRun_add, hg, ppuRun_456 _ (by rfl) (by rfl) (by exact hle)]
    exact ⟨_, rfl⟩

/-- The last visible cycle of a frame: nothing has been raised or published. -/
theorem ppuRun_65663 : ∃ g, ppuRun 65663 s = (s.withScratch g).withPpu .hblank 203 143 := by
  obtain ⟨g, hg⟩ := ppuRun_lines hm he hl (Nat.le_refl 143)
  rw [show 65663 = 456 * 143 + 455 from rfl, ppuRun_add, hg, ppuRun_455 _ rfl rfl]
  exact ⟨_, rfl⟩

end

/-- Settles O47: 143 lines and 455 cycles change the scratch grid alone, the next cycle raises and publishes (R205), and
VBLANK only ends (R206). -/
theorem oneFramePublishesOnce : Obligations.OneFramePublishesOnce := by
  intro s hv hm he hl
  obtain ⟨g, hlast⟩ := ppuRun_65663 hm he hl
  have hframe : ppuRun 65664 s = (publish (raiseIrq .vblank (s.withScratch g))).withPpu .vblank 0 144 := by
    rw [show 65664 = 65663 + 1 from rfl, ppuRun_add, hlast,
      ppuRun_hblank_last _ (by rfl) (by rfl) (by rfl) (by exact hv)]
    rfl
  have hnext : ppuRun (65664 + s.params.vblankCycles) s =
      (publish (raiseIrq .vblank (s.withScratch g))).withPpu .oamRead 0 0 := by
    rw [ppuRun_add, hframe, ppuRun_vblank _ rfl (Nat.zero_add _)]
    rfl
  refine ⟨⟨(writeLy (ppuRun 65663 s)).withReply .done, rfl, ?_⟩,
    ⟨(writeLy (ppuRun 65664 s)).withReply .done, rfl, ?_⟩,
    ⟨(writeLy (ppuRun (65664 + s.params.vblankCycles) s)).withReply .done, rfl, ?_⟩⟩
  · simp [hlast]
  · simp [hframe, publish, raiseIrq, irqMask_vblank]
  · simp [hnext, publish, raiseIrq, irqMask_vblank]

end Sys2Proof.Machine
end

section
/-! PROOF. The timer (R240 to R245, R249, R250): TIMA's three cases in one cycle, and over n cycles the counter, DIV and
TIMA by the number of multiples of a period that the counter passes. Every period the timer tests divides 1024, so the
counter's own wrap is not seen in that number (R250). -/

namespace Sys2Proof.Machine

/-! ## One cycle of TIMA (R244, R245) -/

section
variable {s : State}

/-- TIMA counts in the next cycle: the timer is enabled and the counter then comes to a multiple of the divisor (R244). -/
def TimaDue (s : State) : Prop := s.tEnabled = true ∧ (s.tcount.toNat + 1) % 1024 % s.tDivisor = 0

theorem tcount_succ_toNat (s : State) : (s.tcount + 1#10).toNat = (s.tcount.toNat + 1) % 1024 := BitVec.toNat_add _ _

theorem timerCycle_overflow (h : TimaDue s) (hff : s.io.read 0x05 = 0xFF#8) :
    (timerCycle s).io.read 0x05 = s.io.read 0x06 ∧ (timerCycle s).irq = s.irq ||| irqMask .timer := by
  rw [← Prod.mk.injEq, timerCycle_tima, tcount_succ_toNat]
  exact (if_pos h).trans (if_pos hff)

theorem timerCycle_count (h : TimaDue s) (hff : s.io.read 0x05 ≠ 0xFF#8) :
    (timerCycle s).io.read 0x05 = s.io.read 0x05 + 1#8 ∧ (timerCycle s).irq = s.irq := by
  rw [← Prod.mk.injEq, timerCycle_tima, tcount_succ_toNat]
  exact (if_pos h).trans (if_neg hff)

theorem timerCycle_keep (h : ¬ TimaDue s) :
    (timerCycle s).io.read 0x05 = s.io.read 0x05 ∧ (timerCycle s).irq = s.irq := by
  rw [← Prod.mk.injEq, timerCycle_tima, tcount_succ_toNat]
  exact if_neg h

end

/-- Settles O39: the three cases of one cycle. -/
theorem timaCountsReloadsAndRaises : Obligations.TimaCountsReloadsAndRaises := by
  refine fun s => ⟨(timerCycle s).withReply .done, rfl, fun hen hmul => ⟨?_, ?_⟩, fun hnot => ?_⟩
  · exact timerCycle_overflow ⟨hen, hmul⟩
  · exact timerCycle_count ⟨hen, hmul⟩
  · refine timerCycle_keep fun ⟨hen, hmul⟩ => ?_
    rcases hnot with hoff | hne
    · exact Bool.false_ne_true (hoff.symm.trans hen)
    · exact hne hmul

/-! ## Multiples of a period that a count passes -/

/-- How many multiples of d a count from c passes in n steps. -/
def multiplesPassed (d c n : Nat) : Nat := (c + n) / d - c / d

theorem multiplesPassed_zero (d c : Nat) : multiplesPassed d c 0 = 0 := Nat.sub_self _

theorem multiplesPassed_succ (d c n : Nat) :
    multiplesPassed d c (n + 1) = multiplesPassed d c n + if d ∣ c + n + 1 then 1 else 0 := by
  have hle : c / d ≤ (c + n) / d := Nat.div_le_div_right (Nat.le_add_right c n)
  rw [multiplesPassed, ← Nat.add_assoc, Nat.succ_div, multiplesPassed, Nat.sub_add_comm hle]

/-! ## Many cycles -/

/-- The last cycle of a batch (R248). -/
theorem timerTick_succ_last (n : Nat) (s : State) : timerTick (n + 1) s = timerCycle (timerTick n s) := timerTick_add n 1 s

section
variable (n : Nat) (s : State)

theorem timerTick_tEnabled : (timerTick n s).tEnabled = s.tEnabled := by
  obtain ⟨c, m, q, e⟩ := timerTick_frame n s
  rw [e]
  rfl

theorem timerTick_tDivisor : (timerTick n s).tDivisor = s.tDivisor := by
  obtain ⟨c, m, q, e⟩ := timerTick_frame n s
  rw [e]
  rfl

theorem timerTick_tcount : (timerTick n s).tcount.toNat = (s.tcount.toNat + n) % 1024 := by
  induction n with
  | zero => exact (Nat.mod_eq_of_lt s.tcount.isLt).symm
  | succ n ih => rw [timerTick_succ_last, timerCycle_tcount, tcount_succ_toNat, ih, Nat.mod_add_mod, Nat.add_assoc]

/-- The next cycle brings the 10-bit counter to a multiple of d exactly when the unwrapped count comes to one (R250). -/
theorem timerTick_next_multiple {d : Nat} (hd : d ∣ 1024) :
    ((timerTick n s).tcount.toNat + 1) % 1024 % d = 0 ↔ d ∣ s.tcount.toNat + n + 1 := by
  rw [timerTick_tcount, Nat.mod_add_mod, Nat.mod_mod_of_dvd _ hd, Nat.dvd_iff_mod_eq_zero]

theorem timerTick_io_other {off : Nat} (h4 : off ≠ 0x04) (h5 : off ≠ 0x05) :
    (timerTick n s).io.read off = s.io.read off := by
  induction n with
  | zero => rfl
  | succ n ih => rw [timerTick_succ_last, timerCycle_io_other _ h4 h5, ih]

theorem timerTick_irq : (timerTick n s).irq = s.irq ∨ (timerTick n s).irq = s.irq ||| irqMask .timer := by
  induction n with
  | zero => exact .inl rfl
  | succ n ih =>
    rw [timerTick_succ_last]
    rcases timerCycle_irq (timerTick n s) with hkeep | hraise
    · rwa [hkeep]
    · rw [hraise]
      rcases ih with h | h
      · exact .inr (by rw [h])
      · exact .inr (by rw [h, BitVec.or_assoc, BitVec.or_self])

/-- DIV counts the multiples of 256 passed, modulo 256 (R243). -/
theorem timerTick_div : ((timerTick n s).io.read 0x04).toNat =
    ((s.io.read 0x04).toNat + multiplesPassed 256 s.tcount.toNat n) % 256 := by
  induction n with
  | zero =>
    rw [multiplesPassed_zero]
    exact (Nat.mod_eq_of_lt (s.io.read 0x04).isLt).symm
  | succ n ih =>
    rw [timerTick_succ_last, timerCycle_div, tcount_succ_toNat, multiplesPassed_succ]
    simp only [timerTick_next_multiple n s (show 256 ∣ 1024 by decide)]
    split
    · rw [BitVec.toNat_add, ih, ← Nat.add_assoc]
      exact Nat.mod_add_mod _ 256 1
    · exact ih

end

/-- Settles O38: the frame of a TIMER_TICK, its counter and DIV. -/
theorem timerTickCountsAndTouchesOnlyTheTimer : Obligations.TimerTickCountsAndTouchesOnlyTheTimer := by
  intro n s
  refine ⟨(timerTick n s).withReply .done, rfl, ?_, timerTick_tcount n s, ?_,
    fun off h4 h5 => timerTick_io_other n s h4 h5, timerTick_irq n s⟩
  · obtain ⟨c, m, q, e⟩ := timerTick_frame n s
    rw [e]
    rfl
  · rw [Nat.add_sub_assoc (Nat.div_le_div_right (Nat.le_add_right _ n))]
    exact timerTick_div n s

/-! ## TIMA over many cycles (R244, R249, R250) -/

theorem timerTick_tima_disabled (n : Nat) {s : State} (hoff : s.tEnabled = false) :
    (timerTick n s).io.read 0x05 = s.io.read 0x05 ∧ (timerTick n s).irq = s.irq := by
  induction n with
  | zero => exact ⟨rfl, rfl⟩
  | succ n ih =>
    obtain ⟨htima, hirq⟩ := ih
    have hnot : ¬ TimaDue (timerTick n s) := by
      rintro ⟨hen, -⟩
      rw [timerTick_tEnabled, hoff] at hen
      exact Bool.false_ne_true hen
    obtain ⟨hkeep, hflags⟩ := timerCycle_keep hnot
    rw [timerTick_succ_last]
    exact ⟨hkeep.trans htima, hflags.trans hirq⟩

/-- After n cycles of an enabled timer the next one counts exactly when it passes a multiple of the divisor. -/
theorem timaDue_timerTick (n : Nat) {s : State} (hen : s.tEnabled = true) (hd : s.tDivisor ∣ 1024) :
    TimaDue (timerTick n s) ↔ s.tDivisor ∣ s.tcount.toNat + n + 1 := by
  rw [TimaDue, timerTick_tEnabled, timerTick_tDivisor, timerTick_next_multiple n s hd, and_iff_right hen]

theorem timerTick_tima_enabled (n : Nat) {s : State} (hen : s.tEnabled = true) (hd : s.tDivisor ∣ 1024)
    (hfit : (s.io.read 0x05).toNat + multiplesPassed s.tDivisor s.tcount.toNat n ≤ 255) :
    (timerTick n s).irq = s.irq ∧ ((timerTick n s).io.read 0x05).toNat =
      (s.io.read 0x05).toNat + multiplesPassed s.tDivisor s.tcount.toNat n := by
  induction n with
  | zero => exact ⟨rfl, by rw [multiplesPassed_zero]; rfl⟩
  | succ n ih =>
    rw [multiplesPassed_succ] at hfit ⊢
    obtain ⟨hirq, htima⟩ := ih (by omega)
    rw [timerTick_succ_last]
    by_cases hmul : s.tDivisor ∣ s.tcount.toNat + n + 1
    · rw [if_pos hmul] at hfit ⊢
      have hff : (timerTick n s).io.read 0x05 ≠ 0xFF#8 := by
        intro heq
        rw [heq, BitVec.toNat_ofNat] at htima
        omega
      obtain ⟨hcount, hflags⟩ := timerCycle_count ((timaDue_timerTick n hen hd).mpr hmul) hff
      refine ⟨hflags.trans hirq, ?_⟩
      rw [hcount, BitVec.toNat_add, htima, BitVec.toNat_ofNat]
      omega
    · rw [if_neg hmul]
      obtain ⟨hkeep, hflags⟩ := timerCycle_keep (mt (timaDue_timerTick n hen hd).mp hmul)
      exact ⟨hflags.trans hirq, by rw [hkeep, htima]; rfl⟩

theorem PowerOfTwoTo1024.dvd {d : Nat} (h : PowerOfTwoTo1024 d) : d ∣ 1024 := by
  obtain ⟨k, hk, rfl⟩ := h
  exact pow_dvd_pow 2 hk

/-- Settles O40: TIMA is kept while disabled, and a legal divisor divides the counter's period. -/
theorem timaOverManyCycles : Obligations.TimaOverManyCycles := fun n _ =>
  ⟨fun hoff => ⟨_, rfl, timerTick_tima_disabled n hoff⟩,
    fun hen hd hfit => ⟨_, rfl, timerTick_tima_enabled n hen hd.dvd hfit⟩⟩

end Sys2Proof.Machine
end

section
/-! PROOF. The interrupt line (R270, R272 to R275, R305): IRQ_READ reports the lowest flag of the pending set, IRQ_CLEAR and
IRQ_RAISE act on their own bits, and no other effect clears a flag. -/

namespace Sys2Proof.Machine

/-! ## The priority choice (R272, R275) -/

/-- The flags by rising number, which is the order of priority (R275). -/
def irqsByNumber : List Irq := [.vblank, .lcdStat, .timer, .serial, .joypad]

theorem mem_irqsByNumber (k : Irq) : k ∈ irqsByNumber := by
  cases k <;> decide

theorem irqsByNumber_pairwise : irqsByNumber.Pairwise (fun j k => j.bit < k.bit) := by decide

/-- The first hit in a list that rises by `f` is the hit with the least `f`. -/
theorem find?_eq_some_iff_least {α : Type} {q : α → Bool} {f : α → Nat} {l : List α}
    (hl : l.Pairwise fun a b => f a < f b) (a : α) :
    l.find? q = some a ↔ a ∈ l ∧ q a = true ∧ ∀ b ∈ l, q b = true → f a ≤ f b := by
  induction l with
  | nil => simp
  | cons c l ih =>
    obtain ⟨hc, hl⟩ := List.pairwise_cons.mp hl
    cases hq : q c with
    | true =>
      rw [List.find?_cons_of_pos hq, Option.some.injEq]
      constructor
      · rintro rfl
        exact ⟨List.mem_cons_self, hq, List.forall_mem_cons.mpr ⟨fun _ => Nat.le_refl _, fun b hb _ => (hc b hb).le⟩⟩
      · rintro ⟨ha, -, hleast⟩
        rcases List.mem_cons.mp ha with rfl | ha
        · rfl
        · exact absurd (hleast c List.mem_cons_self hq) (Nat.not_le.mpr (hc a ha))
    | false =>
      have hqc : ¬ q c = true := Bool.not_eq_true _ ▸ hq
      rw [List.find?_cons_of_neg hqc, ih hl]
      constructor
      · rintro ⟨ha, hqa, hleast⟩
        exact ⟨List.mem_cons_of_mem c ha, hqa, List.forall_mem_cons.mpr ⟨fun h => absurd h hqc, hleast⟩⟩
      · rintro ⟨ha, hqa, hleast⟩
        refine ⟨(List.mem_cons.mp ha).resolve_left ?_, hqa, (List.forall_mem_cons.mp hleast).2⟩
        rintro rfl
        exact hqc hqa

theorem ite_some_eq_find?_cons {α : Type} {q : α → Bool} {l : List α} {r : Option α} (a : α) (h : r = l.find? q) :
    (if q a = true then some a else r) = (a :: l).find? q := by
  split
  · rw [List.find?_cons_of_pos ‹_›]
  · rw [List.find?_cons_of_neg ‹_›, h]

/-- The choice is a search of the flags by number (R272). -/
theorem highestPending_eq_find? (p : BitVec 5) : highestPending p = irqsByNumber.find? (pendingIn p) := by
  unfold highestPending
  iterate 5 refine ite_some_eq_find?_cons _ ?_
  rfl

theorem highestPending_eq_some_iff (p : BitVec 5) (k : Irq) :
    highestPending p = some k ↔
      p.getLsbD k.bit = true ∧ ∀ j : Irq, p.getLsbD j.bit = true → k.bit ≤ j.bit := by
  rw [highestPending_eq_find?, find?_eq_some_iff_least irqsByNumber_pairwise]
  simp only [mem_irqsByNumber, true_and, true_imp_iff]
  rfl

/-- Every bit of the pending set is a flag's (R32). -/
theorem exists_irq_bit_eq {b : Nat} (h : b < 5) : ∃ k : Irq, k.bit = b := by
  interval_cases b
  exacts [⟨.vblank, rfl⟩, ⟨.lcdStat, rfl⟩, ⟨.timer, rfl⟩, ⟨.serial, rfl⟩, ⟨.joypad, rfl⟩]

theorem highestPending_eq_none_iff (p : BitVec 5) : highestPending p = none ↔ p = 0#5 := by
  rw [highestPending_eq_find?, List.find?_eq_none]
  constructor
  · intro h
    refine BitVec.eq_of_getLsbD_eq fun b hb => ?_
    obtain ⟨k, rfl⟩ := exists_irq_bit_eq hb
    rw [BitVec.getLsbD_zero]
    exact Bool.eq_false_iff.mpr (h k (mem_irqsByNumber k))
  · rintro rfl k -
    rw [pendingIn, BitVec.getLsbD_zero]
    exact Bool.false_ne_true

/-- Settles O28: the reply is the pending set with its least flag. -/
theorem irqReadReportsTheLowestPendingFlag : Obligations.IrqReadReportsTheLowestPendingFlag := fun s =>
  ⟨highestPending s.irq, rfl, highestPending_eq_none_iff s.irq, highestPending_eq_some_iff s.irq⟩

/-! ## Clearing and raising (R270, R273, R274) -/

theorem Irq.bit_lt (k : Irq) : k.bit < 5 := by
  cases k <;> decide

theorem irqMask_getLsbD (k : Irq) (b : Nat) : (irqMask k).getLsbD b = decide (b = k.bit) := by
  rw [irqMask, ← BitVec.twoPow_eq, BitVec.getLsbD_twoPow, decide_eq_true (Irq.bit_lt k), Bool.true_and]
  exact decide_eq_decide.mpr eq_comm

theorem clearIrq_getLsbD (m : BitVec 5) (s : State) {b : Nat} (h : b < 5) :
    (clearIrq m s).irq.getLsbD b = (s.irq.getLsbD b && !m.getLsbD b) := by
  rw [clearIrq, State.withIrq_irq, BitVec.getLsbD_and, BitVec.getLsbD_not, decide_eq_true h, Bool.true_and]

theorem raiseIrq_getLsbD (k : Irq) (s : State) (b : Nat) :
    (raiseIrq k s).irq.getLsbD b = (s.irq.getLsbD b || decide (b = k.bit)) := by
  rw [raiseIrq, State.withIrq_irq, BitVec.getLsbD_or, irqMask_getLsbD]

/-- Settles O29: both commands write the pending set alone, bit by bit. -/
theorem irqClearAndRaiseAffectTheirBits : Obligations.IrqClearAndRaiseAffectTheirBits :=
  ⟨fun s m => ⟨(clearIrq m s).withReply .done, rfl, rfl, fun _ hb => clearIrq_getLsbD m s hb⟩,
    fun s k => ⟨(raiseIrq k s).withReply .done, rfl, rfl, fun b _ => raiseIrq_getLsbD k s b⟩⟩

/-! ## No other effect clears a flag (R305) -/

/-- Every flag pending in `s` is pending in `t`. -/
def KeepsFlags (s t : State) : Prop := ∀ b, s.irq.getLsbD b = true → t.irq.getLsbD b = true

theorem keepsFlags_of_irq_eq {s t : State} (h : t.irq = s.irq) : KeepsFlags s t := fun b hb => by rwa [h]

theorem keepsFlags_of_irq_or {s t : State} {q : BitVec 5} (h : t.irq = s.irq ||| q) : KeepsFlags s t := fun b hb => by
  rw [h, BitVec.getLsbD_or, hb, Bool.true_or]

theorem KeepsFlags.trans {s t u : State} (h : KeepsFlags s t) (h' : KeepsFlags t u) : KeepsFlags s u :=
  fun b hb => h' b (h b hb)

theorem busStep_irq (n : Nat) (s : State) : (busStep n s).irq = s.irq := by
  rw [(busStep_frame n s).1]
  rfl

theorem deviceStep_keepsFlags (n : Nat) (s : State) (d : Device) : KeepsFlags s (deviceStep n s d) := by
  cases d with
  | bus => exact keepsFlags_of_irq_eq (busStep_irq n s)
  | ppu => exact (ppuStep_irq n s).elim keepsFlags_of_irq_eq keepsFlags_of_irq_or
  | timer => exact (timerTick_irq n s).elim keepsFlags_of_irq_eq keepsFlags_of_irq_or

theorem devices_keepsFlags (ds : List Device) (n : Nat) (s : State) : KeepsFlags s (ds.foldl (deviceStep n) s) :=
  List.foldlRecOn ds (deviceStep n) (motive := KeepsFlags s) (fun _ hb => hb) fun u hu d _ =>
    hu.trans (deviceStep_keepsFlags n u d)

@[simp] theorem State.store_irq (s : State) (r : RegionId) (off : Nat) (b : Byte) : (s.store r off b).irq = s.irq := by
  cases r <;> rfl

/-- An effect keeps every pending flag, or it is IRQ_CLEAR's. -/
theorem Effect.keepsFlags {s t : State} {i : Instr} (h : Effect s i t) :
    KeepsFlags s t ∨ ∃ m, i = .irqClear m ∧ t = clearIrq m s := by
  cases h
  case irqClear m => exact .inr ⟨m, rfl, rfl⟩
  case irqRaise k => exact .inl (keepsFlags_of_irq_or rfl)
  case devices ds n k => exact .inl (devices_keepsFlags ds n (s.withSysSteps k))
  case store | eram | tac | dma | bootOff => exact .inl (keepsFlags_of_irq_eq (State.store_irq ..))
  all_goals exact .inl (keepsFlags_of_irq_eq rfl)

/-- A flag that a clear takes away is one of its mask. -/
theorem getLsbD_mask_of_cleared {m : BitVec 5} {s : State} {b : Nat} (hset : s.irq.getLsbD b = true)
    (hclear : (clearIrq m s).irq.getLsbD b = false) : m.getLsbD b = true := by
  rw [clearIrq_getLsbD m s (BitVec.lt_of_getLsbD hset), hset, Bool.true_and, Bool.not_eq_false'] at hclear
  exact hclear

/-- Settles O55: the one effect that clears flags is that of IRQ_CLEAR, whose row has one word. -/
theorem onlyIrqClearClearsAFlag : Obligations.OnlyIrqClearClearsAFlag := by
  intro s t b h hset hclear
  rcases step_cases h with ⟨-, rfl⟩ | ⟨x, rest, hq, ⟨f, rfl⟩ | ⟨i, u, q, ⟨-, -, hx⟩, hu, -, rfl⟩⟩
  · cases hset.symm.trans hclear
  · cases hset.symm.trans hclear
  · rcases hu.keepsFlags with hkeep | ⟨m, rfl, rfl⟩
    · cases (hkeep b hset).symm.trans hclear
    · exact ⟨rest, m.toNat, by rw [hq, ← hx]; rfl, Int.natCast_nonneg _, getLsbD_mask_of_cleared hset hclear⟩

end Sys2Proof.Machine
end

section
/-! PROOF. The timer and the scanline processor commute (R240, R336): the timer does not see a raised flag or the LY byte,
and the scanline processor does not see the bytes and the flag of the timer. -/

namespace Sys2Proof.Machine

/-! ## The timer does not see another device's flag (R270) -/

theorem raiseIrq_comm (j k : Irq) (s : State) : raiseIrq j (raiseIrq k s) = raiseIrq k (raiseIrq j s) := by
  simp only [raiseIrq, State.withIrq_irq, BitVec.or_assoc, BitVec.or_comm (irqMask j)]
  rfl

theorem divCycle_raiseIrq (k : Irq) (s : State) : divCycle (raiseIrq k s) = raiseIrq k (divCycle s) := by
  unfold divCycle
  rw [apply_ite (raiseIrq k)]
  rfl

theorem timaCount_raiseIrq (k : Irq) (s : State) : timaCount (raiseIrq k s) = raiseIrq k (timaCount s) := by
  unfold timaCount
  rw [apply_ite (raiseIrq k), raiseIrq_comm]
  rfl

theorem timaCycle_raiseIrq (k : Irq) (s : State) : timaCycle (raiseIrq k s) = raiseIrq k (timaCycle s) := by
  unfold timaCycle
  rw [apply_ite (raiseIrq k), timaCount_raiseIrq]
  rfl

theorem timerCycle_raiseIrq (k : Irq) (s : State) : timerCycle (raiseIrq k s) = raiseIrq k (timerCycle s) := by
  unfold timerCycle
  rw [← timaCycle_raiseIrq, ← divCycle_raiseIrq]
  rfl

theorem timerTick_raiseIrq (k : Irq) (n : Nat) (s : State) : timerTick n (raiseIrq k s) = raiseIrq k (timerTick n s) := by
  induction n generalizing s with
  | zero => rfl
  | succ n ih => rw [timerTick_succ, timerTick_succ, timerCycle_raiseIrq, ih]

/-! ## The timer does not see the LY byte (R240) -/

/-- The LY byte is written. -/
def storeLy (v : Byte) (s : State) : State := s.withIo (s.io.write 0x44 v)

theorem writeLy_eq_storeLy (s : State) : writeLy s = storeLy (BitVec.ofNat 8 (visibleLine s)) s := rfl

theorem storeLy_io_other (v : Byte) (s : State) {off : Nat} (h : off ≠ 0x44) : (storeLy v s).io.read off = s.io.read off :=
  Memory.read_write_other _ _ h

theorem storeLy_fits (v : Byte) {s : State} (h : s.io.fits Config.ioLen) : (storeLy v s).io.fits Config.ioLen :=
  Memory.write_fits v (by decide) h

theorem timerCycle_storeLy_tima (v : Byte) (s : State) :
    ((timerCycle (storeLy v s)).io.read 0x05, (timerCycle (storeLy v s)).irq) =
      ((timerCycle s).io.read 0x05, (timerCycle s).irq) := by
  rw [timerCycle_tima, timerCycle_tima, storeLy_io_other v s (show 0x05 ≠ 0x44 by decide),
    storeLy_io_other v s (show 0x06 ≠ 0x44 by decide)]
  rfl

theorem timerCycle_storeLy_div (v : Byte) (s : State) :
    (timerCycle (storeLy v s)).io.read 0x04 = (timerCycle s).io.read 0x04 := by
  rw [timerCycle_div, timerCycle_div, storeLy_io_other v s (show 0x04 ≠ 0x44 by decide)]
  rfl

theorem timerCycle_storeLy_io (v : Byte) {s : State} (h : s.io.fits Config.ioLen) :
    (timerCycle (storeLy v s)).io = (timerCycle s).io.write 0x44 v := by
  refine Memory.ext_of_read (timerCycle_io_fits (storeLy_fits v h)).1 (Memory.write_wf _ _ (timerCycle_io_fits h).1)
    fun off => ?_
  rw [Memory.read_write]
  by_cases h4 : off = 0x04
  · subst h4
    exact timerCycle_storeLy_div v s
  by_cases h5 : off = 0x05
  · subst h5
    exact congrArg Prod.fst (timerCycle_storeLy_tima v s)
  rw [timerCycle_io_other _ h4 h5, timerCycle_io_other s h4 h5]
  exact Memory.read_write ..

theorem timerCycle_storeLy (v : Byte) {s : State} (h : s.io.fits Config.ioLen) :
    timerCycle (storeLy v s) = storeLy v (timerCycle s) := by
  have hirq : (timerCycle (storeLy v s)).irq = (timerCycle s).irq := congrArg Prod.snd (timerCycle_storeLy_tima v s)
  rw [timerCycle_frame (storeLy v s), timerCycle_storeLy_io v h, hirq, storeLy, timerCycle_frame s]
  rfl

theorem timerTick_storeLy (v : Byte) (n : Nat) {s : State} (h : s.io.fits Config.ioLen) :
    timerTick n (storeLy v s) = storeLy v (timerTick n s) := by
  induction n generalizing s with
  | zero => rfl
  | succ n ih => rw [timerTick_succ, timerTick_succ, timerCycle_storeLy v h, ih (timerCycle_io_fits h)]

/-! ## The scanline processor does not see a TIMER_TICK (R207, R240) -/

/-- What the timer does not write is the same after a TIMER_TICK (R240). -/
theorem timerTick_keeps {α : Type} (field : State → α)
    (hfield : ∀ s c m q, field (((s.withTcount c).withIo m).withIrq q) = field s) (n : Nat) (s : State) :
    field (timerTick n s) = field s := by
  obtain ⟨c, m, q, e⟩ := timerTick_frame n s
  rw [e, hfield]

section
variable (n : Nat) (s : State)

@[simp] theorem timerTick_params : (timerTick n s).params = s.params := (dmaBlind_timerTick n).params s
@[simp] theorem timerTick_vram : (timerTick n s).vram = s.vram := (dmaBlind_timerTick n).vram s
@[simp] theorem timerTick_oam : (timerTick n s).oam = s.oam := (dmaBlind_timerTick n).oam s
@[simp] theorem timerTick_dma : (timerTick n s).dma = s.dma := (dmaBlind_timerTick n).dma s

@[simp] theorem timerTick_ppuMode : (timerTick n s).ppuMode = s.ppuMode :=
  timerTick_keeps State.ppuMode (fun _ _ _ _ => rfl) n s

@[simp] theorem timerTick_ppuElapsed : (timerTick n s).ppuElapsed = s.ppuElapsed :=
  timerTick_keeps State.ppuElapsed (fun _ _ _ _ => rfl) n s

@[simp] theorem timerTick_ppuLine : (timerTick n s).ppuLine = s.ppuLine :=
  timerTick_keeps State.ppuLine (fun _ _ _ _ => rfl) n s

@[simp] theorem timerTick_scratch : (timerTick n s).scratch = s.scratch :=
  timerTick_keeps State.scratch (fun _ _ _ _ => rfl) n s

@[simp] theorem timerTick_frontSeq : (timerTick n s).frontSeq = s.frontSeq :=
  timerTick_keeps State.frontSeq (fun _ _ _ _ => rfl) n s

theorem timerTick_withPpu (m : PpuMode) (e l : Nat) : timerTick n (s.withPpu m e l) = (timerTick n s).withPpu m e l :=
  timerTick_blind (f := fun s => s.withPpu m e l) (by constructor <;> intros <;> rfl) n s

theorem timerTick_withScratch (g : Grid) : timerTick n (s.withScratch g) = (timerTick n s).withScratch g :=
  timerTick_blind (f := fun s => s.withScratch g) (by constructor <;> intros <;> rfl) n s

theorem timerTick_withFront (g : Grid) (k : Nat) : timerTick n (s.withFront g k) = (timerTick n s).withFront g k :=
  timerTick_blind (f := fun s => s.withFront g k) (by constructor <;> intros <;> rfl) n s

/-- Rendering reads LCDC, SCY and SCX, which the timer does not write (R207, R240). -/
theorem renderLine_timerTick (l : Nat) : renderLine l (timerTick n s) = timerTick n (renderLine l s) := by
  have hline : renderedLine l (timerTick n s) = renderedLine l s := by
    simp only [renderedLine, renderPixel, timerTick_vram,
      timerTick_io_other n s (show Config.lcdcOff ≠ 0x04 by decide) (show Config.lcdcOff ≠ 0x05 by decide),
      timerTick_io_other n s (show Config.scyOff ≠ 0x04 by decide) (show Config.scyOff ≠ 0x05 by decide),
      timerTick_io_other n s (show Config.scxOff ≠ 0x04 by decide) (show Config.scxOff ≠ 0x05 by decide)]
  rw [renderLine, renderLine, hline, timerTick_withScratch, timerTick_scratch]

theorem publish_timerTick : publish (timerTick n s) = timerTick n (publish s) := by
  rw [publish, publish, timerTick_withFront, timerTick_scratch, timerTick_frontSeq]

theorem transition_timerTick : transition (timerTick n s) = timerTick n (transition s) := by
  have hmode := timerTick_ppuMode n s
  have hline := timerTick_ppuLine n s
  cases hm : s.ppuMode with
  | oamRead =>
    rw [transition_oamRead s hm, transition_oamRead _ (hmode.trans hm), timerTick_withPpu, timerTick_ppuElapsed, hline]
  | vramRead =>
    rw [transition_vramRead s hm, transition_vramRead _ (hmode.trans hm), timerTick_withPpu, timerTick_ppuElapsed, hline,
      renderLine_timerTick]
  | hblank =>
    by_cases hl : s.ppuLine < 143
    · rw [transition_hblank_of_lt s hm hl, transition_hblank_of_lt _ (hmode.trans hm) (by rwa [hline]), timerTick_withPpu,
        timerTick_ppuElapsed, hline]
    · rw [transition_hblank_of_not_lt s hm hl, transition_hblank_of_not_lt _ (hmode.trans hm) (by rwa [hline]),
        timerTick_withPpu, timerTick_ppuElapsed, ← timerTick_raiseIrq, publish_timerTick]
  | vblank => rw [transition_vblank s hm, transition_vblank _ (hmode.trans hm), timerTick_withPpu, timerTick_ppuElapsed]

theorem ppuTurn_timerTick : ppuTurn (timerTick n s) = timerTick n (ppuTurn s) := by
  rw [ppuTurn, ppuTurn, ← transition_timerTick, timerTick_withPpu, timerTick_params, timerTick_ppuMode,
    timerTick_ppuElapsed, timerTick_ppuLine]

theorem ppuDone_timerTick : PpuDone (timerTick n s) ↔ PpuDone s := by
  rw [PpuDone, PpuDone, timerTick_params, timerTick_ppuMode, timerTick_ppuElapsed]

theorem ppuLoop_timerTick (k : Nat) : ppuLoop k (timerTick n s) = timerTick n (ppuLoop k s) := by
  induction k generalizing s with
  | zero => rfl
  | succ k ih =>
    have hiff := ppuDone_timerTick n s
    by_cases hd : PpuDone s
    · rw [ppuLoop_done hd, ppuLoop_done (hiff.mpr hd)]
    · rw [ppuLoop_succ_of_not_done hd, ppuLoop_succ_of_not_done (mt hiff.mp hd), ppuTurn_timerTick, ih]

theorem ppuRun_timerTick (k : Nat) : ppuRun k (timerTick n s) = timerTick n (ppuRun k s) := by
  rw [ppuRun, ppuRun, ← ppuLoop_timerTick, countCycles, countCycles, timerTick_withPpu, timerTick_ppuMode,
    timerTick_ppuElapsed, timerTick_ppuLine]

theorem visibleLine_timerTick : visibleLine (timerTick n s) = visibleLine s := by
  rw [visibleLine_eq, visibleLine_eq, timerTick_params, timerTick_ppuMode, timerTick_ppuElapsed, timerTick_ppuLine]

end

theorem ppuStep_timerTick (k n : Nat) {s : State} (h : s.io.fits Config.ioLen) :
    ppuStep k (timerTick n s) = timerTick n (ppuStep k s) := by
  have hrun : (ppuRun k s).io.fits Config.ioLen := by rwa [ppuRun_io]
  rw [ppuStep_eq_writeLy, ppuStep_eq_writeLy, writeLy_eq_storeLy, writeLy_eq_storeLy, ppuRun_timerTick,
    visibleLine_timerTick, timerTick_storeLy _ n hrun]

end Sys2Proof.Machine
end

section
/-! PROOF. SYS_STEP and DEVICE_ORDER (R276, R336): any two of the three devices commute, but for a transfer that reads the IO
block, so the order is seen only through page 0xFF; there it is seen in the byte of TIMA. -/

namespace Sys2Proof.Machine

/-! ## Every order is one of the six (R276) -/

theorem devices_perm (o : DeviceOrder) : o.devices.Perm [.bus, .ppu, .timer] := by
  cases o <;> decide

/-- Settles O48: the order is the free value of this SYS_STEP. -/
theorem sysStepAdvancesEveryDeviceOnce : Obligations.SysStepAdvancesEveryDeviceOnce := fun _ s =>
  ⟨Config.deviceOrder s.sysSteps, _, rfl, rfl, devices_perm _⟩

/-! ## The order is not seen without page 0xFF (R336) -/

theorem busStep_io (n : Nat) (s : State) : (busStep n s).io = s.io := by
  rw [(busStep_frame n s).1]
  rfl

@[simp] theorem ppuStep_dma (n : Nat) (s : State) : (ppuStep n s).dma = s.dma := (dmaBlind_ppuStep n).dma s
@[simp] theorem ppuStep_oam (n : Nat) (s : State) : (ppuStep n s).oam = s.oam := (dmaBlind_ppuStep n).oam s

/-- With the IO block in its form and no transfer from page 0xFF, every order gives what BUS, PPU, TIMER gives. -/
theorem sysStepIn_eq_busPpuTimer (o : DeviceOrder) (n : Nat) {s : State} (hio : s.io.fits Config.ioLen)
    (hpage : ∀ e ∈ s.dma, e.page ≠ 0xFF#8) : sysStepIn o n s = timerTick n (ppuStep n (busStep n s)) := by
  have bus_ppu (u : State) (hu : u.dma = s.dma) : busStep n (ppuStep n u) = ppuStep n (busStep n u) :=
    busStep_blind (dmaBlind_ppuStep n) n u (.inl (hu ▸ hpage))
  have bus_timer (u : State) (hu : u.dma = s.dma) : busStep n (timerTick n u) = timerTick n (busStep n u) :=
    busStep_blind (dmaBlind_timerTick n) n u (.inl (hu ▸ hpage))
  have ppu_timer : ppuStep n (timerTick n (busStep n s)) = timerTick n (ppuStep n (busStep n s)) :=
    ppuStep_timerTick n n (by rwa [busStep_io])
  cases o with
  | busPpuTimer => rfl
  | busTimerPpu => exact ppu_timer
  | ppuBusTimer => exact congrArg (timerTick n) (bus_ppu s rfl)
  | ppuTimerBus => exact (bus_timer _ (ppuStep_dma n s)).trans (congrArg (timerTick n) (bus_ppu s rfl))
  | timerBusPpu => exact (congrArg (ppuStep n) (bus_timer s rfl)).trans ppu_timer
  | timerPpuBus =>
    exact (bus_ppu _ (timerTick_dma n s)).trans ((congrArg (ppuStep n) (bus_timer s rfl)).trans ppu_timer)

/-! ## With page 0xFF the order is seen in TIMA (R336) -/

/-- A source on page 0xFF below 0xFF80 reads that byte of the IO block (R183). -/
theorem memRead_dmaSource_io (s : State) {i : Nat} (h : i < 0x80) :
    memRead (dmaSource 0xFF#8 i) s = .ok (s.io.read i, s) := by
  have haddr : (dmaSource 0xFF#8 i).toNat = 0xFF00 + i := dmaSource_toNat 0xFF#8 (by omega)
  have hwin : window (dmaSource 0xFF#8 i) = .io := by
    have hrange := window_range (dmaSource 0xFF#8 i)
    rw [haddr] at hrange
    generalize window (dmaSource 0xFF#8 i) = w at hrange
    cases w <;> simp only [Window.start, Window.length] at hrange
    case io => rfl
    all_goals omega
  have hoff : Window.io.offset (dmaSource 0xFF#8 i) = i := by
    rw [Window.offset, haddr]
    exact Nat.add_sub_cancel_left ..
  unfold memRead
  rw [hwin]
  simp only [readIo, hoff]
  exact regionRead_ok h

section
variable {s : State} {n : Nat} (hp : s.params.Legal) (hdma : s.dma = [⟨0xFF#8, 0⟩]) (hland : s.params.landAt 5 ≤ n)
include hp hdma hland

/-- A transfer from page 0xFF copies the byte of TIMA (R183). -/
theorem busStep_oam_tima : (busStep n s).oam.read 5 = s.io.read 0x05 :=
  busStep_landed_drawless hp (older := []) hdma (by decide) (by decide) hland (memRead_dmaSource_io s (by decide))

/-- The engine before the timer copies the old TIMA. -/
theorem sysStepIn_busPpuTimer_oam : (sysStepIn .busPpuTimer n s).oam.read 5 = s.io.read 0x05 := by
  show (timerTick n (ppuStep n (busStep n s))).oam.read 5 = _
  rw [timerTick_oam, ppuStep_oam, busStep_oam_tima hp hdma hland]

/-- The timer before the engine has it copy the new TIMA. -/
theorem sysStepIn_timerBusPpu_oam : (sysStepIn .timerBusPpu n s).oam.read 5 = (timerTick n s).io.read 0x05 := by
  show (ppuStep n (busStep n (timerTick n s))).oam.read 5 = _
  rw [ppuStep_oam, busStep_oam_tima (by rwa [timerTick_params]) (by rwa [timerTick_dma]) (by rwa [timerTick_params])]

end

/-- The reset machine with the timer counting every cycle and a transfer from page 0xFF just triggered. -/
def copyingTima : State := (State.reset.withTimer true 1).withDma [⟨0xFF#8, 0⟩]

theorem copyingTima_inv : copyingTima.Inv :=
  { resetMeetsTheInvariant with dma := by decide, divisor := rfl }

/-- Settles O49: every order gives one state without page 0xFF; with it, eight cycles make TIMA 8 before byte 5 lands or
leave it 0. -/
theorem deviceOrderIsObservableOnlyThroughPageFF : Obligations.DeviceOrderIsObservableOnlyThroughPageFF := by
  refine ⟨fun n s o p hinv hpage => ?_, copyingTima, 8, copyingTima_inv, ?_⟩
  · rw [sysStepIn_eq_busPpuTimer o n hinv.io hpage, sysStepIn_eq_busPpuTimer p n hinv.io hpage]
  · have hland : copyingTima.params.landAt 5 ≤ 8 := by decide
    rw [sysStepIn_busPpuTimer_oam copyingTima_inv.params rfl hland,
      sysStepIn_timerBusPpu_oam copyingTima_inv.params rfl hland]
    decide

end Sys2Proof.Machine
end

section
/-! PROOF. A faulting transaction (R301), and the pending flags under DEVICE_ORDER (R309): the scanline processor and the
timer do not see what the DMA engine writes, and the TIMER flag does not depend on the LY byte. -/

namespace Sys2Proof.Machine

/-! ## A fault changes the fault record alone (R301) -/

/-- Settles O9: a step that answers a fault is one that takes it, since no effect of a row has a fault for its reply. -/
theorem faultChangesOnlyTheFaultRecord : Obligations.FaultChangesOnlyTheFaultRecord := by
  intro s t x rest f hq h hreply
  rcases step_cases h with ⟨hnil, -⟩ | ⟨y, rest', hq', ⟨g, rfl⟩ | ⟨i, u, q, -, -, hnofault, rfl⟩⟩
  · cases hq.symm.trans hnil
  · cases hq.symm.trans hq'
    cases hreply
    exact takeFault_eq f (s.withInbox rest)
  · exact absurd (Option.some.inj hreply) (hnofault f)

/-! ## What the DMA engine writes is not seen by the other devices (R182) -/

/-- What the DMA engine writes: OAM, the transfers and the count of draws. -/
def withEngine (o : Memory) (d : List Transfer) (k : Nat) (s : State) : State := ((s.withOam o).withDma d).withDraws k

theorem ppuBlind_withEngine (o : Memory) (d : List Transfer) (k : Nat) : PpuBlind (withEngine o d k) := by
  constructor <;> intros <;> rfl

theorem timerBlind_withEngine (o : Memory) (d : List Transfer) (k : Nat) : TimerBlind (withEngine o d k) := by
  constructor <;> intros <;> rfl

/-- The second state differs from the first only in what the DMA engine writes. -/
def SameButEngine (s t : State) : Prop := ∃ o d k, t = withEngine o d k s

theorem SameButEngine.irq {s t : State} (h : SameButEngine s t) : t.irq = s.irq := by
  obtain ⟨o, d, k, rfl⟩ := h
  rfl

theorem SameButEngine.busStep_right {s t : State} (h : SameButEngine s t) (n : Nat) : SameButEngine s (busStep n t) := by
  obtain ⟨o, d, k, rfl⟩ := h
  exact ⟨_, _, _, (busStep_frame n _).1⟩

theorem SameButEngine.ppuStep {s t : State} (h : SameButEngine s t) (n : Nat) :
    SameButEngine (ppuStep n s) (ppuStep n t) := by
  obtain ⟨o, d, k, rfl⟩ := h
  exact ⟨o, d, k, ppuStep_blind (ppuBlind_withEngine o d k) n s⟩

theorem SameButEngine.timerTick {s t : State} (h : SameButEngine s t) (n : Nat) :
    SameButEngine (timerTick n s) (timerTick n t) := by
  obtain ⟨o, d, k, rfl⟩ := h
  exact ⟨o, d, k, timerTick_blind (timerBlind_withEngine o d k) n s⟩

/-- Device steps with the engine's left out differ from all of them only in what the engine writes. -/
theorem SameButEngine.devices {s t : State} (h : SameButEngine s t) (ds : List Device) (n : Nat) :
    SameButEngine ((ds.filter (· ≠ .bus)).foldl (deviceStep n) s) (ds.foldl (deviceStep n) t) := by
  induction ds generalizing s t with
  | nil => exact h
  | cons d ds ih =>
    cases d with
    | bus => exact ih (h.busStep_right n)
    | ppu => exact ih (h.ppuStep n)
    | timer => exact ih (h.timerTick n)

/-- The engine's step can be left out of a SYS_STEP as far as the flags go. -/
theorem sysStepIn_irq (o : DeviceOrder) (n : Nat) (s : State) :
    (sysStepIn o n s).irq = ((o.devices.filter (· ≠ .bus)).foldl (deviceStep n) s).irq :=
  SameButEngine.irq (SameButEngine.devices ⟨s.oam, s.dma, s.draws, rfl⟩ o.devices n)

/-! ## The TIMER flag does not depend on the LY byte (R242, R245) -/

/-- The two states agree on what decides TIMA and the pending flags in a timer cycle. -/
structure SameTima (s t : State) : Prop where
  tcount : s.tcount = t.tcount
  tEnabled : s.tEnabled = t.tEnabled
  tDivisor : s.tDivisor = t.tDivisor
  tma : s.io.read 0x06 = t.io.read 0x06
  tima : s.io.read 0x05 = t.io.read 0x05
  irq : s.irq = t.irq

theorem SameTima.timerCycle {s t : State} (h : SameTima s t) : SameTima (timerCycle s) (timerCycle t) := by
  have hpair : ((Machine.timerCycle s).io.read 0x05, (Machine.timerCycle s).irq) =
      ((Machine.timerCycle t).io.read 0x05, (Machine.timerCycle t).irq) := by
    rw [timerCycle_tima, timerCycle_tima, h.tcount, h.tEnabled, h.tDivisor, h.tma, h.tima, h.irq]
  have htma (u : State) : (Machine.timerCycle u).io.read 0x06 = u.io.read 0x06 :=
    timerCycle_io_other u (by decide) (by decide)
  exact {
    tcount := by rw [timerCycle_tcount, timerCycle_tcount, h.tcount]
    tEnabled := (timerTick_tEnabled 1 s).trans (h.tEnabled.trans (timerTick_tEnabled 1 t).symm)
    tDivisor := (timerTick_tDivisor 1 s).trans (h.tDivisor.trans (timerTick_tDivisor 1 t).symm)
    tma := by rw [htma, htma, h.tma]
    tima := congrArg Prod.fst hpair
    irq := congrArg Prod.snd hpair }

theorem SameTima.timerTick {s t : State} (h : SameTima s t) (n : Nat) : SameTima (timerTick n s) (timerTick n t) := by
  induction n generalizing s t with
  | zero => exact h
  | succ n ih => exact ih h.timerCycle

theorem storeLy_sameTima (v : Byte) (s : State) : SameTima (storeLy v s) s :=
  ⟨rfl, rfl, rfl, storeLy_io_other v s (by decide), storeLy_io_other v s (by decide), rfl⟩

/-- The scanline processor and the timer raise the same flags in either order, whatever the form of the IO block. -/
theorem ppuStep_timerTick_irq (k n : Nat) (s : State) :
    (ppuStep k (timerTick n s)).irq = (timerTick n (ppuStep k s)).irq := by
  rw [ppuStep_eq_writeLy, ppuStep_eq_writeLy, writeLy_irq, ppuRun_timerTick, writeLy_eq_storeLy]
  exact ((storeLy_sameTima _ (ppuRun k s)).timerTick n).irq.symm

/-- Every order raises the flags that PPU, TIMER raises. -/
theorem sysStepIn_irq_eq_ppuTimer (o : DeviceOrder) (n : Nat) (s : State) :
    (sysStepIn o n s).irq = (timerTick n (ppuStep n s)).irq := by
  rw [sysStepIn_irq]
  cases o with
  | busPpuTimer | ppuBusTimer | ppuTimerBus => rfl
  | busTimerPpu | timerBusPpu | timerPpuBus => exact ppuStep_timerTick_irq n n s

/-- Settles O50: the engine raises no flag and is not seen by the two devices that do, and these two commute on the
flags. -/
theorem pendingFlagsDoNotDependOnTheOrder : Obligations.PendingFlagsDoNotDependOnTheOrder := fun n s o p =>
  (sysStepIn_irq_eq_ppuTimer o n s).trans (sysStepIn_irq_eq_ppuTimer p n s).symm

end Sys2Proof.Machine
end
